-- ==== Sys2Proof/Word.lean ====
section
/-! DEFINITION. The value types of the HackDVBS CORE: bytes, packets, the numeric type `Num` of the
pulse shaper and complex samples (spec 00_scope R8, R10, R11, R13; 30_encoding R91 to R97). -/

namespace Sys2Proof

/-- A byte: bit 7 is the most significant, bit 0 the least (R10). Every byte is unsigned. -/
abbrev Byte := BitVec 8

/-- A packet of fixed length, indexed from 0 (R11): 188 bytes for a TS packet, 204 for an RS packet. -/
abbrev Packet (n : Nat) := Vector Byte n

/-- The values of `Num`, the numeric type of taps, symbols and samples (R8, R13), as plain data: a real number
written out of rational numbers, `π`, sines, cosines and the four operations, which are all that the formulas
of 40_init_tables R138 and of the shaper use. "For proofs: the reals (all formulas exact)" (decision D8): the
real number an expression stands for is `Machine.realValue`, and any other real number is a constant with a
name, of which nothing is known. A floating-point value is a rational number. Which
numbers belong to `Num` and how its sums and products come out is a parameter of the instance,
`Config.NumType` (log entry 1). -/
inductive Num where
  /-- A rational number. -/
  | rat (q : Rat)
  /-- `π`. -/
  | pi
  /-- The real number `Config.namedReal k`. -/
  | named (k : Nat)
  /-- `sin(π·e)`. -/
  | sinPi (e : Num)
  /-- `cos(π·e)`. -/
  | cosPi (e : Num)
  /-- `-e`. -/
  | opp (e : Num)
  | sum (a b : Num)
  | prod (a b : Num)
  | quot (a b : Num)
deriving DecidableEq, Repr, Inhabited

/-- A complex value `(I, Q)` over a numeric type: a constellation point or a sample (R97). -/
structure SampleOf (K : Type) where
  i : K
  q : K
deriving DecidableEq, Repr, Inhabited

/-- A complex `Num`. -/
abbrev Sample := SampleOf Num

/-- What the mapper and the shaper need of a numeric type: "`+`, `·`, `Σ` on `Num` are the type's own addition
and multiplication" (R13), and `AMP` is "a configuration constant of type `Num`" (45_qpsk_mapper R233). The
functions of those two stages take it as an argument, so that any numeric type can be given (R8). -/
structure Arith (K : Type) where
  zero : K
  add : K → K → K
  mul : K → K → K
  neg : K → K
  amp : K

/-- `(0, 0)`. -/
def Sample.zero : Sample := ⟨.rat 0, .rat 0⟩

end Sys2Proof
end

