-- ==== Sys2Proof/Config.lean ====
section
/-! DEFINITION. What an instance of the hardware fixes: the operand record of INIT, the choices of the
boundary, and the values the spec leaves free (00_scope R8; 10_state R37; 40_init_tables R144;
45_qpsk_mapper R233). A free value is an opaque constant: no proof can learn what it is. -/

namespace Sys2Proof.Config

/-- Where the 1503 bytes of the scrambler's table come from (R131): the default recurrence of R133
(table A), or any 1503 bytes that the host supplies. -/
inductive PrbsSource where
  | recurrence
  | table (lut : Vector Byte 1503)
deriving DecidableEq, Repr, Inhabited

/-- The operand of INIT: the configuration record of R37 before it is checked. `U` is no field of it,
because INIT computes it from the two rates (R260). The roll-off is a real number, rational or not (log entry
2). -/
structure InitArg where
  symbolRate : Int
  sampleRate : Int
  taps : Int
  beta : Num
  prbs : PrbsSource
deriving DecidableEq, Repr, Inhabited

/-- `Num`, the numeric type of the instance, a parameter (00_scope R8, decision D8; log entry 1). Sums and
products are the exact ones brought back into the type by `Machine.NumType.round`. -/
inductive NumType where
  /-- The reals: "all formulas exact" (D8). -/
  | exact
  /-- 32-bit floating point, which the source recommends (R8). -/
  | binary32
  /-- 64-bit floating point (R144). -/
  | binary64
  /-- Any other type: its rounding is the free value `otherRound k`. -/
  | other (k : Nat)
deriving DecidableEq, Repr, Inhabited

/-- `quant_round`, the rounding of the boundary quantiser's cast, a parameter of the instance whose
default is toward zero (R8, R279, decision D18). -/
inductive Rounding where
  | towardZero
  | nearestEven
  | nearestAway
  | down
  | up
deriving DecidableEq, Repr, Inhabited

/-- FREE VALUE (log entry 1): the rounding of the numeric type `NumType.other k`. -/
opaque otherRound (k : Nat) : Num → Num

/-- FREE VALUE (log entry 1): what an operation of a floating-point type gives where the exact result lies past
its largest finite value. R299: no such result arises from admitted inputs, and the spec states none. -/
opaque pastRange : NumType → Rat → Rat

/-- FREE VALUE (log entry 1): the real number of the name `k`, any at all. With these every real number can stand in
the state and in an operand. -/
noncomputable opaque namedReal (k : Nat) : ℝ

/-- FREE VALUE (log entry 9): the `k`-th state that the spec declares unspecified. R292: "every other
state element unspecified"; R331: "every other element is unspecified". It may be any value of the
type. -/
opaque unspecified (α : Type) [Inhabited α] (k : Nat) : α

end Sys2Proof.Config
end

