-- ==== Sys2Proof/Syntax.lean ====
section
/-! DEFINITION. The operations of the HackDVBS CORE and its boundary, one constructor for each row of
the operation table (30_encoding R100), with the operands that table gives it. -/

namespace Sys2Proof

open Config

/-- An operation with its operands (R99, R100, R105). A fixed-length operand is a vector, so that a
packet of another length cannot be written; RS_ENCODE takes a list because its length check is part of
its meaning (R178, R293). The code bits of QPSK_MAP are given as the pairs `(b₁, b₀)` they are consumed
in, so that an odd number of them cannot be written (R230). -/
inductive Instr where
  /-- 0x00 INIT(cfg), R260. -/
  | init (cfg : InitArg)
  /-- 0x01 PUSH_PACKET(ts), R262. -/
  | pushPacket (ts : Packet 188)
  /-- 0x10 SCRAMBLE(ts), R150. -/
  | scramble (ts : Packet 188)
  /-- 0x11 RS_ENCODE(d), R170. -/
  | rsEncode (d : List Byte)
  /-- 0x12 INTERLEAVE(rs), R190. -/
  | interleave (rs : Packet 204)
  /-- 0x13 CONV_ENCODE(il), R210. -/
  | convEncode (il : List Byte)
  /-- 0x14 QPSK_MAP(cb), R230. -/
  | qpskMap (cb : List (Bool × Bool))
  /-- 0x15 RRC_SHAPE(pt), R240. -/
  | rrcShape (pt : List Sample)
  /-- 0x20 SCR_BYTE0(b), R151. -/
  | scrByte0 (b : Byte)
  /-- 0x21 SCR_BYTE(b), R153. -/
  | scrByte (b : Byte)
  /-- 0x22 SCR_NEXT(), R154. -/
  | scrNext
  /-- 0x23 RS_CLEAR(), R171. -/
  | rsClear
  /-- 0x24 RS_STEP(d), R173. -/
  | rsStep (d : Byte)
  /-- 0x25 IL_BYTE(p, b), R193. -/
  | ilByte (p : Fin 204) (b : Byte)
  /-- 0x26 CC_BIT(b), R212. -/
  | ccBit (b : Bool)
  /-- 0x27 CC_BYTE(B), R213. -/
  | ccByte (b : Byte)
  /-- 0x28 MAP_DIBIT(b₁, b₀), R231. -/
  | mapDibit (b1 b0 : Bool)
  /-- 0x29 RRC_SYMBOL(x), R244. -/
  | rrcSymbol (x : Sample)
  /-- 0x30 GF_BUILD(), R121. -/
  | gfBuild
  /-- 0x31 GF_MUL(a, b), R122. -/
  | gfMul (a b : Byte)
  /-- 0x32 RSGEN_BUILD(), R126. -/
  | rsgenBuild
  /-- 0x33 PRBS_BUILD(cfg.PRBS_LUT or the recurrence), R131. -/
  | prbsBuild (src : PrbsSource)
  /-- 0x34 RRC_TAPS_BUILD(U, N, β), R138. -/
  | rrcTapsBuild (u n : Int) (beta : Num)
  /-- 0x40 FRAME_CHECK(blk), R276. -/
  | frameCheck (blk : Packet 188)
  /-- 0x41 QUANTISE((I, Q)), R279. -/
  | quantise (x : Sample)
  /-- 0x42 QUEUE_PUSH(x), R278. -/
  | queuePush (x : Sample)
  /-- 0x43 QUEUE_POP(), R280. -/
  | queuePop
deriving DecidableEq, Repr

end Sys2Proof
end

