-- ==== Sys2Proof/WellFormed.lean ====
section
/-! DEFINITION. The restrictions the spec puts on an operation's operands beyond their shape
(30_encoding R111): the premise of PUSH_PACKET (R267) and the length RS_ENCODE is contracted for
(R178). They are premises the host must meet, not checks the CORE makes: the CORE runs PUSH_PACKET on
another first byte (R262, R267) and answers RsLengthError for another length (R293). -/

namespace Sys2Proof

open Config

/-- Every operation, each with the restriction its rule states. -/
def Instr.wf : Instr → Bool
  | .init _ => true
  | .pushPacket ts => ts[0] == 0x47#8
  | .scramble _ => true
  | .rsEncode d => d.length == 188
  | .interleave _ => true
  | .convEncode _ => true
  | .qpskMap _ => true
  | .rrcShape _ => true
  | .scrByte0 _ => true
  | .scrByte _ => true
  | .scrNext => true
  | .rsClear => true
  | .rsStep _ => true
  | .ilByte _ _ => true
  | .ccBit _ => true
  | .ccByte _ => true
  | .mapDibit _ _ => true
  | .rrcSymbol _ => true
  | .gfBuild => true
  | .gfMul _ _ => true
  | .rsgenBuild => true
  | .prbsBuild _ => true
  | .rrcTapsBuild _ _ _ => true
  | .frameCheck _ => true
  | .quantise _ => true
  | .queuePush _ => true
  | .queuePop => true

end Sys2Proof
end

