-- ==== Sys2Proof/Decode.lean ====
section
/-! DEFINITION. Requests as bytes, read (`decode`) and written (`encode`). The first byte of a request
is the operation's id of 30_encoding R100; an id that R100 does not list names no operation (R110) and
is rejected by name. The spec gives operands "no binary format" (R90), so the bytes that carry them are
this model's own (DESIGN CHOICE, log entry 6); nothing but `decode`, `encode` and `step` depends on
them. Layout, in operand order: a byte is one byte; a packet is its bytes; a bit is one byte 0 or 1; a
position is one byte 0 to 203; a natural number is in groups of seven bits, least significant first,
bit 7 set on all but the last; an integer is the natural `2z` or `-2z-1`; a number is a byte 0 to 8 that says
what it is (a rational, π, a sine, a cosine, a negation, a sum, a product, a quotient, a named real) and then its
parts, a rational's being its numerator and its denominator less one, a named real's its name; a sequence is its length and its elements; a
source of PRBS bytes is the byte 0, or the byte 1 and 1503 bytes. -/

namespace Sys2Proof

open Config

/-- Why bytes are no request. -/
inductive DecodeError where
  /-- Fewer bytes than the operation takes. -/
  | truncated
  /-- The first byte is no id of R100 (R110). -/
  | unknownOp (id : Byte)
  /-- A byte that carries a code bit is neither 0 nor 1 (R111). -/
  | badBit (b : Byte)
  /-- A position in a packet is above 203 (R193). -/
  | badPosition (b : Byte)
  /-- The byte that says where PRBS bytes come from is neither 0 nor 1, or the one that says what a number is is
  above 8. -/
  | badTag (b : Byte)
deriving DecidableEq, Repr

/-- A reader: what it read and the bytes left, or why it could not. -/
abbrev Reader (α : Type) := List Byte → Except DecodeError (α × List Byte)

/-- Read `x`, then read on with what follows from it. -/
def Reader.andThen {α β : Type} (p : Reader α) (f : α → Reader β) : Reader β := fun bs =>
  match p bs with
  | .error e => .error e
  | .ok r => f r.1 r.2

/-- Read nothing and answer `x`. -/
def Reader.done {α : Type} (x : α) : Reader α := fun bs => .ok (x, bs)

/-- Read with `p` and apply `f`. -/
def Reader.apply {α β : Type} (f : α → β) (p : Reader α) : Reader β :=
  p.andThen fun x => Reader.done (f x)

def getByte : Reader Byte
  | [] => .error .truncated
  | b :: bs => .ok (b, bs)

def getBit : Reader Bool
  | [] => .error .truncated
  | b :: bs => if b = 0#8 then .ok (false, bs) else if b = 1#8 then .ok (true, bs) else .error (.badBit b)

def getPosition : Reader (Fin 204)
  | [] => .error .truncated
  | b :: bs => if h : b.toNat < 204 then .ok (⟨b.toNat, h⟩, bs) else .error (.badPosition b)

/-- A natural number in groups of seven bits, least significant first. -/
def getNat : Reader Nat
  | [] => .error .truncated
  | b :: bs =>
    if b.toNat < 128 then .ok (b.toNat, bs)
    else match getNat bs with
      | .error e => .error e
      | .ok r => .ok (b.toNat - 128 + 128 * r.1, r.2)

/-- The integer whose natural code is `n`. -/
def intOfCode (n : Nat) : Int :=
  if n % 2 = 0 then Int.ofNat (n / 2) else Int.negSucc (n / 2)

def getInt : Reader Int := getNat.apply intOfCode

def getRat : Reader Rat := getInt.andThen fun z => getNat.apply fun d => mkRat z (d + 1)

/-- The parts of a number of the kind `tag`, each part read with `p`. -/
def getNumParts (p : Reader Num) (tag : Byte) : Reader Num :=
  match tag.toNat with
  | 0 => getRat.apply .rat
  | 1 => Reader.done .pi
  | 2 => p.apply .sinPi
  | 3 => p.apply .cosPi
  | 4 => p.apply .opp
  | 5 => p.andThen fun a => p.apply (.sum a)
  | 6 => p.andThen fun a => p.apply (.prod a)
  | 7 => p.andThen fun a => p.apply (.quot a)
  | 8 => getNat.apply .named
  | _ => fun _ => .error (.badTag tag)

/-- A number at most `depth` deep. -/
def getNumWithin : Nat → Reader Num
  | 0 => fun _ => .error .truncated
  | depth + 1 => getByte.andThen (getNumParts (getNumWithin depth))

/-- A number; it is no deeper than it has bytes. -/
def getNum : Reader Num := fun bs => getNumWithin bs.length bs

def getSample : Reader Sample :=
  getNum.andThen fun i => getNum.apply fun q => ⟨i, q⟩

/-- Exactly `n` bytes. -/
def getPacket (n : Nat) : Reader (Packet n) := fun bs =>
  if h : (bs.take n).length = n then .ok (⟨(bs.take n).toArray, by simpa using h⟩, bs.drop n)
  else .error .truncated

/-- `n` elements, each read with `p`. -/
def getMany {α : Type} (p : Reader α) : Nat → Reader (List α)
  | 0 => Reader.done []
  | n + 1 => p.andThen fun x => (getMany p n).apply fun xs => x :: xs

/-- A length and that many elements. -/
def getSeq {α : Type} (p : Reader α) : Reader (List α) := getNat.andThen (getMany p)

def getDibit : Reader (Bool × Bool) := getBit.andThen fun b1 => getBit.apply fun b0 => (b1, b0)

def getPrbs : Reader PrbsSource
  | [] => .error .truncated
  | b :: bs =>
    if b = 0#8 then .ok (.recurrence, bs)
    else if b = 1#8 then ((getPacket 1503).apply PrbsSource.table) bs
    else .error (.badTag b)

def getInitArg : Reader InitArg :=
  getInt.andThen fun sy => getInt.andThen fun sa => getInt.andThen fun n =>
    getNum.andThen fun beta => getPrbs.apply fun p => ⟨sy, sa, n, beta, p⟩

/-- The operands of the operation with id `op` (30_encoding R100), each id on its own line. -/
def decodeOperands (op : Byte) : Reader Instr :=
  match op.toNat with
  | 0x00 => getInitArg.apply .init
  | 0x01 => (getPacket 188).apply .pushPacket
  | 0x10 => (getPacket 188).apply .scramble
  | 0x11 => (getSeq getByte).apply .rsEncode
  | 0x12 => (getPacket 204).apply .interleave
  | 0x13 => (getSeq getByte).apply .convEncode
  | 0x14 => (getSeq getDibit).apply .qpskMap
  | 0x15 => (getSeq getSample).apply .rrcShape
  | 0x20 => getByte.apply .scrByte0
  | 0x21 => getByte.apply .scrByte
  | 0x22 => Reader.done .scrNext
  | 0x23 => Reader.done .rsClear
  | 0x24 => getByte.apply .rsStep
  | 0x25 => getPosition.andThen fun p => getByte.apply (.ilByte p)
  | 0x26 => getBit.apply .ccBit
  | 0x27 => getByte.apply .ccByte
  | 0x28 => getBit.andThen fun b1 => getBit.apply (.mapDibit b1)
  | 0x29 => getSample.apply .rrcSymbol
  | 0x30 => Reader.done .gfBuild
  | 0x31 => getByte.andThen fun a => getByte.apply (.gfMul a)
  | 0x32 => Reader.done .rsgenBuild
  | 0x33 => getPrbs.apply .prbsBuild
  | 0x34 => getInt.andThen fun u => getInt.andThen fun n => getNum.apply (.rrcTapsBuild u n)
  | 0x40 => (getPacket 188).apply .frameCheck
  | 0x41 => getSample.apply .quantise
  | 0x42 => getSample.apply .queuePush
  | 0x43 => Reader.done .queuePop
  | _ => fun _ => .error (.unknownOp op)

/-- The request at the head of a byte stream, and the bytes after it. Total; what is no request is
rejected by name. -/
def decode : Reader Instr
  | [] => .error .truncated
  | op :: bs => decodeOperands op bs

/-! ## The encoder -/

/-- The operation id of R100. -/
def Instr.opId : Instr → Byte
  | .init _ => 0x00
  | .pushPacket _ => 0x01
  | .scramble _ => 0x10
  | .rsEncode _ => 0x11
  | .interleave _ => 0x12
  | .convEncode _ => 0x13
  | .qpskMap _ => 0x14
  | .rrcShape _ => 0x15
  | .scrByte0 _ => 0x20
  | .scrByte _ => 0x21
  | .scrNext => 0x22
  | .rsClear => 0x23
  | .rsStep _ => 0x24
  | .ilByte _ _ => 0x25
  | .ccBit _ => 0x26
  | .ccByte _ => 0x27
  | .mapDibit _ _ => 0x28
  | .rrcSymbol _ => 0x29
  | .gfBuild => 0x30
  | .gfMul _ _ => 0x31
  | .rsgenBuild => 0x32
  | .prbsBuild _ => 0x33
  | .rrcTapsBuild _ _ _ => 0x34
  | .frameCheck _ => 0x40
  | .quantise _ => 0x41
  | .queuePush _ => 0x42
  | .queuePop => 0x43

def putBit (b : Bool) : List Byte := [if b then 1#8 else 0#8]

/-- The groups of seven bits of `n`, at most `fuel + 1` of them. -/
def putNatGroups : Nat → Nat → List Byte
  | 0, n => [BitVec.ofNat 8 n]
  | fuel + 1, n =>
    if n < 128 then [BitVec.ofNat 8 n]
    else BitVec.ofNat 8 (n % 128 + 128) :: putNatGroups fuel (n / 128)

def putNat (n : Nat) : List Byte := putNatGroups n n

/-- The natural code of an integer. -/
def codeOfInt : Int → Nat
  | .ofNat n => 2 * n
  | .negSucc n => 2 * n + 1

def putInt (z : Int) : List Byte := putNat (codeOfInt z)

def putRat (q : Rat) : List Byte := putInt q.num ++ putNat (q.den - 1)

def putNum : Num → List Byte
  | .rat q => 0#8 :: putRat q
  | .pi => [1#8]
  | .named k => 8#8 :: putNat k
  | .sinPi e => 2#8 :: putNum e
  | .cosPi e => 3#8 :: putNum e
  | .opp e => 4#8 :: putNum e
  | .sum a b => 5#8 :: (putNum a ++ putNum b)
  | .prod a b => 6#8 :: (putNum a ++ putNum b)
  | .quot a b => 7#8 :: (putNum a ++ putNum b)

def putSample (x : Sample) : List Byte := putNum x.i ++ putNum x.q

def putSeq {α : Type} (p : α → List Byte) (xs : List α) : List Byte :=
  putNat xs.length ++ xs.flatMap p

def putPrbs : PrbsSource → List Byte
  | .recurrence => [0#8]
  | .table lut => 1#8 :: lut.toList

def putInitArg (a : InitArg) : List Byte :=
  putInt a.symbolRate ++ putInt a.sampleRate ++ putInt a.taps ++ putNum a.beta ++ putPrbs a.prbs

/-- The bytes that carry the operands. -/
def Instr.operandBytes : Instr → List Byte
  | .init cfg => putInitArg cfg
  | .pushPacket ts => ts.toList
  | .scramble ts => ts.toList
  | .rsEncode d => putSeq (fun b => [b]) d
  | .interleave rs => rs.toList
  | .convEncode il => putSeq (fun b => [b]) il
  | .qpskMap cb => putSeq (fun d => putBit d.1 ++ putBit d.2) cb
  | .rrcShape pt => putSeq putSample pt
  | .scrByte0 b => [b]
  | .scrByte b => [b]
  | .scrNext => []
  | .rsClear => []
  | .rsStep d => [d]
  | .ilByte p b => [BitVec.ofNat 8 p.val, b]
  | .ccBit b => putBit b
  | .ccByte b => [b]
  | .mapDibit b1 b0 => putBit b1 ++ putBit b0
  | .rrcSymbol x => putSample x
  | .gfBuild => []
  | .gfMul a b => [a, b]
  | .rsgenBuild => []
  | .prbsBuild src => putPrbs src
  | .rrcTapsBuild u n beta => putInt u ++ putInt n ++ putNum beta
  | .frameCheck blk => blk.toList
  | .quantise x => putSample x
  | .queuePush x => putSample x
  | .queuePop => []

/-- A request as bytes: the id, then the operands. -/
def encode (i : Instr) : List Byte := i.opId :: i.operandBytes

/-! ## The opcode table's numbering -/

/-- The bytes of a table word of `nbits` bits, bit 0 the least significant bit of the first byte,
followed by operand bytes of zero: as many as the longest operation whose operands are zero takes
(INTERLEAVE, 204). -/
def tableWordBytes (nbits w : Nat) : List Byte :=
  (List.range ((nbits + 7) / 8)).map (fun k => BitVec.ofNat 8 (w >>> (8 * k))) ++ List.replicate 204 0#8

/-- The operation the decoder reads from a row of spec/opcode_table.json. -/
def decodeTableWord (nbits w : Nat) : Option Instr :=
  match decode (tableWordBytes nbits w) with
  | .error _ => none
  | .ok r => some r.1

end Sys2Proof
end

