-- ==== Sys2Proof/Machine/Reals.lean ====
section
/-! DEFINITION. Arithmetic over the reals on numbers written out as data (00_scope R13: "Real-number formulas (`π`,
`sin`, `cos`, `√`) are exact over the reals"; decision D8). The operations build the exact result; nothing is
approximated. Where a rule asks something of a number (is it 0, is it below another, which byte or which
floating-point value does it round to) the answer is always that of the real number: it is worked out from an
enclosure of the number between two rationals where that tells, and is the one the real number determines
where it does not (log entry 5). -/

namespace Sys2Proof.Machine

/-- The real number that a number written out as data stands for. -/
noncomputable def realValue : Num → ℝ
  | .rat q => (q : ℝ)
  | .pi => Real.pi
  | .named k => Config.namedReal k
  | .sinPi e => Real.sin (Real.pi * realValue e)
  | .cosPi e => Real.cos (Real.pi * realValue e)
  | .opp e => -realValue e
  | .sum a b => realValue a + realValue b
  | .prod a b => realValue a * realValue b
  | .quot a b => realValue a / realValue b

/-! ## Exact operations -/

/-- The rational number that `e` is, if it is written as one. -/
def rational? : Num → Option Rat
  | .rat q => some q
  | _ => none

/-- `-e`. -/
def exactNeg : Num → Num
  | .rat q => .rat (-q)
  | .opp e => e
  | e => .opp e

/-- `a + b`. -/
def exactAdd (a b : Num) : Num :=
  match rational? a, rational? b with
  | some p, some q => .rat (p + q)
  | some p, none => if p = 0 then b else .sum a b
  | none, some q => if q = 0 then a else .sum a b
  | none, none => .sum a b

/-- `a - b`. -/
def exactSub (a b : Num) : Num := exactAdd a (exactNeg b)

/-- `a·b`. -/
def exactMul (a b : Num) : Num :=
  match rational? a, rational? b with
  | some p, some q => .rat (p * q)
  | some p, none => if p = 0 then .rat 0 else if p = 1 then b else .prod a b
  | none, some q => if q = 0 then .rat 0 else if q = 1 then a else .prod a b
  | none, none => .prod a b

/-- `a/b`. No rule divides by 0; the quotient by a rational 0 is 0, as everywhere in Lean. -/
def exactDiv (a b : Num) : Num :=
  match rational? a, rational? b with
  | some p, some q => .rat (p / q)
  | some p, none => if p = 0 then .rat 0 else .quot a b
  | none, some q => if q = 0 then .rat 0 else if q = 1 then a else .quot a b
  | none, none => .quot a b

/-- `q` less the multiple of 2 that leaves it in `[0, 2)`: sine and cosine of `π·q` have period 2 in `q`. -/
def turn (q : Rat) : Rat := q - 2 * (q / 2).floor

/-- `sin(π·e)`, at the multiples of 1/2 the integer it is. -/
def exactSinPi (e : Num) : Num :=
  match rational? e with
  | some q =>
    if turn q = 0 ∨ turn q = 1 then .rat 0
    else if turn q = 1 / 2 then .rat 1
    else if turn q = 3 / 2 then .rat (-1)
    else .sinPi e
  | none => .sinPi e

/-- `cos(π·e)`, at the multiples of 1/2 the integer it is. -/
def exactCosPi (e : Num) : Num :=
  match rational? e with
  | some q =>
    if turn q = 1 / 2 ∨ turn q = 3 / 2 then .rat 0
    else if turn q = 0 then .rat 1
    else if turn q = 1 then .rat (-1)
    else .cosPi e
  | none => .cosPi e

/-- `1/√2 = cos(π/4)`. -/
def rootHalf : Num := .cosPi (.rat (1 / 4))

/-! ## Enclosures -/

/-- The numbers from `lo` to `hi`. -/
structure Interval where
  lo : Rat
  hi : Rat
deriving DecidableEq, Repr

/-- The greatest multiple of `2^-p` that is not above `q`. -/
def roundDown (p : Nat) (q : Rat) : Rat := mkRat (q * (2 ^ p : Nat)).floor (2 ^ p)

/-- The least multiple of `2^-p` that is not below `q`. -/
def roundUp (p : Nat) (q : Rat) : Rat := -roundDown p (-q)

/-- The enclosing interval whose ends are multiples of `2^-p`. -/
def Interval.outward (p : Nat) (a : Interval) : Interval := ⟨roundDown p a.lo, roundUp p a.hi⟩

/-- The numbers within `radius` of `c`. -/
def Interval.around (c radius : Rat) : Interval := ⟨c - radius, c + radius⟩

def Interval.neg (a : Interval) : Interval := ⟨-a.hi, -a.lo⟩

def Interval.add (a b : Interval) : Interval := ⟨a.lo + b.lo, a.hi + b.hi⟩

def Interval.mul (a b : Interval) : Interval :=
  ⟨min (min (a.lo * b.lo) (a.lo * b.hi)) (min (a.hi * b.lo) (a.hi * b.hi)),
    max (max (a.lo * b.lo) (a.lo * b.hi)) (max (a.hi * b.lo) (a.hi * b.hi))⟩

/-- The quotients; none where the divisor may be 0 and need not be. -/
def Interval.div (a b : Interval) : Option Interval :=
  if 0 < b.lo ∨ b.hi < 0 then some (a.mul ⟨1 / b.hi, 1 / b.lo⟩)
  else if b.lo = 0 ∧ b.hi = 0 then some ⟨0, 0⟩
  else none

/-- `1/m - x²/(m+2) + x⁴/(m+4) - …`, `fuel` terms: for `m = 1` the series of `arctan(x)/x`. -/
def arctanSeries (xSq : Rat) : Nat → Nat → Rat
  | 0, _ => 0
  | fuel + 1, m => 1 / m - xSq * arctanSeries xSq fuel (m + 2)

/-- The terms of the two arctangents that give `π` to `p` bits. -/
def piTerms (p : Nat) : Nat := p / 4 + 8

/-- `π` by Machin's formula, `16·arctan(1/5) - 4·arctan(1/239)`. -/
def piInterval (p : Nat) : Interval :=
  (Interval.around
    (16 / 5 * arctanSeries (1 / 25) (piTerms p) 1 - 4 / 239 * arctanSeries (1 / 57121) (piTerms p) 1)
    (20 / (5 ^ (2 * piTerms p + 1) : Nat))).outward p

/-- `1 - y²/((m+1)(m+2)) + …`, `fuel` terms, each step cut to `p` bits: `cos y` for `m = 0`, `sin(y)/y` for
`m = 1`. -/
def powerSeries (p : Nat) (ySq : Rat) : Nat → Nat → Rat
  | 0, _ => 0
  | fuel + 1, m => roundDown p (1 - ySq / ((m + 1) * (m + 2) : Nat) * powerSeries p ySq fuel (m + 2))

/-- The terms of the sine and the cosine that are taken for `p` bits. -/
def trigTerms (p : Nat) : Nat := p / 8 + 8

/-- How far `y·powerSeries` and `powerSeries` may be from the sine and the cosine of `π·t`, where `|t| ≤ 1/4` and `y`
is `pi.lo·t` cut to `p` bits: the terms left out, the cuts, and the width of `pi`. -/
def trigRadius (p : Nat) (pi : Interval) : Rat :=
  ((2 * trigTerms p + 1 : Nat) : Rat) / ((2 * trigTerms p).factorial * (2 * trigTerms p) : Nat) +
    4 / (2 ^ p : Nat) + (pi.hi - pi.lo)

/-- `sin(π·t)` for `|t| ≤ 1/4`. -/
def sinSmall (p : Nat) (pi : Interval) (t : Rat) : Interval :=
  let y := roundDown p (pi.lo * t)
  (Interval.around (y * powerSeries p (y * y) (trigTerms p) 1) (trigRadius p pi)).outward p

/-- `cos(π·t)` for `|t| ≤ 1/4`. -/
def cosSmall (p : Nat) (pi : Interval) (t : Rat) : Interval :=
  let y := roundDown p (pi.lo * t)
  (Interval.around (powerSeries p (y * y) (trigTerms p) 0) (trigRadius p pi)).outward p

/-- `sin(π·t)`, by reduction to an eighth of the period. -/
def sinAt (p : Nat) (pi : Interval) (t : Rat) : Interval :=
  let r := turn t
  if r ≤ 1 / 4 then sinSmall p pi r
  else if r ≤ 3 / 4 then cosSmall p pi (1 / 2 - r)
  else if r ≤ 5 / 4 then sinSmall p pi (1 - r)
  else if r ≤ 7 / 4 then (cosSmall p pi (3 / 2 - r)).neg
  else sinSmall p pi (r - 2)

/-- `sin(π·t)` for every `t` of an interval: at its middle, and wider by four times half its width, since the
slope is at most `π < 4`. -/
def sinOver (p : Nat) (pi t : Interval) : Interval :=
  let s := sinAt p pi ((t.lo + t.hi) / 2)
  ⟨s.lo - 2 * (t.hi - t.lo), s.hi + 2 * (t.hi - t.lo)⟩

/-- An enclosure of `e` to `p` bits, `pi` enclosing `π`. -/
def encloseTo (p : Nat) (pi : Interval) : Num → Option Interval
  | .rat q => some ⟨q, q⟩
  | .pi => some pi
  | .named _ => none
  | .sinPi e => (encloseTo p pi e).map (sinOver p pi)
  | .cosPi e => (encloseTo p pi e).map fun t => sinOver p pi ⟨t.lo + 1 / 2, t.hi + 1 / 2⟩
  | .opp e => (encloseTo p pi e).map Interval.neg
  | .sum a b =>
    match encloseTo p pi a, encloseTo p pi b with
    | some s, some t => some (s.add t)
    | _, _ => none
  | .prod a b =>
    match encloseTo p pi a, encloseTo p pi b with
    | some s, some t => some ((s.mul t).outward p)
    | _, _ => none
  | .quot a b =>
    match encloseTo p pi a, encloseTo p pi b with
    | some s, some t => (s.div t).map (Interval.outward p)
    | _, _ => none

/-- The bits of the longest rational in `e`. -/
def leafBits : Num → Nat
  | .rat q => q.num.natAbs.log2 + q.den.log2
  | .pi => 0
  | .named _ => 0
  | .sinPi e => leafBits e
  | .cosPi e => leafBits e
  | .opp e => leafBits e
  | .sum a b => max (leafBits a) (leafBits b)
  | .prod a b => max (leafBits a) (leafBits b)
  | .quot a b => max (leafBits a) (leafBits b)

/-- The bits an enclosure of `e` is worked out to: enough for operands of its own size, however small (log entry
5). -/
def precisionFor (e : Num) : Nat := 96 + 4 * leafBits e

/-- An enclosure of `e`, if the model has one: the number itself where it is rational. -/
def enclosure (e : Num) : Option Interval := encloseTo (precisionFor e) (piInterval (precisionFor e)) e

/-! ## What a number determines -/

/-- A value that meets `P`. It is defined as a fixed point, so that nothing of it is known but that it meets `P`
(its type says so), and no evaluation of it comes to an end: it stands for what a rule determines and no
program can work out, and for a value a rule constrains and leaves free otherwise. -/
def answer {α : Type} (P : α → Prop) [Nonempty {a : α // P a}] : {a : α // P a} := answer P
partial_fixpoint

/-- The answer of `r` at the real number `x`: at a rational number it is `r`'s own, at another it is the one that
`r` gives at every rational number near by. -/
def AtReal {α : Type} (r : Rat → α) (x : ℝ) (a : α) : Prop :=
  (∃ q : Rat, (q : ℝ) = x ∧ r q = a) ∨
    (¬∃ q : Rat, (q : ℝ) = x) ∧ ∃ d : ℝ, 0 < d ∧ ∀ q : Rat, |(q : ℝ) - x| < d → r q = a

/-- `a` is the answer of `r` at `x`, if `r` has one there. -/
def Determined {α : Type} (r : Rat → α) (x : ℝ) (a : α) : Prop := (∃ b, AtReal r x b) → AtReal r x a

theorem determined_exists {α : Type} [Nonempty α] (r : Rat → α) (x : ℝ) : Nonempty {a : α // Determined r x a} := by
  by_cases h : ∃ b, AtReal r x b
  · exact h.elim fun b hb => ⟨⟨b, fun _ => hb⟩⟩
  · exact (inferInstance : Nonempty α).elim fun a => ⟨⟨a, fun g => absurd g h⟩⟩

/-- The answer of `r` at the real number that `e` stands for. -/
def determined {α : Type} [Nonempty α] (r : Rat → α) (e : Num) : α :=
  (@answer α (Determined r (realValue e)) (determined_exists r (realValue e))).1

/-- What `r`, a monotone function of the rational numbers, says of `e`: its own answer where `e` is written as a
rational number; the answer at both ends of an enclosure where they agree; else the one that the real number
determines. -/
def ask {α : Type} [DecidableEq α] [Nonempty α] (r : Rat → α) (e : Num) : α :=
  match rational? e with
  | some q => r q
  | none =>
    match enclosure e with
    | some a => if r a.lo = r a.hi then r a.lo else determined r e
    | none => determined r e

/-- Below, at or above 0. -/
def signOf (q : Rat) : Ordering := if q < 0 then .lt else if q = 0 then .eq else .gt

/-- The sign of `e`. -/
def sign (e : Num) : Ordering := ask signOf e

/-- `e = 0`. -/
def isZero (e : Num) : Bool := sign e == .eq

/-- `a < b`. -/
def lessThan (a b : Num) : Bool := sign (exactSub b a) == .gt

end Sys2Proof.Machine
end

