-- ==== Sys2Proof/Machine/Flags.lean ====
section
/-! DEFINITION. The block has no status flags or condition codes (10_state R36): the conditions below
are computed and consumed inside one operation (47_pipeline R270), with `parity`, the one reduction the
CORE computes on the bits of a register (00_scope R10). -/

namespace Sys2Proof.Machine

/-- "the XOR reduction of the bits of x" (R10), on the seven bits of the encoder register. -/
def parity (x : BitVec 7) : Bool :=
  x.getLsbD 0 ^^ x.getLsbD 1 ^^ x.getLsbD 2 ^^ x.getLsbD 3 ^^ x.getLsbD 4 ^^ x.getLsbD 5 ^^ x.getLsbD 6

/-- `pkt_idx = 0`: the packet starts a superframe (R151). -/
def superframeStart (pktIdx : Fin 8) : Bool := pktIdx == 0

/-- `feedback ≠ 0` (R173). -/
def feedbackNonzero (feedback : Byte) : Bool := feedback != 0#8

/-- `k·U + j ≤ N − 1` for the tap index `idx` (R244); with `N ≥ 1` that is `idx < N`. -/
def tapInRange (n idx : Nat) : Bool := decide (idx < n)

/-- `blk[0] = 0x47` (R276). -/
def syncOk (b : Byte) : Bool := b == 0x47#8

/-- `z = |4β·x_i|` is within 1e-9 of 1, the comparison strict (R138 case 2, R139): "a model over exact reals applies
the same test". -/
def nearSingular (z : Num) : Bool :=
  lessThan (.rat (1 - 1 / 1000000000)) z && lessThan z (.rat (1 + 1 / 1000000000))

end Sys2Proof.Machine
end

