-- ==== Sys2Proof/Machine/Operands.lean ====
section
/-! DEFINITION. Operand assembly (30_encoding R101 to R104): a byte to its bits, code bits to symbol
indices, a symbol index to its two signs, a value to the signed byte of the output. -/

namespace Sys2Proof.Machine

/-- The bits of a byte in the order they are taken, `B[7], …, B[0]` (R62, R101). -/
def byteBits (b : Byte) : List Bool :=
  [b.getLsbD 7, b.getLsbD 6, b.getLsbD 5, b.getLsbD 4, b.getLsbD 3, b.getLsbD 2, b.getLsbD 1, b.getLsbD 0]

/-- Code bits taken in pairs `(b₁, b₀)`, `b₁` first (R96, R230). -/
def dibits : List Bool → List (Bool × Bool)
  | b1 :: b0 :: rest => (b1, b0) :: dibits rest
  | [_] => []
  | [] => []

/-- `s = (b₁ << 1) | b₀` (R96, R102). -/
def symbolIndex (b1 b0 : Bool) : BitVec 2 :=
  ((BitVec.ofBool b1).setWidth 2 <<< 1) ||| (BitVec.ofBool b0).setWidth 2

/-- Pass a list through `f` in order, threading the state: the results in order and the last state.
This is the ascending loop `for i = a..b` of R12. -/
def thread {σ α β : Type} (f : σ → α → β × σ) (s : σ) : List α → List β × σ
  | [] => ([], s)
  | x :: xs => ((f s x).1 :: (thread f (f s x).2 xs).1, (thread f (f s x).2 xs).2)

/-- One element of a table at an index (20_memory R61). Every index an operation computes is inside its table,
so that the element `default` stands for is never read. -/
def tableRead {α : Type} [Inhabited α] {n : Nat} (v : Vector α n) (idx : Nat) : α := v.toList.getD idx default

/-- `2^e`. -/
def powerOfTwo : Int → Rat
  | .ofNat n => ((2 ^ n : Nat) : Rat)
  | .negSucc n => mkRat 1 (2 ^ (n + 1))

/-- `⌊log₂ x⌋` of a positive number. -/
def floorLogTwo (x : Rat) : Int :=
  let e : Int := (x.num.natAbs.log2 : Int) - (x.den.log2 : Int)
  if x < powerOfTwo e then e - 1 else e

/-- Round to nearest; a tie goes to the even neighbour if `even`, else away from zero. -/
def roundNearest (even : Bool) (v : Rat) : Int :=
  let lo := v.floor
  let d := v - lo
  if d < 1 / 2 then lo
  else if 1 / 2 < d then lo + 1
  else if even then (if lo % 2 = 0 then lo else lo + 1)
  else (if 0 ≤ v then lo + 1 else lo)

/-! ## The numeric type -/

/-- `x` rounded to `p` significant binary digits, to nearest with ties to even, the exponent not below `low`
(PRESUMED, log entry 1: the source names no rounding mode, 60_exceptions R299). -/
def roundBinary (p : Nat) (low : Int) (x : Rat) : Rat :=
  if x = 0 then 0
  else
    let unit := powerOfTwo (max (floorLogTwo |x|) low - ((p : Int) - 1))
    roundNearest true (x / unit) * unit

/-- `r`, or the free value where `r`, the rounding of `x`, lies past the largest finite value `2^top` bounds. -/
def inRange (f : Config.NumType) (top : Int) (x r : Rat) : Rat :=
  if |r| < powerOfTwo top then r else Config.pastRange f x

/-- A rational number rounded into 32-bit floating point. -/
def binary32Of (x : Rat) : Rat := inRange .binary32 128 x (roundBinary 24 (-126) x)

/-- A rational number rounded into 64-bit floating point. -/
def binary64Of (x : Rat) : Rat := inRange .binary64 1024 x (roundBinary 53 (-1022) x)

/-- An exact result brought into the numeric type of the instance (00_scope R8, R13; log entry 1). Over the reals it
stays as it is. -/
def NumType.round : Config.NumType → Num → Num
  | .exact, e => e
  | .binary32, e => .rat (ask binary32Of e)
  | .binary64, e => .rat (ask binary64Of e)
  | .other k, e => Config.otherRound k e

/-! ## The output byte -/

/-- Saturation to `[-128, 127]` (R104, R279). -/
def saturate (v : Rat) : Rat := if v > 127 then 127 else if v < -128 then -128 else v

/-- `quant_round` (R8, R279). -/
def quantRound : Config.Rounding → Rat → Int
  | .towardZero, v => if 0 ≤ v then v.floor else v.ceil
  | .nearestEven, v => roundNearest true v
  | .nearestAway, v => roundNearest false v
  | .down, v => v.floor
  | .up, v => v.ceil

/-- "saturates to [-128, 127], and casts" (R279). -/
def castRat (r : Config.Rounding) (v : Rat) : Int := quantRound r (saturate v)

/-- The cast of any real number (R104, R279). -/
def castNum (r : Config.Rounding) (v : Num) : Int := ask (castRat r) v

/-- One component of QUANTISE (R279): scale in `Num`, saturate, then cast to the eight-bit two's complement
pattern. -/
def quantByte (f : Config.NumType) (gain : Num) (rounding : Config.Rounding) (x : Num) : Byte :=
  BitVec.ofInt 8 (castNum rounding (NumType.round f (exactMul x gain)))

end Sys2Proof.Machine
end

