-- ==== Sys2Proof/Machine/Tables.lean ====
section
/-! DEFINITION. The table builders of 40_init_tables: GF_BUILD (R121), GF_MUL (R122), RSGEN_BUILD (R126)
and PRBS_BUILD (R131 to R134), as functions of their operands (47_pipeline R265). Every table is derived
from its rule; no printed value is copied (decision D25). -/

namespace Sys2Proof.Machine

/-- A list of known length as a vector. -/
def vectorOfList {α : Type} (n : Nat) (l : List α) (h : l.length = n) : Vector α n :=
  ⟨l.toArray, by simpa using h⟩

/-! ## The field GF(2^8) -/

/-- Multiplication by `α`: shift the nine-bit working value left, and reduce by 0x11D when bit 8 is set
(R121). -/
def timesAlpha (v : Byte) : Byte :=
  let w : BitVec 9 := v.setWidth 9 <<< 1
  (if w.getLsbD 8 then w ^^^ 0x11D#9 else w).setWidth 8

/-- `v, v·α, v·α², …`, `n` of them: the working value of R121's first loop. -/
def alphaPowers : Nat → Byte → List Byte
  | 0, _ => []
  | n + 1, v => v :: alphaPowers n (timesAlpha v)

@[simp] theorem alphaPowers_length (n : Nat) (v : Byte) : (alphaPowers n v).length = n := by
  induction n generalizing v with
  | zero => rfl
  | succ n ih => simp [alphaPowers, ih]

/-- The 255 entries R121's first loop writes. -/
def expCycle : List Byte := alphaPowers 255 0x01#8

/-- `gf_exp[0..510]` (R30, R121): the cycle, and `gf_exp[i] = gf_exp[i − 255]` from 255 on. -/
def gfExpTable : Vector Byte 511 :=
  vectorOfList 511 (expCycle ++ expCycle ++ expCycle.take 1) (by simp [expCycle])

/-- "the integer e such that α^e = x" (R31). -/
def discreteLog (x : Byte) : Fin 255 := Fin.ofNat 255 (expCycle.idxOf x)

/-- `gf_log[1..255]` (R31, R121): entry `k` of the vector is `gf_log[k + 1]`; there is no entry for 0. -/
def gfLogTable : Vector (Fin 255) 255 :=
  vectorOfList 255 ((List.range 255).map fun k => discreteLog (BitVec.ofNat 8 (k + 1))) (by simp)

/-- MemRead(gf_log, x), on its domain 1..255 only (R31, R123). -/
def logRead (log : Vector (Fin 255) 255) (x : Byte) (_ : x ≠ 0#8) : Fin 255 := tableRead log (x.toNat - 1)

/-- GF_MUL (R122): zero if either operand is zero, without a table read; else `gf_exp` at the sum of
the logs, an integer in 0..508. -/
def gfMulWith (exp : Vector Byte 511) (log : Vector (Fin 255) 255) (a b : Byte) : Byte :=
  if h : a = 0#8 ∨ b = 0#8 then 0x00#8
  else tableRead exp ((logRead log a (fun e => h (Or.inl e))).val + (logRead log b (fun e => h (Or.inr e))).val)

/-- The table-free product of R125: the carry-less product reduced modulo 0x11D, from bit 7 of `b`
down. -/
def clmulMod (a b : Byte) : Byte :=
  (byteBits b).foldl (fun r bit => if bit then timesAlpha r ^^^ a else timesAlpha r) 0x00#8

/-! ## The RS generator polynomial -/

/-- `poly·x + poly·a`, coefficients highest power first (R126, the inner loop). -/
def timesRoot (exp : Vector Byte 511) (log : Vector (Fin 255) 255) (poly : List Byte) (a : Byte) : List Byte :=
  List.zipWith (· ^^^ ·) (poly ++ [0x00#8]) (0x00#8 :: poly.map fun c => gfMulWith exp log c a)

theorem timesRoot_length (exp : Vector Byte 511) (log : Vector (Fin 255) 255) (poly : List Byte) (a : Byte) :
    (timesRoot exp log poly a).length = poly.length + 1 := by
  simp [timesRoot]

theorem foldl_timesRoot_length (exp : Vector Byte 511) (log : Vector (Fin 255) 255) (roots poly : List Byte) :
    (roots.foldl (timesRoot exp log) poly).length = poly.length + roots.length := by
  induction roots generalizing poly with
  | nil => rfl
  | cons a roots ih => simp [ih, timesRoot_length]; omega

/-- The roots `α^0, …, α^15`, MemRead(gf_exp, i) for i = 0..15 (R126, R180). -/
def genRoots (exp : Vector Byte 511) : List Byte := exp.toList.take 16

/-- RSGEN_BUILD (R126): `g(x) = ∏ (x − α^i)`, `g[0..16]`, highest power first. -/
def genTable (exp : Vector Byte 511) (log : Vector (Fin 255) 255) : Vector Byte 17 :=
  vectorOfList 17 ((genRoots exp).foldl (timesRoot exp log) [0x01#8])
    (by rw [foldl_timesRoot_length]; simp [genRoots])

/-! ## The PRBS table -/

/-- The register of R132 as a 15-bit value, stage 1 in bit 14 and stage 15 in bit 0, initially 0x4A80. -/
def prbsInitial : BitVec 15 := 0x4A80#15

/-- The feedback, stage 14 XOR stage 15 (R132). -/
def prbsFeedback (r : BitVec 15) : Bool := r.getLsbD 1 ^^ r.getLsbD 0

/-- One clock (R132, R133): every stage takes the one before it, stage 1 the feedback. -/
def prbsClock (r : BitVec 15) : BitVec 15 := (r >>> 1) ||| ((BitVec.ofBool (prbsFeedback r)).setWidth 15 <<< 14)

/-- `n` output bits packed into the low end of `acc`, the earliest in the highest place (R64), and the
register after them. `out` is the bit a clock puts out. -/
def prbsBits (out : BitVec 15 → Bool) : Nat → Byte → BitVec 15 → Byte × BitVec 15
  | 0, acc, r => (acc, r)
  | n + 1, acc, r => prbsBits out n ((acc <<< 1) ||| (BitVec.ofBool (out r)).setWidth 8) (prbsClock r)

/-- `n` table bytes, eight clocks each. -/
def prbsBytes (out : BitVec 15 → Bool) : Nat → BitVec 15 → List Byte
  | 0, _ => []
  | n + 1, r => (prbsBits out 8 0#8 r).1 :: prbsBytes out n (prbsBits out 8 0#8 r).2

@[simp] theorem prbsBytes_length (out : BitVec 15 → Bool) (n : Nat) (r : BitVec 15) :
    (prbsBytes out n r).length = n := by
  induction n generalizing r with
  | zero => rfl
  | succ n ih => simp [prbsBytes, ih]

/-- Table A, the default (R133, decision D4): the output bit is the feedback. -/
def prbsTableA : Vector Byte 1503 :=
  vectorOfList 1503 (prbsBytes prbsFeedback 1503 prbsInitial) (by simp)

/-- Table B, the literal reading (R134), not the default: the output bit is stage 15. -/
def prbsTableB : Vector Byte 1503 :=
  vectorOfList 1503 (prbsBytes (fun r => r.getLsbD 0) 1503 prbsInitial) (by simp)

/-- PRBS_BUILD (R131): the supplied bytes, or table A from the recurrence. -/
def prbsTable : Config.PrbsSource → Vector Byte 1503
  | .recurrence => prbsTableA
  | .table lut => lut

end Sys2Proof.Machine
end

