-- ==== Sys2Proof/Machine/Taps.lean ====
section
/-! DEFINITION. RRC_TAPS_BUILD (40_init_tables R138 to R144), the constellation amplitude (45_qpsk_mapper R233) and the
arithmetic of the instance's numeric type. "The formulas of rules R138 and R141 are over the reals" (R144), and so are
they here: over the reals the stored taps are exactly those numbers; in another numeric type they are values of
that type, free within the limits R144 sets (log entry 3). -/

namespace Sys2Proof.Machine

/-! ## The real taps -/

/-- `x_i = (i − (N−1)/2) / U` (R138). -/
def tapTime (u n i : Nat) : Rat := ((i : Rat) - ((n - 1) / 2 : Nat)) / u

/-- `T·h` at `x = 0` (R138, case 1): `1 − β + 4β/π`. -/
def centreTap (beta : Num) : Num := exactAdd (exactSub (.rat 1) beta) (exactDiv (exactMul (.rat 4) beta) .pi)

/-- `T·h` at the removable singularity (R138, case 2):
`(β/√2)·[(1 + 2/π)·sin(π/(4β)) + (1 − 2/π)·cos(π/(4β))]`. -/
def singularTap (beta : Num) : Num :=
  let angle := exactDiv (.rat 1) (exactMul (.rat 4) beta)
  exactMul (exactMul beta rootHalf)
    (exactAdd (exactMul (exactAdd (.rat 1) (exactDiv (.rat 2) .pi)) (exactSinPi angle))
      (exactMul (exactSub (.rat 1) (exactDiv (.rat 2) .pi)) (exactCosPi angle)))

/-- `T·h` elsewhere (R138, case 3):
`[sin(π·x·(1−β)) + 4β·x·cos(π·x·(1+β))] / [π·x·(1 − (4β·x)²)]`. -/
def generalTap (beta : Num) (x : Rat) : Num :=
  let z := exactMul (.rat (4 * x)) beta
  exactDiv
    (exactAdd (exactSinPi (exactMul (.rat x) (exactSub (.rat 1) beta)))
      (exactMul z (exactCosPi (exactMul (.rat x) (exactAdd (.rat 1) beta)))))
    (exactMul (exactMul .pi (.rat x)) (exactSub (.rat 1) (exactMul z z)))

/-- `T·h_i`, the three cases of R138 in order. The factor `1/T` cancels in the normalisation (R9, R141). -/
def rawTapFormula (beta : Num) (x : Rat) : Num :=
  if x = 0 then centreTap beta
  else if nearSingular (exactMul (.rat (4 * |x|)) beta) then singularTap beta
  else generalTap beta x

/-- The raw taps `h_0, …, h_{N−1}`. -/
def rawTaps (u n : Nat) (beta : Num) : List Num := (List.range n).map fun i => rawTapFormula beta (tapTime u n i)

/-- The sum of the entries whose index is a multiple of `u`, the first entry having index `i`. -/
def phaseZeroSumFrom (u : Nat) : Nat → List Num → Num
  | _, [] => .rat 0
  | i, h :: hs => if i % u = 0 then exactAdd h (phaseZeroSumFrom u (i + 1) hs) else phaseZeroSumFrom u (i + 1) hs

/-- The sum over the polyphase-0 positions, the indices that are multiples of `U` (R141). -/
def polyphaseZeroSum (u : Nat) (h : List Num) : Num := phaseZeroSumFrom u 0 h

/-- `S` (R141). -/
def tapSum (u n : Nat) (beta : Num) : Num := polyphaseZeroSum u (rawTaps u n beta)

/-- `h / S`; a tap that is all of `S` is 1. -/
def normalisedTap (s h : Num) : Num := if h = s then .rat 1 else exactDiv h s

/-- The normalised taps over the reals, `h_i / S` (R141). -/
def exactTaps (u n : Nat) (beta : Num) : List Num := (rawTaps u n beta).map (normalisedTap (tapSum u n beta))

/-! ## The stored taps -/

/-- How near a stored tap, or the stored amplitude, is to its real value in a numeric type other than the reals:
"the precision the model states" (R144). -/
def storedPrecision : Rat := 1 / 1000000

/-- The real tap `h_i/S` (R141). -/
noncomputable def realTapValue (u n : Nat) (beta : Num) (i : Nat) : ℝ :=
  realValue ((rawTaps u n beta).getD i (.rat 0)) / realValue (tapSum u n beta)

/-- The polyphase-0 sum of a table of taps (R141), a real number. -/
noncomputable def phaseZeroTotal (u : Nat) (taps : List Num) : ℝ :=
  ∑ m ∈ Finset.range taps.length, if m % u = 0 then realValue (taps.getD m (.rat 0)) else 0

/-- `t` is what the numeric type makes of some rational number within the stated precision of `x`: "some `Num` value
near the real one" (R144). -/
def ValueNear (f : Config.NumType) (x : ℝ) (t : Num) : Prop :=
  ∃ q : Rat, |(q : ℝ) - x| ≤ (storedPrecision : ℝ) ∧ t = NumType.round f (.rat q)

/-- A table of `N` values of the numeric type near the real taps. -/
def NearTable (f : Config.NumType) (u n : Nat) (beta : Num) (taps : List Num) : Prop :=
  taps.length = n ∧ ∀ i, i < n → ValueNear f (realTapValue u n beta i) (taps.getD i (.rat 0))

/-- Such a table "constrained … by `| Σ { taps[m] : m mod U = 0 } − 1 | ≤ 1e-9` and by closeness to the real formula
to the precision the model states" (R144). -/
def Conforming (f : Config.NumType) (u n : Nat) (beta : Num) (taps : List Num) : Prop :=
  NearTable f u n beta taps ∧ |phaseZeroTotal u taps - 1| ≤ 1 / 1000000000 ∧
    ∀ i, i < n → |realValue (taps.getD i (.rat 0)) - realTapValue u n beta i| ≤ (storedPrecision : ℝ)

/-- What is known of a stored table: its entries are values of the type near the real taps, and it meets R144's
constraints if any table of the type does. -/
def Storable (f : Config.NumType) (u n : Nat) (beta : Num) (taps : List Num) : Prop :=
  NearTable f u n beta taps ∧ ((∃ t, Conforming f u n beta t) → Conforming f u n beta taps)

theorem valueNear_exists (f : Config.NumType) (x : ℝ) : ∃ t, ValueNear f x t := by
  obtain ⟨q, h1, h2⟩ := exists_rat_btwn (show x < x + (storedPrecision : ℝ) by norm_num [storedPrecision])
  exact ⟨_, q, by rw [abs_of_pos (by linarith)]; linarith, rfl⟩

theorem storable_exists (f : Config.NumType) (u n : Nat) (beta : Num) :
    Nonempty {taps : List Num // Storable f u n beta taps} := by
  by_cases h : ∃ t, Conforming f u n beta t
  · exact h.elim fun t ht => ⟨⟨t, ht.1, fun _ => ht⟩⟩
  · choose t ht using fun i : Nat => valueNear_exists f (realTapValue u n beta i)
    refine ⟨⟨(List.range n).map t, ⟨by simp, fun i hi => ?_⟩, fun g => absurd g h⟩⟩
    simpa [List.getD_eq_getElem?_getD, hi] using ht i

/-- FREE VALUE (log entry 3): the table stored in a numeric type other than the reals. R144: "the source does not say in
which precision the taps are computed or how they are rounded, so a model takes `taps` as a configuration
table". -/
def storedTaps (f : Config.NumType) (u n : Nat) (beta : Num) : List Num :=
  (@answer (List Num) (Storable f u n beta) (storable_exists f u n beta)).1

/-- The table an instance stores (R144): "When `Num` is the reals … `taps` is exactly the value above". -/
def tapTable : Config.NumType → Nat → Nat → Num → List Num
  | .exact, u, n, beta => exactTaps u n beta
  | .binary32, u, n, beta => storedTaps .binary32 u n beta
  | .binary64, u, n, beta => storedTaps .binary64 u n beta
  | .other k, u, n, beta => storedTaps (.other k) u n beta

/-- RRC_TAPS_BUILD on checked operands: the sub-code 5 of ConfigError when the normalisation sum is 0
(R143, R292), else the table. -/
def buildTaps (f : Config.NumType) (u n : Nat) (beta : Num) : Except Nat (List Num) :=
  if isZero (tapSum u n beta) then .error 5 else .ok (tapTable f u n beta)

/-- `β < 0` or `β > 1` (R143, R292). -/
def betaOutside (beta : Num) : Bool := lessThan beta (.rat 0) || lessThan (.rat 1) beta

/-- Conditions 3 and 4 of R292, in order. -/
def filterCheck (n : Int) (beta : Num) : Option Nat :=
  if n < 1 ∨ n % 2 = 0 then some 3 else if betaOutside beta then some 4 else none

/-- RRC_TAPS_BUILD with its checks (R143). The source's first condition, `U < 1`, is reported as sub-code 2,
"non-integer U" (DEDUCED, log entry 10). -/
def rrcTapsBuild (f : Config.NumType) (u n : Int) (beta : Num) : Except Nat (List Num) :=
  if u < 1 then .error 2
  else match filterCheck n beta with
    | some c => .error c
    | none => buildTaps f u.toNat n.toNat beta

/-! ## The numeric type's arithmetic -/

theorem ampNear_exists (f : Config.NumType) : Nonempty {t : Num // ValueNear f (realValue rootHalf) t} :=
  (valueNear_exists f (realValue rootHalf)).elim fun t ht => ⟨⟨t, ht⟩⟩

/-- FREE VALUE (log entry 4): the amplitude of a numeric type other than the reals, a value of the type near `1/√2`.
R233: "the source does not say how the constant is rounded; the model takes `AMP` as a configuration constant of
type `Num`". -/
def storedAmp (f : Config.NumType) : Num :=
  (@answer Num (ValueNear f (realValue rootHalf)) (ampNear_exists f)).1

/-- `AMP` (R97, R233), "over the reals exactly 1/√2" (D9). -/
def ampIn : Config.NumType → Num
  | .exact => rootHalf
  | .binary32 => storedAmp .binary32
  | .binary64 => storedAmp .binary64
  | .other k => storedAmp (.other k)

/-- The arithmetic of the instance's numeric type (00_scope R8, R13): the exact result, brought into the type. -/
def NumType.arith (f : Config.NumType) : Arith Num where
  zero := .rat 0
  add a b := NumType.round f (exactAdd a b)
  mul a b := NumType.round f (exactMul a b)
  neg := exactNeg
  amp := ampIn f

end Sys2Proof.Machine
end

