-- ==== Sys2Proof/Machine/Encoder.lean ====
section
/-! DEFINITION. The state of the CORE, "the encoder value" (10_state R20), element by element, and its
value when INIT has succeeded (R43). The bounds the spec gives an element are in its type (R42), so that
no index an operation computes can leave its space (20_memory R61). -/

namespace Sys2Proof.Machine

/-- The status register `mode` (R38). -/
inductive Mode where
  /-- Before any successful INIT, code 0. -/
  | uninit
  /-- INIT succeeded, code 1. -/
  | run
  /-- The last INIT raised ConfigError, code 2. -/
  | failed
deriving DecidableEq, Repr, Inhabited

/-- The configuration record `cfg` (R37). -/
structure Cfg where
  symbolRate : Int
  sampleRate : Int
  /-- `cfg.U`, the upsampling factor. -/
  u : Nat
  /-- `cfg.N`, the tap count. -/
  n : Nat
  beta : Num
  prbsLut : Vector Byte 1503
deriving DecidableEq, Repr, Inhabited

/-- One branch's delay line: `fifo[i]` (R26), 17·i bytes, and its cursor `cur[i]` (R27). -/
structure Branch (len : Nat) where
  cells : Vector Byte len
  cur : Fin len
deriving DecidableEq, Repr

/-- The eleven delay lines (R26, R27, R191). Branch 0 has no storage. -/
structure Fifos where
  b1 : Branch 17
  b2 : Branch 34
  b3 : Branch 51
  b4 : Branch 68
  b5 : Branch 85
  b6 : Branch 102
  b7 : Branch 119
  b8 : Branch 136
  b9 : Branch 153
  b10 : Branch 170
  b11 : Branch 187
deriving DecidableEq, Repr

/-- Every slot 0x00, the cursor 0 (R43). -/
def Branch.zero (len : Nat) [NeZero len] : Branch len := ⟨Vector.replicate len 0x00#8, 0⟩

/-- The delay lines after INIT (R26, R27, R43). -/
def Fifos.zero : Fifos where
  b1 := Branch.zero 17
  b2 := Branch.zero 34
  b3 := Branch.zero 51
  b4 := Branch.zero 68
  b5 := Branch.zero 85
  b6 := Branch.zero 102
  b7 := Branch.zero 119
  b8 := Branch.zero 136
  b9 := Branch.zero 153
  b10 := Branch.zero 170
  b11 := Branch.zero 187

/-- The CORE state (R20). -/
structure Encoder where
  /-- `mode`, R38. -/
  mode : Mode
  /-- `cfg`, R37. -/
  cfg : Cfg
  /-- `pkt_idx`, R22: 3 bits, 0..7. -/
  pktIdx : Fin 8
  /-- `prbs_pos`, R23: 11 bits, 0..1502. -/
  prbsPos : Fin 1503
  /-- `rem[0..15]`, R25. -/
  rem : Vector Byte 16
  /-- `fifo[1..11]` and `cur[1..11]`, R26, R27. -/
  fifo : Fifos
  /-- `cc_state`, R28: 7 bits, bit 0 the newest. -/
  ccState : BitVec 7
  /-- `hist[0..H−1]`, R29, newest first. -/
  hist : List Sample
  /-- `gf_exp[0..510]`, R30. -/
  gfExp : Vector Byte 511
  /-- `gf_log[1..255]`, R31: entry `k` is `gf_log[k + 1]`. -/
  gfLog : Vector (Fin 255) 255
  /-- `g[0..16]`, R32, highest power first. -/
  g : Vector Byte 17
  /-- `PRBS_LUT[0..1502]`, R33. -/
  prbsLut : Vector Byte 1503
  /-- `taps[0..N−1]`, R34. -/
  taps : List Num
  /-- `sync_loss_count`, R39. -/
  syncLossCount : Nat
deriving DecidableEq, Repr

/-- `H = ⌈N/U⌉` (R29, decision D27). -/
def histLength (n u : Nat) : Nat := (n + u - 1) / u

/-- The default operand of INIT (00_scope R8, 10_state R37). -/
def defaultInit : Config.InitArg where
  symbolRate := 1000000
  sampleRate := 2000000
  taps := 41
  beta := .rat (35 / 100)
  prbs := .recurrence

/-- The configuration record INIT stores for a checked operand (R260): `U` is the ratio of the rates. -/
def cfgOf (a : Config.InitArg) : Cfg where
  symbolRate := a.symbolRate
  sampleRate := a.sampleRate
  u := (a.sampleRate / a.symbolRate).toNat
  n := a.taps.toNat
  beta := a.beta
  prbsLut := prbsTable a.prbs

/-- The CORE state when INIT has succeeded (R43, R260): the tables built from `c`, the taps
as values of the numeric type `f`, the stream state zeroed, `mode` RUN. -/
def Encoder.initial (f : Config.NumType) (c : Cfg) : Encoder where
  mode := .run
  cfg := c
  pktIdx := 0
  prbsPos := 0
  rem := Vector.replicate 16 0x00#8
  fifo := Fifos.zero
  ccState := 0
  hist := List.replicate (histLength c.n c.u) Sample.zero
  gfExp := gfExpTable
  gfLog := gfLogTable
  g := genTable gfExpTable gfLogTable
  prbsLut := c.prbsLut
  taps := tapTable f c.u c.n c.beta
  syncLossCount := 0

/-- A CORE whose elements other than `mode` are unspecified (R43, R292, R331), the `k`-th such. -/
def Encoder.unspecified (k : Nat) (m : Mode) : Encoder :=
  { @Config.unspecified Encoder ⟨Encoder.initial .exact (cfgOf defaultInit)⟩ k with mode := m }

end Sys2Proof.Machine
end

