-- ==== Sys2Proof/Machine/State.lean ====
section
/-! DEFINITION. The machine's state: the CORE (Machine/Encoder.lean, 10_state R20), the state outside the
CORE whose behaviour the spec fixes (R40), and the port, the model's own: where requests arrive and where
an operation's result and outcome are left. Beside it the reasons a step can stop, and the state after
reset. -/

namespace Sys2Proof.Machine

/-- The outcome of the last operation: an exception of 60_exceptions R290 with what it records, or none. -/
inductive Exc where
  /-- Code 0: the operation completed. -/
  | none
  /-- Code 1, with the sub-code 1..5 of R292. -/
  | configError (subCode : Nat)
  /-- Code 2, with the length given (R293). -/
  | rsLengthError (length : Nat)
  /-- Code 3, with the offending byte (R291). -/
  | syncLoss (b : Byte)
  /-- Code 4 (R294). -/
  | inputEOF
  /-- Code 5 (R295). -/
  | inputReadError
  /-- Code 6 (R296). -/
  | deviceError
  /-- Code 7 (R297). -/
  | queueUnderflow
deriving DecidableEq, Repr

/-- What an operation returns, its `emit`s in order (R12, R100). -/
inductive Result where
  /-- The operation returns nothing. -/
  | none
  | byte (b : Byte)
  | bytes (l : List Byte)
  | codeBits (l : List Bool)
  | dibit (o1 o2 : Bool)
  | point (x : Sample)
  | points (l : List Sample)
  | samples (l : List Sample)
  /-- GF_BUILD's two tables. -/
  | fieldTables (exp : Vector Byte 511) (log : Vector (Fin 255) 255)
  | generator (g : Vector Byte 17)
  | prbs (lut : Vector Byte 1503)
  | taps (l : List Num)
  /-- FRAME_CHECK accepts the block. -/
  | accept
  /-- QUANTISE's two bytes, I first (R66). -/
  | quantised (bI bQ : Byte)
  /-- QUEUE_POP's sample. -/
  | sample (x : Sample)
  /-- QUEUE_POP on a closed, empty queue: END (R280, R281). -/
  | endOfStream
  /-- QUEUE_PUSH on a full queue: the push has not happened, the producer waits (R278, decision D32). -/
  | waiting
  /-- The consumer saw the cancellation token and stopped the transfer (R281). -/
  | sentinel
deriving DecidableEq, Repr

/-- The two tasks of the source's system (R261, R313). -/
inductive Task where
  /-- The TS reader, the CORE and QUEUE_PUSH; in this model also the host's own thread of requests. -/
  | producer
  /-- The radio callback: QUEUE_POP and QUANTISE only (R285, R345). -/
  | consumer
deriving DecidableEq, Repr

/-- What the collaborators outside the hardware can report (R5, R281, R294 to R296). -/
inductive HostEvent where
  /-- The TS source returned end-of-stream (R294). -/
  | inputEOF
  /-- The TS source returned an unrecoverable read error (R295). -/
  | inputReadError
  /-- The SDR driver reported an error (R296). -/
  | deviceError
  /-- The external shut-down signal (R283). -/
  | shutdown
deriving DecidableEq, Repr

/-- Who moves in a step: one of the two tasks, or a collaborator with a report (log entry 7). -/
inductive Turn where
  | task (t : Task)
  | report (ev : HostEvent)
deriving DecidableEq, Repr

/-- Where a sample comes from that the host pushes (log entry 18). -/
inductive Origin where
  /-- Not from PUSH_PACKET: a sample of the shaper's own operations, or any other. -/
  | own
  /-- The sample of PUSH_PACKET at place `k`, those of every packet counted from 0. -/
  | packet (k : Nat)
deriving DecidableEq, Repr

/-- State outside the CORE (R40), with the parameters of the boundary operations (R8). -/
structure Boundary where
  /-- `QUEUE_CAP` (R8, R278). -/
  cap : Nat
  /-- `gain` (R8, R279). -/
  gain : Num
  /-- `quant_round` (R8, R279). -/
  rounding : Config.Rounding
  /-- The sample queue, oldest first (R40, R278). -/
  queue : List Sample
  /-- The queue is closed (R40, R281). -/
  closed : Bool
  /-- `last_sample` (R40, R280). -/
  lastSample : Sample
  /-- `underflow_count` (R40, R311). -/
  underflowCount : Nat
  /-- The cancellation token (R40, R281). -/
  token : Bool
  /-- The producer waits for room in the queue (R278). -/
  held : Bool
  /-- The producer has ended (R281, R294, R295). -/
  producerEnded : Bool
  /-- The consumer has stopped the transfer (R281). -/
  consumerStopped : Bool
deriving DecidableEq, Repr

/-- The model's own fields (log entries 7, 8, 9, 18): how operations reach the machine, what they answer,
and the host's duties that are open. -/
structure Port where
  /-- The bytes of the requests the producer side has still to make, in order. -/
  producer : List Byte
  /-- The bytes of the requests the consumer has still to make, in order. -/
  consumer : List Byte
  /-- Whose turn it is, step by step; where it is empty the producer goes first. -/
  schedule : List Turn
  /-- What the last operation returned. -/
  result : Result
  /-- The outcome of the last operation. -/
  outcome : Exc
  /-- How many unspecified states have been entered: the index of the next free one. -/
  fresh : Nat
  /-- Where the samples of the pushes the producer has still to make come from, in order: the host's word, an input (log
  entry 18). A push with no entry is what the host owes. -/
  origins : List Origin
  /-- The samples PUSH_PACKET has returned and the host has not pushed yet, in order: what the host owes the
  queue (R285; log entry 18). -/
  owed : List Sample
  /-- How many samples of PUSH_PACKET the host has pushed: the place of the first it owes among all of them (log entry
  18). -/
  pushed : Nat
  /-- The blocks FRAME_CHECK has dropped since INIT, the latest first: what the host must not pass to the CORE (R285;
  log entry 18). -/
  dropped : List (Packet 188)
deriving DecidableEq, Repr

/-- The whole machine. -/
structure State where
  /-- `Num`, the numeric type of the instance: a parameter, which no operation writes (R8; log entry 1). -/
  num : Config.NumType
  enc : Encoder
  bnd : Boundary
  port : Port
deriving DecidableEq, Repr

/-- Reasons a step stops with a fault. There is none: every exception of the spec (R290) is taken by a
next state that records it, and no index an operation computes leaves its space (20_memory R61). -/
inductive Fault where
deriving DecidableEq, Repr

/-- Reasons a step has no next state. -/
inductive Refusal where
  /-- Raised by `exec` for an instruction without a meaning; no arm does. Safe. -/
  | notModelled (mnemonic : String)
  /-- Raised by every operation of formats L, S, E and B other than INIT when `mode` is not RUN (R38: "no
  operation other than INIT is admitted"; R265: "it is refused: no state changes, no output is produced,
  and no exception … is raised"; "A model's step relation has no step for it"). Safe: the spec gives it no
  effect. -/
  | notAdmitted (mode : Mode)
  /-- Raised by `step` when the bytes at the head of a task's requests are no operation (R110: "`op` ids not
  in rule R100 name no operation"). Safe. -/
  | noOperation (e : DecodeError)
  /-- Raised by `step` when the radio callback asks for an operation other than QUEUE_POP and QUANTISE (R285:
  the host must not "call into the CORE from the radio callback"; "a model has no move for a host that
  breaks a 'must not'"). Safe. -/
  | notForConsumer
  /-- Raised by `step` when the host pushes what it declares to be a sample of PUSH_PACKET and it is not the next one it
  owes the queue (R285: the host must not "skip, repeat or reorder samples"; "a model has no move for a host that
  breaks a 'must not'"). The declaration is log entry 18. Safe. -/
  | sampleOutOfOrder
  /-- Raised by `step` when the host issues PUSH_PACKET for a block that FRAME_CHECK dropped (R285: the host must not
  "pass the block to the CORE"). How such a block is known is log entry 18. Safe. -/
  | droppedBlock
deriving DecidableEq, Repr

/-- The boundary before any sample (R40; defaults of R8; decisions D18, D19, D20). -/
def Boundary.initial : Boundary where
  cap := 2097152
  gain := .rat 100
  rounding := .towardZero
  queue := []
  closed := false
  lastSample := Sample.zero
  underflowCount := 0
  token := false
  held := false
  producerEnded := false
  consumerStopped := false

/-- No request, no turn given, no result. -/
def Port.initial : Port where
  producer := []
  consumer := []
  schedule := []
  result := .none
  outcome := .none
  fresh := 1
  origins := []
  owed := []
  pushed := 0
  dropped := []

/-- The machine right after reset. "The only reset the block has is the INIT operation" (R330), and the
value of every element after it is the table of R43: here for the default configuration of R8 (DESIGN
CHOICE of the operand, log entry 12), with the numeric type of D8's "For proofs: the reals" (DESIGN CHOICE,
log entry 1). The state before any INIT is `State.powerOn`. -/
def State.reset : State where
  num := .exact
  enc := Encoder.initial .exact (cfgOf defaultInit)
  bnd := Boundary.initial
  port := Port.initial

/-- Before the first INIT: `mode` UNINIT and every other element of the CORE unspecified (R331). -/
def State.powerOn : State where
  num := .exact
  enc := Encoder.unspecified 0 .uninit
  bnd := Boundary.initial
  port := Port.initial

end Sys2Proof.Machine
end

