-- ==== Sys2Proof/Machine/Ops.lean ====
section
/-! DEFINITION. The operations the meanings share: admission (47_pipeline R265), leaving a result, taking
an exception (60_exceptions R290, R302), the read of one element of a memory space (20_memory R60, R61),
and the reports of the collaborators (R281, R283, R294 to R296). -/

namespace Sys2Proof.Machine

open Host (Outcome)

/-- A machine outcome. -/
abbrev Answer := Outcome State Fault Refusal

/-- The operation completes: the CORE becomes `e`, `r` is returned, no exception is recorded. -/
def State.complete (s : State) (e : Encoder) (r : Result) : State :=
  { s with enc := e, port := { s.port with result := r, outcome := .none } }

/-- The operation completes with `r.1` returned as `f r.1` and the CORE left at `r.2`. -/
def State.completeWith {β : Type} (s : State) (r : β × Encoder) (f : β → Result) : State :=
  s.complete r.2 (f r.1)

/-- The operation completes and changes the boundary only. -/
def State.completeBoundary (s : State) (b : Boundary) (r : Result) : State :=
  { s with bnd := b, port := { s.port with result := r, outcome := .none } }

/-- TAKING AN EXCEPTION (R290, R302): the operation ends with outcome `x`, the CORE at `e` and the boundary at
`b`, which are the state its rule says, and `r` returned. "No state is saved, no mode changes except
`mode <- FAILED` on ConfigError, no control is transferred, because there is no program counter." There is
no return operation (R303): the next operation proceeds from the state this leaves. -/
def State.raise (s : State) (x : Exc) (e : Encoder) (b : Boundary) (r : Result) : State :=
  { s with enc := e, bnd := b, port := { s.port with result := r, outcome := x } }

/-- The cause code of R290. -/
def Exc.code : Exc → Nat
  | .none => 0
  | .configError _ => 1
  | .rsLengthError _ => 2
  | .syncLoss _ => 3
  | .inputEOF => 4
  | .inputReadError => 5
  | .deviceError => 6
  | .queueUnderflow => 7

/-- The value of `mode` as a number (R38). -/
def Mode.code : Mode → Nat
  | .uninit => 0
  | .run => 1
  | .failed => 2

/-- Admission (R38, R265, decision D14): an operation of formats L, S, E and B other than INIT happens only when
`mode = RUN` (log entry 17). -/
def whenRun (s t : State) : Answer :=
  if s.enc.mode = .run then .next t else .refused (.notAdmitted s.enc.mode)

/-- The byte-wide memory spaces of R60. `hist` and `taps`, whose elements are not bytes, are the lists
themselves. -/
inductive Space where
  | prbsLut
  | gfExp
  | gfLog
  | g
  | fifo (i : Fin 12)
  | rem
deriving DecidableEq, Repr

/-- The slots of `fifo[i]`, none for branch 0 (R26). -/
def Fifos.cells (f : Fifos) : Fin 12 → List Byte
  | 0 => []
  | 1 => f.b1.cells.toList
  | 2 => f.b2.cells.toList
  | 3 => f.b3.cells.toList
  | 4 => f.b4.cells.toList
  | 5 => f.b5.cells.toList
  | 6 => f.b6.cells.toList
  | 7 => f.b7.cells.toList
  | 8 => f.b8.cells.toList
  | 9 => f.b9.cells.toList
  | 10 => f.b10.cells.toList
  | 11 => f.b11.cells.toList

/-- `cur[i]` (R27); branch 0 has no cursor, and 0 stands for it. -/
def Fifos.cursor (f : Fifos) : Fin 12 → Nat
  | 0 => 0
  | 1 => f.b1.cur.val
  | 2 => f.b2.cur.val
  | 3 => f.b3.cur.val
  | 4 => f.b4.cur.val
  | 5 => f.b5.cur.val
  | 6 => f.b6.cur.val
  | 7 => f.b7.cur.val
  | 8 => f.b8.cur.val
  | 9 => f.b9.cur.val
  | 10 => f.b10.cur.val
  | 11 => f.b11.cur.val

/-- MemRead(space, idx) (R61): the element, or none where the space has no such index. -/
def Encoder.memRead (e : Encoder) : Space → Nat → Option Byte
  | .prbsLut, idx => e.prbsLut[idx]?
  | .gfExp, idx => e.gfExp[idx]?
  | .gfLog, idx => if idx = 0 then none else (e.gfLog[idx - 1]?).map fun k => BitVec.ofNat 8 k.val
  | .g, idx => e.g[idx]?
  | .fifo i, idx => (e.fifo.cells i)[idx]?
  | .rem, idx => e.rem[idx]?

/-- The producer is between packets: no push waits, and every sample PUSH_PACKET returned is in the queue. Only
then does it read its source. The spec does not speak of an end of the input at another moment: DESIGN
CHOICE (log entry 26), so that no sample is dropped (R278) or skipped (R285). -/
def betweenPackets (s : State) : Bool := !s.bnd.held && s.port.owed.isEmpty

/-- The input is over, for the reason `x`: the producer ends and closes the queue (R281, R294, R295). While the
producer is not between packets it does not see the report, and nothing changes (DESIGN CHOICE, log entry
26). -/
def endInput (x : Exc) (s : State) : State :=
  if betweenPackets s then s.raise x s.enc { s.bnd with producerEnded := true, closed := true } .none else s

/-- A collaborator's report is taken (log entry 16). End-of-stream and a read error end the producer and
close the queue (R281, R294, R295); a device error and the shut-down signal set the cancellation token
(R283, R296). Nothing touches the CORE. The same where the consumer has already stopped, after END or a shut-down,
and a later INIT has let the producer go on: the token is set, no task observes it, and the producer, also one whose
push waits, goes on and is never joined. The spec is silent on that case (DESIGN CHOICE, log entries 16 and 27). -/
def takeEvent (ev : HostEvent) (s : State) : State :=
  match ev with
  | .inputEOF => endInput .inputEOF s
  | .inputReadError => endInput .inputReadError s
  | .deviceError => s.raise .deviceError s.enc { s.bnd with token := true } .none
  | .shutdown => s.completeBoundary { s.bnd with token := true } .none

end Sys2Proof.Machine
end

