-- ==== Sys2Proof/Machine/BoundaryOps.lean ====
section
/-! DEFINITION. The boundary operations (47_pipeline, format B): FRAME_CHECK, QUANTISE, QUEUE_PUSH and
QUEUE_POP. They are outside the CORE, and admitted only in RUN: outside it "no operation other than INIT is admitted"
(10_state R38; log entry 17). -/

namespace Sys2Proof.Machine

/-- The queue holds `QUEUE_CAP` samples (R278). -/
def Boundary.full (b : Boundary) : Bool := decide (b.cap ≤ b.queue.length)

/-- The meaning of FRAME_CHECK (R276): accept, or count and raise SyncLoss with the offending byte (R291). -/
def execFrameCheck (blk : Packet 188) (s : State) : Answer :=
  whenRun s (if syncOk blk[0] then s.complete s.enc .accept
    else s.raise (.syncLoss blk[0]) { s.enc with syncLossCount := s.enc.syncLossCount + 1 } s.bnd .none)

/-- The two bytes of QUANTISE (R279), in the instance's numeric type and rounding. -/
def quantise (s : State) (x : Sample) : Result :=
  .quantised (quantByte s.num s.bnd.gain s.bnd.rounding x.i) (quantByte s.num s.bnd.gain s.bnd.rounding x.q)

/-- The meaning of QUANTISE (R279). A sample that is no value of the numeric type is admitted, as everywhere (DESIGN
CHOICE, log entry 1). -/
def execQuantise (x : Sample) (s : State) : Answer := whenRun s (s.complete s.enc (quantise s x))

/-- The meaning of QUEUE_PUSH (R278): append at the tail; on a full queue nothing is pushed and the producer
waits (decision D32). A sample that is no value of the numeric type is queued as it is (DESIGN CHOICE, log entry 1). -/
def execQueuePush (x : Sample) (s : State) : Answer :=
  whenRun s (if s.bnd.full then s.completeBoundary { s.bnd with held := true } .waiting
    else s.completeBoundary { s.bnd with queue := s.bnd.queue ++ [x], held := false } .none)

/-- The meaning of QUEUE_POP (R280): the head of the queue; END when it is empty and closed; else the last
sample again, counted, with QueueUnderflow (R297). A pop makes room for a waiting producer (R278). -/
def execQueuePop (s : State) : Answer :=
  whenRun s (match s.bnd.queue with
    | x :: rest => s.completeBoundary { s.bnd with queue := rest, lastSample := x, held := false } (.sample x)
    | [] =>
      if s.bnd.closed then s.completeBoundary { s.bnd with consumerStopped := true } .endOfStream
      else s.raise .queueUnderflow s.enc { s.bnd with underflowCount := s.bnd.underflowCount + 1 }
        (.sample s.bnd.lastSample))

end Sys2Proof.Machine
end

