-- ==== Sys2Proof/Machine/ReedSolomon.lean ====
section
/-! DEFINITION. The RS(204,188) encoder (42_rs_encoder): RS_CLEAR, RS_STEP and RS_ENCODE. -/

namespace Sys2Proof.Machine

/-- The remainder register one byte toward index 0, 0x00 entering at index 15 (R173). -/
def remShift (rem : Vector Byte 16) : Vector Byte 16 :=
  vectorOfList 16 (rem.toList.tail ++ [0x00#8]) (by simp)

/-- `rem[k] XOR mul(g[k+1])` for k = 0..15 (R173). -/
def remAdd (mul : Byte → Byte) (g : Vector Byte 17) (rem : Vector Byte 16) : Vector Byte 16 :=
  vectorOfList 16 (List.zipWith (fun r c => r ^^^ mul c) rem.toList g.toList.tail) (by simp)

/-- GF_MUL with the CORE's own tables. -/
def Encoder.gfMul (e : Encoder) (a b : Byte) : Byte := gfMulWith e.gfExp e.gfLog a b

/-- RS_CLEAR (R171). -/
def rsClear (e : Encoder) : Encoder := { e with rem := Vector.replicate 16 0x00#8 }

/-- RS_STEP (R173). `feedback` is taken from the register before the shift. -/
def rsStep (e : Encoder) (d : Byte) : Encoder :=
  let feedback := d ^^^ e.rem[0]
  if feedbackNonzero feedback then
    { e with rem := remAdd (fun c => e.gfMul c feedback) e.g (remShift e.rem) }
  else { e with rem := remShift e.rem }

/-- RS_ENCODE (R170): clear, one step per byte, then the data with the register appended. -/
def rsEncode (e : Encoder) (d : List Byte) : List Byte × Encoder :=
  let e' := d.foldl rsStep (rsClear e)
  (d ++ e'.rem.toList, e')

/-- The meaning of RS_CLEAR. -/
def execRsClear (s : State) : Answer := whenRun s (s.complete (rsClear s.enc) .none)

/-- The meaning of RS_STEP. -/
def execRsStep (d : Byte) (s : State) : Answer := whenRun s (s.complete (rsStep s.enc d) .none)

/-- The meaning of RS_ENCODE: another length than 188 raises RsLengthError "before RS_CLEAR and changes no
state" (R178, R293). -/
def execRsEncode (d : List Byte) (s : State) : Answer :=
  whenRun s (if d.length = 188 then s.completeWith (rsEncode s.enc d) .bytes
    else s.raise (.rsLengthError d.length) s.enc s.bnd .none)

end Sys2Proof.Machine
end

