-- ==== Sys2Proof/Machine/Builders.lean ====
section
/-! DEFINITION. The operations of format T issued on their own: "pure functions of their operands (GF_MUL of
the tables too)" that "may be evaluated at any time" (47_pipeline R265). They return the table and write
none: "No operation other than INIT's builders writes a table" (10_state R35; log entry 10). -/

namespace Sys2Proof.Machine

/-- GF_MUL on a CORE: with its tables when they are valid, that is when `mode = RUN`; otherwise no table of
the CORE is valid (R38), and the product is that of the tables GF_BUILD gives (log entry 11). -/
def gfMulOn (e : Encoder) (a b : Byte) : Byte :=
  if e.mode = .run then e.gfMul a b else gfMulWith gfExpTable gfLogTable a b

/-- The meaning of GF_BUILD (R121). -/
def execGfBuild (s : State) : Answer := .next (s.complete s.enc (.fieldTables gfExpTable gfLogTable))

/-- The meaning of GF_MUL (R122). -/
def execGfMul (a b : Byte) (s : State) : Answer := .next (s.complete s.enc (.byte (gfMulOn s.enc a b)))

/-- The meaning of RSGEN_BUILD (R126). -/
def execRsgenBuild (s : State) : Answer :=
  .next (s.complete s.enc (.generator (genTable gfExpTable gfLogTable)))

/-- The meaning of PRBS_BUILD (R131). -/
def execPrbsBuild (src : Config.PrbsSource) (s : State) : Answer :=
  .next (s.complete s.enc (.prbs (prbsTable src)))

/-- The meaning of RRC_TAPS_BUILD (R138, R143). -/
def execRrcTapsBuild (u n : Int) (beta : Num) (s : State) : Answer :=
  match rrcTapsBuild s.num u n beta with
  | .error c => .next (s.raise (.configError c) s.enc s.bnd .none)
  | .ok taps => .next (s.complete s.enc (.taps taps))

end Sys2Proof.Machine
end

