-- ==== Sys2Proof/Machine/ConvEncoder.lean ====
section
/-! DEFINITION. The inner convolutional encoder (44_conv_encoder): CC_BIT, CC_BYTE and CONV_ENCODE. -/

namespace Sys2Proof.Machine

/-- `CC_MASK1`, the mask of `o1`: 171 octal with the newest bit in bit 0 (R211, decision D6, conflict C1). -/
def ccMask1 : BitVec 7 := 0x4F#7

/-- `CC_MASK2`, the mask of `o2`: 133 octal with the newest bit in bit 0 (R211). -/
def ccMask2 : BitVec 7 := 0x6D#7

/-- `((cc_state << 1) | b) AND 0x7F` (R212). -/
def ccShift (st : BitVec 7) (b : Bool) : BitVec 7 := (st <<< 1) ||| (BitVec.ofBool b).setWidth 7

/-- The two code bits of a register value, `(o1, o2)` (R212). -/
def ccOutputs (st : BitVec 7) : Bool × Bool := (parity (st &&& ccMask1), parity (st &&& ccMask2))

/-- CC_BIT (R212): shift first, then both outputs from the new register. -/
def ccBit (e : Encoder) (b : Bool) : (Bool × Bool) × Encoder :=
  (ccOutputs (ccShift e.ccState b), { e with ccState := ccShift e.ccState b })

/-- Pairs of code bits as the flat sequence they are emitted in, `o1` before `o2` (R65, R95). -/
def flattenPairs (l : List (Bool × Bool)) : List Bool := l.flatMap fun p => [p.1, p.2]

/-- CC_BYTE (R213): CC_BIT on the bits of the byte, bit 7 first. -/
def ccByte (e : Encoder) (b : Byte) : List Bool × Encoder :=
  (flattenPairs (thread ccBit e (byteBits b)).1, (thread ccBit e (byteBits b)).2)

/-- CONV_ENCODE (R210): CC_BYTE on every byte in order. -/
def convEncode (e : Encoder) (il : List Byte) : List Bool × Encoder :=
  ((thread ccByte e il).1.flatten, (thread ccByte e il).2)

/-- The meaning of CC_BIT. -/
def execCcBit (b : Bool) (s : State) : Answer :=
  whenRun s (s.completeWith (ccBit s.enc b) fun o => .dibit o.1 o.2)

/-- The meaning of CC_BYTE. -/
def execCcByte (b : Byte) (s : State) : Answer := whenRun s (s.completeWith (ccByte s.enc b) .codeBits)

/-- The meaning of CONV_ENCODE. -/
def execConvEncode (il : List Byte) (s : State) : Answer :=
  whenRun s (s.completeWith (convEncode s.enc il) .codeBits)

end Sys2Proof.Machine
end

