-- ==== Sys2Proof/Machine/Interleaver.lean ====
section
/-! DEFINITION. The convolutional interleaver (43_interleaver): IL_BYTE and INTERLEAVE. -/

namespace Sys2Proof.Machine

/-- One visit to a delay line (R193, R68): read the slot at the cursor, write `b` into the same slot, move
the cursor on modulo the length. -/
def Branch.visit {len : Nat} (br : Branch len) (b : Byte) : Byte × Branch len :=
  (br.cells[br.cur],
    { cells := br.cells.set br.cur b
      cur := ⟨(br.cur.val + 1) % len, Nat.mod_lt _ br.cur.pos⟩ })

/-- A visit to branch `i` of the bank; branch 0 passes `b` through and touches no state (R191, R193). -/
def Fifos.visit (f : Fifos) (i : Fin 12) (b : Byte) : Byte × Fifos :=
  match i with
  | 0 => (b, f)
  | 1 => ((f.b1.visit b).1, { f with b1 := (f.b1.visit b).2 })
  | 2 => ((f.b2.visit b).1, { f with b2 := (f.b2.visit b).2 })
  | 3 => ((f.b3.visit b).1, { f with b3 := (f.b3.visit b).2 })
  | 4 => ((f.b4.visit b).1, { f with b4 := (f.b4.visit b).2 })
  | 5 => ((f.b5.visit b).1, { f with b5 := (f.b5.visit b).2 })
  | 6 => ((f.b6.visit b).1, { f with b6 := (f.b6.visit b).2 })
  | 7 => ((f.b7.visit b).1, { f with b7 := (f.b7.visit b).2 })
  | 8 => ((f.b8.visit b).1, { f with b8 := (f.b8.visit b).2 })
  | 9 => ((f.b9.visit b).1, { f with b9 := (f.b9.visit b).2 })
  | 10 => ((f.b10.visit b).1, { f with b10 := (f.b10.visit b).2 })
  | 11 => ((f.b11.visit b).1, { f with b11 := (f.b11.visit b).2 })

/-- "input byte at position p goes to branch (p mod 12)" (R192). -/
def branchOf (p : Nat) : Fin 12 := ⟨p % 12, Nat.mod_lt _ (by decide)⟩

/-- IL_BYTE (R193). -/
def ilByte (e : Encoder) (p : Nat) (b : Byte) : Byte × Encoder :=
  ((e.fifo.visit (branchOf p) b).1, { e with fifo := (e.fifo.visit (branchOf p) b).2 })

/-- INTERLEAVE (R190): IL_BYTE(p, rs[p]) for p in order. -/
def interleave (e : Encoder) (rs : List Byte) : List Byte × Encoder :=
  thread (fun e pb => ilByte e pb.2 pb.1) e rs.zipIdx

/-- The meaning of IL_BYTE. -/
def execIlByte (p : Fin 204) (b : Byte) (s : State) : Answer :=
  whenRun s (s.completeWith (ilByte s.enc p.val b) .byte)

/-- The meaning of INTERLEAVE. -/
def execInterleave (rs : Packet 204) (s : State) : Answer :=
  whenRun s (s.completeWith (interleave s.enc rs.toList) .bytes)

end Sys2Proof.Machine
end

