-- ==== Sys2Proof/Machine/Mapper.lean ====
section
/-! DEFINITION. The QPSK symbol mapper (45_qpsk_mapper): MAP_DIBIT and QPSK_MAP. It is stateless. -/

namespace Sys2Proof.Machine

/-- The constellation table of R231, by symbol index, in the numeric type given. -/
def constellation {K : Type} (A : Arith K) (s : BitVec 2) : SampleOf K :=
  match s.toNat with
  | 0 => ⟨A.amp, A.amp⟩
  | 1 => ⟨A.amp, A.neg A.amp⟩
  | 2 => ⟨A.neg A.amp, A.amp⟩
  | _ => ⟨A.neg A.amp, A.neg A.amp⟩

/-- MAP_DIBIT (R231). -/
def mapDibit {K : Type} (A : Arith K) (b1 b0 : Bool) : SampleOf K := constellation A (symbolIndex b1 b0)

/-- QPSK_MAP (R230): MAP_DIBIT on the pairs in order. -/
def qpskMap {K : Type} (A : Arith K) (cb : List (Bool × Bool)) : List (SampleOf K) :=
  cb.map fun p => mapDibit A p.1 p.2

/-- The meaning of MAP_DIBIT. -/
def execMapDibit (b1 b0 : Bool) (s : State) : Answer := whenRun s (s.complete s.enc (.point (mapDibit (NumType.arith s.num) b1 b0)))

/-- The meaning of QPSK_MAP. -/
def execQpskMap (cb : List (Bool × Bool)) (s : State) : Answer :=
  whenRun s (s.complete s.enc (.points (qpskMap (NumType.arith s.num) cb)))

end Sys2Proof.Machine
end

