-- ==== Sys2Proof/Machine/Scrambler.lean ====
section
/-! DEFINITION. The PRBS scrambler (41_scrambler): SCR_BYTE0, SCR_BYTE, SCR_NEXT and SCRAMBLE. -/

namespace Sys2Proof.Machine

/-- SCR_BYTE0 (R151): byte 0 of a packet; inverted, and the cursor reset, at the start of a superframe. -/
def scrByte0 (e : Encoder) (b : Byte) : Byte × Encoder :=
  if superframeStart e.pktIdx then (b ^^^ 0xFF#8, { e with prbsPos := 0 }) else (b, e)

/-- SCR_BYTE (R153): a payload byte XOR the table byte at the cursor; the cursor moves on modulo 1503. -/
def scrByte (e : Encoder) (b : Byte) : Byte × Encoder :=
  (b ^^^ tableRead e.prbsLut e.prbsPos.val, { e with prbsPos := e.prbsPos + 1 })

/-- SCR_NEXT (R154): the superframe index moves on modulo 8. -/
def scrNext (e : Encoder) : Encoder := { e with pktIdx := e.pktIdx + 1 }

/-- SCRAMBLE (R150): SCR_BYTE0 on the first byte, SCR_BYTE on the others in order, then SCR_NEXT. -/
def scramble (e : Encoder) : List Byte → List Byte × Encoder
  | [] => ([], scrNext e)
  | b :: bs =>
    ((scrByte0 e b).1 :: (thread scrByte (scrByte0 e b).2 bs).1, scrNext (thread scrByte (scrByte0 e b).2 bs).2)

/-- The meaning of SCR_BYTE0. -/
def execScrByte0 (b : Byte) (s : State) : Answer := whenRun s (s.completeWith (scrByte0 s.enc b) .byte)

/-- The meaning of SCR_BYTE. -/
def execScrByte (b : Byte) (s : State) : Answer := whenRun s (s.completeWith (scrByte s.enc b) .byte)

/-- The meaning of SCR_NEXT. -/
def execScrNext (s : State) : Answer := whenRun s (s.complete (scrNext s.enc) .none)

/-- The meaning of SCRAMBLE. -/
def execScramble (ts : Packet 188) (s : State) : Answer :=
  whenRun s (s.completeWith (scramble s.enc ts.toList) .bytes)

end Sys2Proof.Machine
end

