-- ==== Sys2Proof/Machine/Shaper.lean ====
section
/-! DEFINITION. The root-raised-cosine pulse shaper (46_rrc_shaper): RRC_SYMBOL and RRC_SHAPE. -/

namespace Sys2Proof.Machine

/-- The push of R244: everything ages by one, the oldest entry is discarded, the new symbol is `hist[0]`, as it was
given: a symbol that is no value of the instance's numeric type is stored as it is (DESIGN CHOICE, log entry 1). -/
def pushSymbol {K : Type} (c : Cfg) (hist : List (SampleOf K)) (x : SampleOf K) : List (SampleOf K) :=
  x :: hist.take (histLength c.n c.u - 1)

/-- `acc + Σ_k lane[k]·taps[idx + k·U]` in the numeric type given, ascending `k` from the accumulator; a term
whose tap index is above `N − 1` is omitted (R244, R245, R246). -/
def laneSum {K : Type} (A : Arith K) (taps : List K) (n u : Nat) : Nat → K → List K → K
  | _, acc, [] => acc
  | idx, acc, h :: hs =>
    laneSum A taps n u (idx + u)
      (if tapInRange n idx then A.add acc (A.mul h (taps.getD idx A.zero)) else acc) hs

/-- The sample of phase `j`: the I and the Q lane filtered separately by the same taps (R244, R247). -/
def phaseSample {K : Type} (A : Arith K) (taps : List K) (c : Cfg) (hist : List (SampleOf K)) (j : Nat) :
    SampleOf K :=
  ⟨laneSum A taps c.n c.u j A.zero (hist.map SampleOf.i), laneSum A taps c.n c.u j A.zero (hist.map SampleOf.q)⟩

/-- RRC_SYMBOL (R244): the push first, then the `U` phases in ascending order. -/
def rrcSymbol (A : Arith Num) (e : Encoder) (x : Sample) : List Sample × Encoder :=
  let hist := pushSymbol e.cfg e.hist x
  ((List.range e.cfg.u).map (phaseSample A e.taps e.cfg hist), { e with hist := hist })

/-- RRC_SHAPE (R240): RRC_SYMBOL on every point in order. -/
def rrcShape (A : Arith Num) (e : Encoder) (pt : List Sample) : List Sample × Encoder :=
  ((thread (rrcSymbol A) e pt).1.flatten, (thread (rrcSymbol A) e pt).2)

/-- The meaning of RRC_SYMBOL (R244). The operand, and an entry of `hist`, is a complex `Num` (R29). In an instance whose
numeric type is not the reals R244 says nothing of an operand that is no value of the type: DESIGN CHOICE (log entry
1), it is admitted, stored unrounded, and multiplied as the number it is, the product then rounded. -/
def execRrcSymbol (x : Sample) (s : State) : Answer := whenRun s (s.completeWith (rrcSymbol (NumType.arith s.num) s.enc x) .samples)

/-- The meaning of RRC_SHAPE (R240). A point that is no value of the numeric type is treated as RRC_SYMBOL treats one
(DESIGN CHOICE, log entry 1). -/
def execRrcShape (pt : List Sample) (s : State) : Answer := whenRun s (s.completeWith (rrcShape (NumType.arith s.num) s.enc pt) .samples)

end Sys2Proof.Machine
end

