-- ==== Sys2Proof/Machine/Lifecycle.lean ====
section
/-! DEFINITION. The lifecycle operations (47_pipeline): INIT and PUSH_PACKET. -/

namespace Sys2Proof.Machine

/-- The validity check of INIT: the first condition of R292, 1 to 4, that holds. -/
def cfgCheck (a : Config.InitArg) : Option Nat :=
  if a.symbolRate ≤ 0 ∨ a.sampleRate ≤ 0 then some 1
  else if a.sampleRate % a.symbolRate ≠ 0 then some 2
  else filterCheck a.taps a.beta

/-- A failed start-up (R260, R292): ConfigError is raised, `mode` becomes FAILED, every other element of the
CORE is unspecified; the boundary is no part of the CORE. -/
def failStart (c : Nat) (s : State) : State :=
  let t := s.raise (.configError c) (Encoder.unspecified s.port.fresh .failed) s.bnd .none
  { t with port := { t.port with fresh := s.port.fresh + 1 } }

/-- The CORE after INIT, or the sub-code of its ConfigError (R260, R292). -/
def initEncoder (f : Config.NumType) (a : Config.InitArg) : Except Nat Encoder :=
  match cfgCheck a with
  | some c => .error c
  | none =>
    match buildTaps f (cfgOf a).u (cfgOf a).n (cfgOf a).beta with
    | .error c => .error c
    | .ok taps => .ok { Encoder.initial f (cfgOf a) with taps := taps }

/-- The meaning of INIT (R260): admitted in every mode (R265), reads nothing of the old state, and is a
complete reset (R333). -/
def execInit (a : Config.InitArg) (s : State) : Answer :=
  match initEncoder s.num a with
  | .error c => .next (failStart c s)
  | .ok e => .next (s.complete e .none)

/-- The six stages of R262 in order, on a list of bytes, in the numeric type `f`. -/
def pushPacket (f : Config.NumType) (e : Encoder) (ts : List Byte) : List Sample × Encoder :=
  let sc := scramble e ts
  let rs := rsEncode sc.2 sc.1
  let il := interleave rs.2 rs.1
  let cb := convEncode il.2 il.1
  rrcShape (NumType.arith f) cb.2 (qpskMap (NumType.arith f) (dibits cb.1))

/-- The meaning of PUSH_PACKET (R262): the whole expansion as one operation (R263). The first byte is not
checked again (R267; log entry 13). -/
def execPushPacket (ts : Packet 188) (s : State) : Answer :=
  whenRun s (s.completeWith (pushPacket s.num s.enc ts.toList) .samples)

end Sys2Proof.Machine
end

