-- ==== Sys2Proof/Machine/Dispatch.lean ====
section
/-! DEFINITION. Each operation's meaning, one arm for each row of the operation table (30_encoding R100). -/

namespace Sys2Proof.Machine

open Host (Outcome)

def exec (i : Instr) (s : State) : Host.Outcome State Fault Refusal :=
  match i with
  | .init cfg => Sys2Proof.Machine.execInit cfg s
  | .pushPacket ts => Sys2Proof.Machine.execPushPacket ts s
  | .scramble ts => Sys2Proof.Machine.execScramble ts s
  | .rsEncode d => Sys2Proof.Machine.execRsEncode d s
  | .interleave rs => Sys2Proof.Machine.execInterleave rs s
  | .convEncode il => Sys2Proof.Machine.execConvEncode il s
  | .qpskMap cb => Sys2Proof.Machine.execQpskMap cb s
  | .rrcShape pt => Sys2Proof.Machine.execRrcShape pt s
  | .scrByte0 b => Sys2Proof.Machine.execScrByte0 b s
  | .scrByte b => Sys2Proof.Machine.execScrByte b s
  | .scrNext => Sys2Proof.Machine.execScrNext s
  | .rsClear => Sys2Proof.Machine.execRsClear s
  | .rsStep d => Sys2Proof.Machine.execRsStep d s
  | .ilByte p b => Sys2Proof.Machine.execIlByte p b s
  | .ccBit b => Sys2Proof.Machine.execCcBit b s
  | .ccByte b => Sys2Proof.Machine.execCcByte b s
  | .mapDibit b1 b0 => Sys2Proof.Machine.execMapDibit b1 b0 s
  | .rrcSymbol x => Sys2Proof.Machine.execRrcSymbol x s
  | .gfBuild => Sys2Proof.Machine.execGfBuild s
  | .gfMul a b => Sys2Proof.Machine.execGfMul a b s
  | .rsgenBuild => Sys2Proof.Machine.execRsgenBuild s
  | .prbsBuild src => Sys2Proof.Machine.execPrbsBuild src s
  | .rrcTapsBuild u n beta => Sys2Proof.Machine.execRrcTapsBuild u n beta s
  | .frameCheck blk => Sys2Proof.Machine.execFrameCheck blk s
  | .quantise x => Sys2Proof.Machine.execQuantise x s
  | .queuePush x => Sys2Proof.Machine.execQueuePush x s
  | .queuePop => Sys2Proof.Machine.execQueuePop s

end Sys2Proof.Machine
end

