-- ==== Sys2Proof/Machine/Requests.lean ====
section
/-! DEFINITION. How an operation reaches the machine. The block has no program counter and fetches nothing
(10_state R24, 30_encoding R90): its operations are issued by a host, on two tasks (47_pipeline R261,
60_exceptions R313). The requests of each task are bytes in the port, in the order they will be made (log
entry 7). -/

namespace Sys2Proof.Machine

/-- The requests a task has still to make. -/
def State.requests (s : State) : Task → List Byte
  | .producer => s.port.producer
  | .consumer => s.port.consumer

/-- The same state with `bs` as the requests of a task. -/
def State.setRequests (s : State) (t : Task) (bs : List Byte) : State :=
  match t with
  | .producer => { s with port := { s.port with producer := bs } }
  | .consumer => { s with port := { s.port with consumer := bs } }

/-- The producer's next request is an INIT. -/
def initRequested (s : State) : Bool := s.port.producer.head? == some 0x00#8

/-- A task can move. The producer: when it does not wait for room (R278), has a request, and has not ended (R281) or
asks for INIT. The consumer: when it has not stopped (R281) and has a request or the token to observe. That INIT
is served after the producer has ended is the model's choice: the spec says only that "INIT may be issued
again" (D23; log entry 27). So is it that the token stops a producer only through the consumer that observes it (R281):
where the consumer has stopped before, and INIT has let the producer go on, a shut-down or a device error (R283, R296)
leaves the producer going on, for the spec does not say how it is then joined (DESIGN CHOICE, log entries 16 and 27). -/
def runnable (s : State) : Task → Bool
  | .producer => (!s.bnd.producerEnded || initRequested s) && !s.bnd.held && !s.port.producer.isEmpty
  | .consumer => !s.bnd.consumerStopped && (s.bnd.token || !s.port.consumer.isEmpty)

/-- The report a collaborator makes in this step, if the turn is a collaborator's. -/
def nextReport (s : State) : Option HostEvent :=
  match s.port.schedule with
  | .report ev :: _ => some ev
  | .task _ :: _ => none
  | [] => none

/-- Which task moves in this step, if any. The spec orders the two tasks against nothing (R301): the
schedule, an input, decides; where it is empty the producer goes first. -/
def nextTask (s : State) : Option Task :=
  match s.port.schedule with
  | .task t :: _ => if runnable s t then some t else none
  | .report _ :: _ => none
  | [] =>
    if runnable s .producer then some .producer
    else if runnable s .consumer then some .consumer else none

/-- The turn is over. -/
def turnTaken (s : State) : State := { s with port := { s.port with schedule := s.port.schedule.tail } }

/-- The operation at the head of a task's requests, and the requests after it. -/
def fetch (s : State) (t : Task) : Except DecodeError (Instr × List Byte) := decode (s.requests t)

/-- A push that waits happens no more: the producer no longer waits, and its request is given up with the word on where
its sample came from. -/
def abandonPush (s : State) : State :=
  if s.bnd.held then
    { s with
      bnd := { s.bnd with held := false }
      port := { s.port with
        producer := match fetch s .producer with
          | .ok r => r.2
          | .error _ => s.port.producer
        origins := s.port.origins.tail } }
  else s

/-- The consumer observes the token and "returns a sentinel to the driver to stop the transfer"; "After StopTX
the consumer yields; the producer task is then joined" (R281): it makes no further request but INIT, and a push
that waits does not happen any more (DESIGN CHOICE, log entries 26 and 27). -/
def stopTransfer (s : State) : State :=
  (abandonPush s).completeBoundary { (abandonPush s).bnd with consumerStopped := true, producerEnded := true } .sentinel

/-- Pushing `x` gives the queue the first sample the host owes it: by the host's word it is that sample, or the host says
nothing and it equals that sample. The spec does not say how a host's sample is known as one of PUSH_PACKET's:
DESIGN CHOICE (log entry 18). -/
def paysOwed (s : State) (x : Sample) : Bool :=
  match s.port.origins.head? with
  | some (.packet k) => k == s.port.pushed && s.port.owed.head? == some x
  | some .own => false
  | none => s.port.owed.head? == some x

/-- By the host's word `x` is a sample of PUSH_PACKET, and it is not the first one it owes: the push would "skip, repeat
or reorder samples" (R285). Any other push is admitted (R14, R278). -/
def outOfTurn (s : State) (x : Sample) : Bool :=
  match s.port.origins.head? with
  | some (.packet _) => !paysOwed s x
  | some .own => false
  | none => false

/-- The "must not" of R285 that task `t` would break by issuing `i`, if any: "a model has no move for a host that
breaks a 'must not'" (log entry 18). The callback must only pop and quantise (R345); the host must not
"skip, repeat or reorder samples"; and it must not pass a dropped block to the CORE. The spec does not say how a
dropped block is known, nor for how long: DESIGN CHOICE (log entry 18), by value, until the next INIT, and given
to PUSH_PACKET only, since SCRAMBLE and the other operations are total on any input (R14, R111, R150, R266).
Every other request is admitted. -/
def breach (s : State) : Task → Instr → Option Refusal
  | .consumer, .quantise _ => none
  | .consumer, .queuePop => none
  | .consumer, _ => some .notForConsumer
  | .producer, .queuePush x => if outOfTurn s x then some .sampleOutOfOrder else none
  | .producer, .pushPacket ts => if s.port.dropped.contains ts then some .droppedBlock else none
  | .producer, _ => none

/-- The host's duties after operation `i` has left the state `u` (R285; log entry 18): the samples
of a packet are owed to the queue in order; one of them pushed is owed no more, and the word on a push is used up;
a block dropped is remembered until INIT. -/
def noteDuties (i : Instr) (u : State) : State :=
  match i, u.port.result, u.port.outcome with
  | .init _, _, _ => { u with port := { u.port with dropped := [] } }
  | .pushPacket _, .samples l, _ => { u with port := { u.port with owed := u.port.owed ++ l } }
  | .queuePush x, .none, _ =>
    if paysOwed u x then
      { u with port := { u.port with
        origins := u.port.origins.tail, owed := u.port.owed.tail, pushed := u.port.pushed + 1 } }
    else { u with port := { u.port with origins := u.port.origins.tail } }
  | .frameCheck blk, _, .syncLoss _ => { u with port := { u.port with dropped := blk :: u.port.dropped } }
  | _, _, _ => u

/-- An INIT that succeeds after the producer has ended starts the producer anew: it goes on, and what it owed when it
ended is owed no more. Nothing else starts anew: the queue keeps its samples and stays closed, the token stays as
it is and a consumer that has stopped stays stopped, since INIT "touches nothing of R40" (47_pipeline R260). An
INIT that raises ConfigError starts nothing: the producer stays ended, and may ask for INIT again (60_exceptions
R303 says only that the host may). The spec is silent on both: DESIGN CHOICE (log entry 27). -/
def newRun (i : Instr) (u : State) : State :=
  match i, u.port.outcome, u.bnd.producerEnded with
  | .init _, .none, true =>
    { u with
      bnd := { u.bnd with producerEnded := false }
      port := { u.port with owed := [], pushed := u.port.pushed + u.port.owed.length } }
  | _, _, _ => u

/-- After operation `i` of task `t`: its request is done with and the turn is over; but a push that found the
queue full stays at the head of the producer's requests, to be tried again (R278, decision D32). -/
def settle (t : Task) (i : Instr) (rest : List Byte) (u : State) : State :=
  if t = .producer ∧ u.bnd.held then turnTaken (newRun i (noteDuties i u))
  else turnTaken ((newRun i (noteDuties i u)).setRequests t rest)

/-- The same state with the host's duties such that issuing `i` breaks none of them. -/
def State.permit (s : State) (i : Instr) : State :=
  match i with
  | .queuePush _ => { s with port := { s.port with origins := .own :: s.port.origins } }
  | .pushPacket ts => { s with port := { s.port with dropped := s.port.dropped.filter (· != ts) } }
  | _ => s

/-- Exactly the bytes of the table word's operation: its operands zero, nothing after it. -/
def requestBytes (nbits w : Nat) : List Byte :=
  match decode (tableWordBytes nbits w) with
  | .error _ => tableWordBytes nbits w
  | .ok r => (tableWordBytes nbits w).take ((tableWordBytes nbits w).length - r.2.length)

/-- `s` with `bs` as the only requests of a producer that can move, and the turn its. -/
def State.withRequestBytes (s : State) (bs : List Byte) : State :=
  { s with
    bnd := { s.bnd with producerEnded := false, held := false }
    port := { s.port with producer := bs, schedule := [.task .producer] } }

end Sys2Proof.Machine
end

