-- ==== Sys2Proof/Machine/Step.lean ====
section
/-! DEFINITION. One step of the machine: a collaborator's report is taken if the turn is its; else the task
whose turn it is makes its next request, decoded and run by `exec`; else nothing happens (60_exceptions R315: a
CORE that receives nothing keeps its state). -/

namespace Sys2Proof.Machine

open Host (Outcome)

/-- Task `t` makes its next request. -/
def serve (t : Task) (s : State) : Outcome State Fault Refusal :=
  match fetch s t with
  | .error e => .refused (.noOperation e)
  | .ok r =>
    match breach s t r.1 with
    | some b => .refused b
    | none =>
      match exec r.1 s with
      | .next u => .next (settle t r.1 r.2 u)
      | .fault f => .fault f
      | .refused f => .refused f

/-- One step. -/
def step (s : State) : Outcome State Fault Refusal :=
  match nextReport s with
  | some ev => .next (turnTaken (takeEvent ev s))
  | none =>
    match nextTask s with
    | none => .next (turnTaken s)
    | some .producer => serve .producer s
    | some .consumer => if s.bnd.token then .next (turnTaken (stopTransfer s)) else serve .consumer s

/-- `s` with the operation `i` as the request the next step serves: the request placed, and the host's duties such
that issuing it breaks none (log entries 7 and 18). -/
def State.withRequest (s : State) (i : Instr) : State := (s.permit i).withRequestBytes (encode i)

/-- `s` with a row of spec/opcode_table.json, its operands zero, as the request the next step serves. -/
def State.withFetchWord (s : State) (nbits w : Nat) : State :=
  match decodeTableWord nbits w with
  | some i => (s.permit i).withRequestBytes (requestBytes nbits w)
  | none => s.withRequestBytes (requestBytes nbits w)

end Sys2Proof.Machine
end

