-- ==== Sys2Proof/Machine/Feed.lean ====
section
/-! DEFINITION. The host-facing entry of 47_pipeline R267, a composition of two operations and no operation
of the table itself. -/

namespace Sys2Proof.Machine

/-- `FEED(blk) = if FRAME_CHECK(blk) = accept then PUSH_PACKET(blk)` (R267). -/
def feed (blk : Packet 188) (s : State) : Answer :=
  match execFrameCheck blk s with
  | .next t => if t.port.result = .accept then execPushPacket blk t else .next t
  | .fault f => .fault f
  | .refused r => .refused r

end Sys2Proof.Machine
end

