-- ==== Sys2Proof/Safety.lean ====
section
/-! DEFINITION. What a sound state is (the invariants of 10_state R42 and R37 in every state with
`mode = RUN`, and the bound of the sample queue, 47_pipeline R278), and the terms the statements use: how
an operation ends, operations in sequence, and the spec's own closed forms. -/

namespace Sys2Proof.Safety

open Sys2Proof.Machine
open Host (Outcome)

/-- The configuration record holds legal values (R37, R292). -/
def CfgLegal (c : Cfg) : Prop :=
  0 < c.symbolRate ∧ c.sampleRate = c.u * c.symbolRate ∧ 1 ≤ c.u ∧ c.n % 2 = 1 ∧ betaOutside c.beta = false

/-- The normalisation sum of the raw taps is not 0: condition 5 of R292 does not hold. -/
abbrev Normalisable (u n : Nat) (beta : Num) : Prop := isZero (tapSum u n beta) = false

/-- The taps satisfy the normalisation of 40_init_tables R144: over the reals their polyphase-0 sum is 1; in another
numeric type it is within 1e-9 of 1, if any table of values of the type near the real taps has such a sum (log
entry 3). -/
def Normalised (f : Config.NumType) (u n : Nat) (beta : Num) (taps : List Num) : Prop :=
  (f = .exact → realValue (tapSum u n beta) ≠ 0 → phaseZeroTotal u taps = 1) ∧
    (f ≠ .exact → (∃ t, Conforming f u n beta t) → |phaseZeroTotal u taps - 1| ≤ 1 / 1000000000)

/-- The tables are the ones INIT builds for the configuration (R30 to R35, R42). -/
def TablesBuilt (f : Config.NumType) (e : Encoder) : Prop :=
  e.gfExp = gfExpTable ∧ e.gfLog = gfLogTable ∧ e.g = genTable gfExpTable gfLogTable ∧
    e.prbsLut = e.cfg.prbsLut ∧ e.taps = tapTable f e.cfg.u e.cfg.n e.cfg.beta

/-- The invariants of the CORE (R42): in RUN the configuration is legal, the tables are built, the symbol history has
its length, and the taps theirs and the normalisation of R144. The ranges of the registers are in their types. -/
def EncoderSound (f : Config.NumType) (e : Encoder) : Prop :=
  e.mode = .run →
    CfgLegal e.cfg ∧ TablesBuilt f e ∧ Normalisable e.cfg.u e.cfg.n e.cfg.beta ∧
      e.hist.length = histLength e.cfg.n e.cfg.u ∧ e.taps.length = e.cfg.n ∧
      Normalised f e.cfg.u e.cfg.n e.cfg.beta e.taps

/-- "The queue is bounded, with capacity `QUEUE_CAP`" (R278). -/
def QueueSound (b : Boundary) : Prop := b.queue.length ≤ b.cap

/-- A sound machine state. -/
def Sound (s : State) : Prop := EncoderSound s.num s.enc ∧ QueueSound s.bnd

/-! ## How an operation ends -/

/-- The operation completes with the CORE at `e`, returns `r`, and changes nothing else. -/
def completes (s : State) (e : Encoder) (r : Result) : Outcome State Fault Refusal :=
  .next { s with enc := e, port := { s.port with result := r, outcome := .none } }

/-- The operation completes with the boundary at `b`, returns `r`, and changes nothing else. -/
def completesAt (s : State) (b : Boundary) (r : Result) : Outcome State Fault Refusal :=
  .next { s with bnd := b, port := { s.port with result := r, outcome := .none } }

/-- The operation ends with exception `x`, returns nothing, and changes nothing else. -/
def raisesOnly (s : State) (x : Exc) : Outcome State Fault Refusal :=
  .next { s with port := { s.port with result := .none, outcome := x } }

/-- Operations in order on one state (30_encoding R105): what each returned, and the last state; none where
one of them has no next state. -/
def runOps : List Instr → State → Option (List Result × State)
  | [], s => some ([], s)
  | i :: is, s =>
    match exec i s with
    | .next t => (runOps is t).map fun r => (t.port.result :: r.1, r.2)
    | .fault _ => none
    | .refused _ => none

/-! ## The spec's closed forms -/

/-- Byte `i` of the `n`-th scrambled packet since a superframe start (41_scrambler R155). -/
def scrambledByte (lut : Vector Byte 1503) (n : Nat) (ts : Packet 188) (i : Fin 188) : Byte :=
  if i.val = 0 then (if n % 8 = 0 then ts[i] ^^^ 0xFF#8 else ts[i])
  else ts[i] ^^^ lut[187 * (n % 8) + (i.val - 1)]

/-- The `n`-th scrambled packet since a superframe start (R155). -/
def scrambledPacket (lut : Vector Byte 1503) (n : Nat) (ts : Packet 188) : List Byte :=
  (List.finRange 188).map (scrambledByte lut n ts)

/-- A polynomial over the field, highest power first, at `x`, by Horner's rule (42_rs_encoder R176). -/
def hornerAt (poly : List Byte) (x : Byte) : Byte := poly.foldl (fun y c => clmulMod y x ^^^ c) 0x00#8

/-- `α^i`, by repeated multiplication with `α = 0x02` (40_init_tables R121). -/
def alphaPow : Nat → Byte
  | 0 => 0x01#8
  | i + 1 => clmulMod (alphaPow i) 0x02#8

/-- The XOR of two byte sequences, element by element. -/
def xorBytes (a b : List Byte) : List Byte := List.zipWith (· ^^^ ·) a b

/-- The parity RS_ENCODE appends to `d` in state `s`. -/
def parityOf (s : State) (d : List Byte) : Option (List Byte) :=
  match exec (.rsEncode d) s with
  | .next t => match t.port.result with
    | .bytes cw => some (cw.drop 188)
    | _ => none
  | _ => none

/-- What INTERLEAVE returns for packet `n` of a stream that starts with every slot 0x00: position `p` holds the
byte that entered at `p` in packet `n − (p mod 12)`, or 0x00 (43_interleaver R196). -/
def interleavedPacket (packets : List (Packet 204)) (n : Nat) : List Byte :=
  (List.finRange 204).map fun p =>
    if p.val % 12 ≤ n then (packets.getD (n - p.val % 12) (Vector.replicate 204 0x00#8))[p] else 0x00#8

/-- The bits of a byte, bit 7 first (20_memory R62). -/
def bitsOfByte (b : Byte) : List Bool := (List.range 8).map fun r => b.getLsbD (7 - r)

/-- The input bits the encoder register holds, the latest first (10_state R28). -/
def pastBits (st : BitVec 7) : List Bool := (List.range 7).map fun k => st.getLsbD k

/-- The code bits of input bits after the past bits `past` (latest first), as the sums of 44_conv_encoder
R211: `o1 = b_t + b_{t-1} + b_{t-2} + b_{t-3} + b_{t-6}`, `o2 = b_t + b_{t-2} + b_{t-3} + b_{t-5} + b_{t-6}`
modulo 2. -/
def generatorSums (past : List Bool) : List Bool → List Bool
  | [] => []
  | b :: bs =>
    (b ^^ past.getD 0 false ^^ past.getD 1 false ^^ past.getD 2 false ^^ past.getD 5 false) ::
    (b ^^ past.getD 1 false ^^ past.getD 2 false ^^ past.getD 4 false ^^ past.getD 5 false) ::
    generatorSums (b :: past) bs

/-- Bit `n` of a PRBS table, bit 7 of byte 0 first (20_memory R64). -/
def prbsBitAt (lut : Vector Byte 1503) (n : Nat) : Bool := (lut.toList.getD (n / 8) 0#8).getLsbD (7 - n % 8)

/-- Seven bits in the opposite order (44_conv_encoder R218). -/
def reversed (st : BitVec 7) : BitVec 7 :=
  BitVec.ofBoolListBE [st.getLsbD 0, st.getLsbD 1, st.getLsbD 2, st.getLsbD 3, st.getLsbD 4, st.getLsbD 5, st.getLsbD 6]

/-- `Σ_k lane[k]·taps[k·U + j]` over the reals, the terms whose tap index is above `N − 1` omitted (46_rrc_shaper
R244, R245). -/
noncomputable def phaseSum (taps : List ℝ) (n u j : Nat) (lane : List ℝ) : ℝ :=
  ∑ k ∈ Finset.range lane.length, if k * u + j < n then lane.getD k 0 * taps.getD (k * u + j) 0 else 0

/-- The sum of `phaseSum` in an arithmetic of any type: from the accumulator 0, `k` ascending, each product and
each sum that arithmetic's own (46_rrc_shaper R246). -/
def phaseSumIn {K : Type} (A : Arith K) (taps : List K) (n u j : Nat) (lane : List K) : K :=
  (List.range lane.length).foldl
    (fun acc k =>
      if k * u + j < n then A.add acc (A.mul (lane.getD k A.zero) (taps.getD (k * u + j) A.zero)) else acc)
    A.zero

/-- Sample `n` of the symbols `xs` from a zero history, over the reals: `Σ_m x_m·taps[n − m·U]` over
`0 ≤ n − m·U ≤ N − 1` (46_rrc_shaper R249). -/
noncomputable def convolutionAt (taps : List ℝ) (len u n : Nat) (xs : List ℝ) : ℝ :=
  ∑ m ∈ Finset.range xs.length,
    if m * u ≤ n ∧ n - m * u < len then xs.getD m 0 * taps.getD (n - m * u) 0 else 0

/-- `a`, negated if `b` is 1 (45_qpsk_mapper R231). -/
def signed (b : Bool) (a : Num) : Num := if b then exactNeg a else a

/-- `b` is the signed byte of `v` saturated to `[-128, 127]` and truncated toward zero (47_pipeline R279). -/
def TruncatedByte (v : ℝ) (b : Byte) : Prop :=
  (127 ≤ v → b.toInt = 127) ∧ (v ≤ -128 → b.toInt = -128) ∧
    (-128 < v → v < 127 → 0 ≤ v → (b.toInt : ℝ) ≤ v ∧ v < b.toInt + 1) ∧
    (-128 < v → v < 127 → v < 0 → v ≤ b.toInt ∧ (b.toInt : ℝ) - 1 < v)

/-- `b` is a cast of `v` (R279): a signed byte less than 1 away from `v` saturated, with the default rounding `v`
truncated toward zero. -/
def CastOf (r : Config.Rounding) (v : Num) (b : Byte) : Prop :=
  |(b.toInt : ℝ) - max (-128) (min 127 (realValue v))| < 1 ∧ (r = .towardZero → TruncatedByte (realValue v) b)

/-- The operand of INIT passes conditions 1 to 4 of 60_exceptions R292. -/
def InitArgLegal (a : Config.InitArg) : Prop :=
  0 < a.symbolRate ∧ 0 < a.sampleRate ∧ a.sampleRate % a.symbolRate = 0 ∧ 1 ≤ a.taps ∧ a.taps % 2 = 1 ∧
    betaOutside a.beta = false

/-- `U` of an operand of INIT (47_pipeline R260). -/
def upsampling (a : Config.InitArg) : Nat := (a.sampleRate / a.symbolRate).toNat

/-- What 40_init_tables R144 asks of a stored table: `N` taps; over the reals exactly `h_i/S`, where the sum `S` is not
0; in another numeric type each a value of the type near `h_i/S`, and the table within the rule's two limits if any
table of such values is (log entry 3). -/
def TapsAcceptable (f : Config.NumType) (u n : Nat) (beta : Num) (taps : List Num) : Prop :=
  taps.length = n ∧
    (f = .exact → realValue (tapSum u n beta) ≠ 0 → phaseZeroTotal u taps = 1 ∧
      ∀ i, i < n → realValue (taps.getD i (.rat 0)) = realTapValue u n beta i) ∧
    (f ≠ .exact → (∀ i, i < n → ValueNear f (realTapValue u n beta i) (taps.getD i (.rat 0))) ∧
      ((∃ t, Conforming f u n beta t) → Conforming f u n beta taps))

/-- `T·h_i` over the reals, the three cases of 40_init_tables R138 in order. -/
noncomputable def realTap (u n : Nat) (beta : ℝ) (i : Nat) : ℝ :=
  let x : ℝ := ((i : ℝ) - ((n : ℝ) - 1) / 2) / u
  if x = 0 then 1 - beta + 4 * beta / Real.pi
  else if |(|4 * beta * x|) - 1| < 1 / 10 ^ 9 then
    beta / Real.sqrt 2 *
      ((1 + 2 / Real.pi) * Real.sin (Real.pi / (4 * beta)) + (1 - 2 / Real.pi) * Real.cos (Real.pi / (4 * beta)))
  else
    (Real.sin (Real.pi * x * (1 - beta)) + 4 * beta * x * Real.cos (Real.pi * x * (1 + beta))) /
      (Real.pi * x * (1 - (4 * beta * x) ^ 2))

/-- The reals as the numeric type (00_scope R8, R13): the amplitude is exactly `1/√2` (45_qpsk_mapper R233). -/
noncomputable def realArith : Arith ℝ := ⟨0, fun a b => a + b, fun a b => a * b, fun a => -a, 1 / Real.sqrt 2⟩

/-- A complex `Num` as a complex real. -/
noncomputable def realSample (x : Sample) : SampleOf ℝ := ⟨realValue x.i, realValue x.q⟩

/-- A CORE that INIT made and that the accepted packets `packets`, and nothing else, have gone through since (R335:
"the state equals the reset table or was reached from it by accepted packets only"; 47_pipeline R286). The
count of dropped blocks, which no packet changes, may be any number (R276, R344). -/
def InService (f : Config.NumType) (packets : List (Packet 188)) (e : Encoder) : Prop :=
  (∀ ts ∈ packets, ts[0] = 0x47#8) ∧
    ∃ (a : Config.InitArg) (start : Encoder) (drops : Nat), initEncoder f a = .ok start ∧
      e = { packets.foldl (fun e ts => (pushPacket f e ts.toList).2) start with syncLossCount := drops }

/-- The premises of a run when packet `ts` is offered (70_reset_and_hazards R335). -/
structure RunPremises (s : State) (ts : Packet 188) : Prop where
  /-- "`mode = RUN`". -/
  running : s.enc.mode = .run
  /-- "the state equals the reset table or was reached from it by accepted packets only". -/
  reached : ∃ packets, InService s.num packets s.enc
  /-- "every packet offered has 188 bytes and first byte 0x47". -/
  offered : (Instr.pushPacket ts).wf = true
  /-- "one agent owns the state": the callback has no move that reaches the CORE (R345). -/
  owner : ∀ i, breach s .consumer i = none → i = .queuePop ∨ ∃ x, i = .quantise x

/-- A CORE in RUN at the start of a stream, but for its tables, its history and its slots' content: superframe
index, PRBS cursor and interleaver cursors 0 (R43). -/
def AtStreamStart (e : Encoder) : Prop :=
  e.mode = .run ∧ e.pktIdx = 0 ∧ e.prbsPos = 0 ∧ ∀ i : Fin 12, e.fifo.cursor i = 0

/-- The counters after `n` packets since INIT (10_state R42). -/
def CountersAfter (n : Nat) (e : Encoder) : Prop :=
  e.pktIdx.val = n % 8 ∧ (n = 0 → e.prbsPos.val = 0) ∧ (n ≠ 0 → e.prbsPos.val = 187 * ((n - 1) % 8 + 1)) ∧
    ∀ i : Fin 12, i ≠ 0 → e.fifo.cursor i = (17 * n) % (17 * i.val)

end Sys2Proof.Safety
end

