-- ==== Sys2Proof/Certificates/Slice0/Obligations.lean ====
section
/-! DEFINITION. The statements for the provers, in the order of OBLIGATIONS.json: requests and steps, frames
and invariants, then one family of operations after another. -/

open Sys2Proof
open Sys2Proof.Config
open Sys2Proof.Machine
open Sys2Proof.Safety
open Host (Outcome)

/-! ## Requests and steps -/

/-- The decoder undoes the encoder, for every operation with every operand, and leaves what follows. The ids
are R100's; the operand bytes are this model's choice (log entry 6). -/
def Obligations.DecodeUndoesEncode : Prop :=
  ∀ (i : Instr) (rest : List Byte), decode (encode i ++ rest) = .ok (i, rest)

/-- Requests written out byte by byte decode to the operations they stand for (ids of R100; operand bytes of
log entry 6). -/
def Obligations.WrittenRequestsDecode : Prop :=
  decode [0x22#8] = .ok (.scrNext, []) ∧
  decode [0x24#8, 0x3B#8] = .ok (.rsStep 0x3B#8, []) ∧
  decode [0x25#8, 0x0D#8, 0xAB#8] = .ok (.ilByte 13 0xAB#8, []) ∧
  decode [0x26#8, 0x01#8] = .ok (.ccBit true, []) ∧
  decode [0x28#8, 0x01#8, 0x00#8] = .ok (.mapDibit true false, []) ∧
  decode [0x31#8, 0x53#8, 0xCA#8] = .ok (.gfMul 0x53#8 0xCA#8, []) ∧
  decode [0x43#8] = .ok (.queuePop, [])

/-- A byte that is the id of no operation is rejected under that name, whatever follows it. -/
def Obligations.UnlistedIdsNameNoOperation : Prop :=
  ∀ (op : Byte) (rest : List Byte), (∀ i : Instr, i.opId ≠ op) → decode (op :: rest) = .error (.unknownOp op)

/-- A step of a task is `exec` of the request decoded at the head of that task's bytes, unless issuing it breaks a
"must not" of R285, when the step is refused; then `settle`, which changes neither CORE, numeric type, result nor
outcome, takes the request off, unless it is a push that must wait, and keeps the host's duties: samples of a
packet owed, one of them pushed owed no more, the word on a push used up, a dropped block remembered until INIT. It
changes the boundary only for an INIT that succeeds after the producer has ended, which lets the producer go on (the
port is the model's own, log entries 7, 18 and 27). -/
def Obligations.StepRunsTheDecodedRequest : Prop :=
  (∀ (s : State) (t : Task) (i : Instr) (rest : List Byte),
    nextReport s = none → nextTask s = some t → (t = .consumer → s.bnd.token = false) →
    fetch s t = .ok (i, rest) →
    (∀ r, breach s t i = some r → step s = .refused r) ∧
    (breach s t i = none →
      (∀ v, exec i s = .next v → step s = .next (settle t i rest v)) ∧
      (∀ r, exec i s = .refused r → step s = .refused r))) ∧
  ∀ (t : Task) (i : Instr) (rest : List Byte) (v : State),
    (settle t i rest v).enc = v.enc ∧ (settle t i rest v).num = v.num ∧
    (settle t i rest v).port.result = v.port.result ∧ (settle t i rest v).port.outcome = v.port.outcome ∧
    (settle t i rest v).port.schedule = v.port.schedule.tail ∧
    (settle t i rest v).requests t = (if t = .producer ∧ v.bnd.held = true then v.requests t else rest) ∧
    (∀ t', t' ≠ t → (settle t i rest v).requests t' = v.requests t') ∧
    (v.bnd.producerEnded = false ∨ v.port.outcome ≠ .none ∨ (∀ a, i ≠ .init a) → (settle t i rest v).bnd = v.bnd) ∧
    (∀ a, i = .init a →
      (settle t i rest v).port.dropped = [] ∧ (settle t i rest v).port.origins = v.port.origins ∧
      (v.bnd.producerEnded = false ∨ v.port.outcome ≠ .none →
        (settle t i rest v).port.owed = v.port.owed ∧ (settle t i rest v).port.pushed = v.port.pushed) ∧
      (v.bnd.producerEnded = true → v.port.outcome = .none →
        (settle t i rest v).bnd = { v.bnd with producerEnded := false } ∧ (settle t i rest v).port.owed = [] ∧
        (settle t i rest v).port.pushed = v.port.pushed + v.port.owed.length)) ∧
    (∀ ts l, i = .pushPacket ts → v.port.result = .samples l →
      (settle t i rest v).port.owed = v.port.owed ++ l) ∧
    (∀ x, i = .queuePush x → v.port.result = .none →
      (settle t i rest v).port.origins = v.port.origins.tail ∧
      (paysOwed v x = true → (settle t i rest v).port.owed = v.port.owed.tail ∧
        (settle t i rest v).port.pushed = v.port.pushed + 1) ∧
      (paysOwed v x = false → (settle t i rest v).port.owed = v.port.owed ∧
        (settle t i rest v).port.pushed = v.port.pushed)) ∧
    (∀ x, i = .queuePush x → v.port.result ≠ .none →
      (settle t i rest v).port.origins = v.port.origins ∧ (settle t i rest v).port.owed = v.port.owed ∧
      (settle t i rest v).port.pushed = v.port.pushed) ∧
    (∀ x, paysOwed v x = true ↔ v.port.owed.head? = some x ∧
      (v.port.origins.head? = none ∨ v.port.origins.head? = some (.packet v.port.pushed))) ∧
    (∀ blk b, i = .frameCheck blk → v.port.outcome = .syncLoss b →
      (settle t i rest v).port.dropped = blk :: v.port.dropped)

/-- An operation presented to the machine runs in the very next step: the step answers what `exec` answers,
with the host's duties noted, the request taken off (kept, if it is a push that must wait) and the turn
taken. -/
def Obligations.PresentedOperationRuns : Prop :=
  ∀ (s : State) (i : Instr),
    (∀ v, exec i (s.withRequest i) = .next v →
      step (s.withRequest i) =
        .next { v with port := { (noteDuties i v).port with
          producer := if v.bnd.held = true then encode i else []
          schedule := [] } }) ∧
    (∀ r, exec i (s.withRequest i) = .refused r → step (s.withRequest i) = .refused r)

/-- A push on a full queue waits, keeps its request, and goes in once the consumer has popped: the four steps
producer, producer, consumer, producer end with the oldest sample delivered and the new one at the tail. -/
def Obligations.WaitingPushGoesInAfterAPop : Prop :=
  ∀ (s : State) (x q : Sample) (qs later : List Sample) (rest rest' : List Byte),
    s.enc.mode = .run → s.port.owed = x :: later → s.port.origins = [] → s.bnd.queue = q :: qs →
    s.bnd.queue.length = s.bnd.cap → s.bnd.held = false → s.bnd.producerEnded = false →
    s.bnd.token = false → s.bnd.consumerStopped = false →
    s.port.producer = encode (.queuePush x) ++ rest → s.port.consumer = encode .queuePop ++ rest' →
    s.port.schedule = [.task .producer, .task .producer, .task .consumer, .task .producer] →
    ∃ a b c d : State,
      step s = .next a ∧ step a = .next b ∧ step b = .next c ∧ step c = .next d ∧
      a.bnd = { s.bnd with held := true } ∧ a.port.producer = s.port.producer ∧ a.port.result = .waiting ∧
      b.bnd = a.bnd ∧ b.port.producer = s.port.producer ∧
      c.bnd.queue = qs ∧ c.port.result = .sample q ∧
      d.bnd.queue = qs ++ [x] ∧ d.bnd.held = false ∧ d.bnd.underflowCount = s.bnd.underflowCount ∧
      c.port.owed = x :: later ∧ d.port.owed = later ∧ d.port.producer = rest ∧ d.port.consumer = rest' ∧ d.enc = s.enc

/-- The reports of the collaborators. A producer between packets ends at the end of the stream or at a read error
and closes the queue; one that waits or owes samples does not see the report (log entry 26). A device error
and the shut-down signal set the token. Each is the outcome recorded, and the CORE is untouched (the effects
on the model's own fields are log entry 16). A producer that has ended makes no further request but INIT, which
runs in its turn and, if it succeeds, lets the producer go on, while one that fails leaves it ended (log entry 27),
and a step in which no task can move and no report
comes changes nothing but the schedule (log entry 7). -/
def Obligations.ReportsLeaveTheCoreAlone : Prop :=
  (∀ (s : State) (turns : List Turn),
    (s.port.schedule = .report .inputEOF :: turns → s.bnd.held = false → s.port.owed = [] →
      step s = .next { s with
        bnd := { s.bnd with producerEnded := true, closed := true }
        port := { s.port with schedule := turns, result := .none, outcome := .inputEOF } }) ∧
    (s.port.schedule = .report .inputReadError :: turns → s.bnd.held = false → s.port.owed = [] →
      step s = .next { s with
        bnd := { s.bnd with producerEnded := true, closed := true }
        port := { s.port with schedule := turns, result := .none, outcome := .inputReadError } }) ∧
    (s.port.schedule = .report .inputEOF :: turns ∨ s.port.schedule = .report .inputReadError :: turns →
      s.bnd.held = true ∨ s.port.owed ≠ [] → step s = .next { s with port := { s.port with schedule := turns } }) ∧
    (s.port.schedule = .report .deviceError :: turns →
      step s = .next { s with
        bnd := { s.bnd with token := true }
        port := { s.port with schedule := turns, result := .none, outcome := .deviceError } }) ∧
    (s.port.schedule = .report .shutdown :: turns →
      step s = .next { s with
        bnd := { s.bnd with token := true }
        port := { s.port with schedule := turns, result := .none, outcome := .none } })) ∧
  (∀ s u : State, s.bnd.producerEnded = true → s.bnd.held = false → initRequested s = false → step s = .next u →
    u.enc = s.enc ∧ u.port.producer = s.port.producer ∧ u.bnd.producerEnded = true) ∧
  (∀ (s : State) (a : InitArg) (rest : List Byte) (turns : List Turn), s.bnd.producerEnded = true →
    s.bnd.held = false → s.port.schedule = .task .producer :: turns → fetch s .producer = .ok (.init a, rest) →
    ∃ v u : State, exec (.init a) s = .next v ∧ step s = .next u ∧ u.enc = v.enc ∧
      u.port.outcome = v.port.outcome ∧ u.port.producer = rest ∧ u.port.schedule = turns ∧
      (v.port.outcome = .none → u.bnd = { s.bnd with producerEnded := false } ∧ u.port.owed = []) ∧
      (v.port.outcome ≠ .none → u.bnd = s.bnd ∧ u.port.owed = s.port.owed)) ∧
  ∀ s : State, nextReport s = none → nextTask s = none →
    step s = .next { s with port := { s.port with schedule := s.port.schedule.tail } }

/-- A step of the consumer never changes the CORE; the consumer is refused every operation but QUEUE_POP and
QUANTISE, which complete in RUN; and where the token is set it returns the sentinel, stops, and the producer
is joined, a push of it that waits being given up (the fields of this are log entries 7, 16, 26 and 27). -/
def Obligations.ConsumerOnlyPopsAndQuantises : Prop :=
  ∀ s : State, nextReport s = none → nextTask s = some .consumer →
    (∀ u, step s = .next u → u.enc = s.enc) ∧
    (∀ i rest, s.bnd.token = false → fetch s .consumer = .ok (i, rest) →
      (s.enc.mode = .run → (i = .queuePop ∨ ∃ x, i = .quantise x) → ∃ v, step s = .next v) ∧
      (i ≠ .queuePop → (∀ x, i ≠ .quantise x) → step s = .refused .notForConsumer)) ∧
    (s.bnd.token = true → ∃ left : List Byte,
      (s.bnd.held = false → left = s.port.producer) ∧
      (∀ i rest, s.bnd.held = true → fetch s .producer = .ok (i, rest) → left = rest) ∧
      step s = .next { s with
        bnd := { s.bnd with held := false, consumerStopped := true, producerEnded := true }
        port := { s.port with producer := left, schedule := s.port.schedule.tail, result := .sentinel,
                              outcome := .none
                              origins := if s.bnd.held = true then s.port.origins.tail else s.port.origins } })

/-! ## Invariants and frames -/

/-- Every step keeps a sound state sound: in RUN the configuration is legal, the tables are the built ones, the
history has its length, the taps are normalised; and the queue is within its capacity. -/
def Obligations.StepKeepsSound : Prop := ∀ s u : State, Sound s → step s = .next u → Sound u

/-- The state after reset is sound (the operand of its INIT is the default configuration, log entry 12). -/
def Obligations.ResetIsSound : Prop := Sound State.reset

/-- Only INIT writes the mode, the configuration record and the five tables; a builder issued alone writes none, and
its ConfigError leaves the mode (log entry 10). -/
def Obligations.OnlyInitWritesTheTables : Prop :=
  ∀ (i : Instr) (s u : State), (∀ a, i ≠ .init a) → exec i s = .next u →
    u.enc.mode = s.enc.mode ∧ u.enc.cfg = s.enc.cfg ∧ u.enc.gfExp = s.enc.gfExp ∧ u.enc.gfLog = s.enc.gfLog ∧
      u.enc.g = s.enc.g ∧ u.enc.prbsLut = s.enc.prbsLut ∧ u.enc.taps = s.enc.taps

/-- THE FRAME of every operation: each register of the CORE is changed only by the operations of its own stage
(and by the lifecycle operations), the boundary only by QUEUE_PUSH and QUEUE_POP, which with QUANTISE leave
the CORE alone, and no operation touches the numeric type, or the requests, the schedule or the host's duties
in the port. -/
def Obligations.EachElementIsWrittenOnlyByItsStage : Prop :=
  ∀ (i : Instr) (s u : State), exec i s = .next u →
    (i.opId ∉ [0x00#8, 0x01#8, 0x10#8, 0x22#8] → u.enc.pktIdx = s.enc.pktIdx) ∧
    (i.opId ∉ [0x00#8, 0x01#8, 0x10#8, 0x20#8, 0x21#8] → u.enc.prbsPos = s.enc.prbsPos) ∧
    (i.opId ∉ [0x00#8, 0x01#8, 0x11#8, 0x23#8, 0x24#8] → u.enc.rem = s.enc.rem) ∧
    (i.opId ∉ [0x00#8, 0x01#8, 0x12#8, 0x25#8] → u.enc.fifo = s.enc.fifo) ∧
    (i.opId ∉ [0x00#8, 0x01#8, 0x13#8, 0x26#8, 0x27#8] → u.enc.ccState = s.enc.ccState) ∧
    (i.opId ∉ [0x00#8, 0x01#8, 0x15#8, 0x29#8] → u.enc.hist = s.enc.hist) ∧
    (i.opId ∉ [0x00#8, 0x40#8] → u.enc.syncLossCount = s.enc.syncLossCount) ∧
    (i.opId ∉ [0x42#8, 0x43#8] → u.bnd = s.bnd) ∧
    (i.opId ∈ [0x41#8, 0x42#8, 0x43#8] → u.enc = s.enc) ∧
    u.port.producer = s.port.producer ∧ u.port.consumer = s.port.consumer ∧ u.port.schedule = s.port.schedule ∧
    u.port.origins = s.port.origins ∧ u.port.owed = s.port.owed ∧ u.port.pushed = s.port.pushed ∧
    u.port.dropped = s.port.dropped ∧ u.num = s.num

/-- What the operations of a stage return and leave depends on that stage's own elements alone, and in the mapper
and the shaper on the numeric type: two COREs in RUN that agree on them cannot be told apart by those operations. -/
def Obligations.StagesReadOnlyTheirOwnState : Prop :=
  ∀ (i : Instr) (s t : State), s.enc.mode = .run → t.enc.mode = .run →
    ∃ u v : State, exec i s = .next u ∧ exec i t = .next v ∧
      (i.opId ∈ [0x10#8, 0x20#8, 0x21#8, 0x22#8] → s.enc.pktIdx = t.enc.pktIdx → s.enc.prbsPos = t.enc.prbsPos →
        s.enc.prbsLut = t.enc.prbsLut →
        u.port.result = v.port.result ∧ u.enc.pktIdx = v.enc.pktIdx ∧ u.enc.prbsPos = v.enc.prbsPos) ∧
      (i.opId ∈ [0x11#8, 0x23#8, 0x24#8] → s.enc.rem = t.enc.rem → s.enc.g = t.enc.g →
        s.enc.gfExp = t.enc.gfExp → s.enc.gfLog = t.enc.gfLog →
        u.port.result = v.port.result ∧ u.port.outcome = v.port.outcome ∧ u.enc.rem = v.enc.rem) ∧
      (i.opId ∈ [0x12#8, 0x25#8] → s.enc.fifo = t.enc.fifo →
        u.port.result = v.port.result ∧ u.enc.fifo = v.enc.fifo) ∧
      (i.opId ∈ [0x13#8, 0x26#8, 0x27#8] → s.enc.ccState = t.enc.ccState →
        u.port.result = v.port.result ∧ u.enc.ccState = v.enc.ccState) ∧
      (i.opId ∈ [0x14#8, 0x28#8] → s.num = t.num → u.port.result = v.port.result) ∧
      (i.opId ∈ [0x15#8, 0x29#8] → s.num = t.num → s.enc.hist = t.enc.hist → s.enc.taps = t.enc.taps → s.enc.cfg = t.enc.cfg →
        u.port.result = v.port.result ∧ u.enc.hist = v.enc.hist)

/-- ADMISSION. Outside RUN every operation of formats L, S, E and B other than INIT is refused, with no next
state; in RUN every operation has a next state; INIT and the operations of format T have one in every mode
(that format B is refused too is log entry 17). -/
def Obligations.AdmissionDependsOnTheMode : Prop :=
  ∀ (i : Instr) (s : State),
    (s.enc.mode ≠ .run → i.opId ≠ 0x00#8 → i.opId.toNat < 0x30 ∨ 0x40 ≤ i.opId.toNat →
      exec i s = .refused (.notAdmitted s.enc.mode)) ∧
    (s.enc.mode = .run → ∃ u, exec i s = .next u) ∧
    (i.opId = 0x00#8 ∨ 0x30 ≤ i.opId.toNat ∧ i.opId.toNat < 0x40 → ∃ u, exec i s = .next u)

/-- SCRAMBLE, INTERLEAVE, CONV_ENCODE and QPSK_MAP are their element operations in order, in every state of RUN:
the same output and the same CORE, and nothing else changes. -/
def Obligations.StageOperationsAreTheirElements : Prop :=
  ∀ s : State, s.enc.mode = .run →
    (∀ ts : Packet 188, ∃ (out : List Byte) (u : State),
      runOps (Instr.scrByte0 ts[0] :: (ts.toList.tail.map Instr.scrByte ++ [Instr.scrNext])) s =
        some (out.map Result.byte ++ [Result.none], u) ∧
      exec (.scramble ts) s = completes s u.enc (.bytes out)) ∧
    (∀ rs : Packet 204, ∃ (out : List Byte) (u : State),
      runOps ((List.finRange 204).map fun p => Instr.ilByte p rs[p]) s = some (out.map Result.byte, u) ∧
      exec (.interleave rs) s = completes s u.enc (.bytes out)) ∧
    (∀ il : List Byte, ∃ (out : List (List Bool)) (u : State),
      runOps (il.map Instr.ccByte) s = some (out.map Result.codeBits, u) ∧
      exec (.convEncode il) s = completes s u.enc (.codeBits out.flatten)) ∧
    ∀ cb : List (Bool × Bool), ∃ (out : List Sample) (u : State),
      runOps (cb.map fun d => Instr.mapDibit d.1 d.2) s = some (out.map Result.point, u) ∧
      exec (.qpskMap cb) s = completes s u.enc (.points out)

/-! ## Scrambler -/

/-- SCR_BYTE0: inverted and the cursor reset at a superframe start, else copied. -/
def Obligations.ScrByte0InvertsAtASuperframeStart : Prop :=
  ∀ (b : Byte) (s : State), s.enc.mode = .run →
    (s.enc.pktIdx = 0 →
      exec (.scrByte0 b) s = completes s { s.enc with prbsPos := 0 } (.byte (b ^^^ 0xFF#8))) ∧
    (s.enc.pktIdx ≠ 0 → exec (.scrByte0 b) s = completes s s.enc (.byte b))

/-- SCR_BYTE: XOR with the table byte at the cursor, which moves on modulo 1503. -/
def Obligations.ScrByteXorsTheTableByte : Prop :=
  ∀ (b : Byte) (s : State), s.enc.mode = .run →
    exec (.scrByte b) s =
      completes s { s.enc with prbsPos := ⟨(s.enc.prbsPos.val + 1) % 1503, Nat.mod_lt _ (by decide)⟩ }
        (.byte (b ^^^ s.enc.prbsLut[s.enc.prbsPos]))

/-- SCR_NEXT: the superframe index moves on modulo 8. -/
def Obligations.ScrNextAdvancesTheSuperframe : Prop :=
  ∀ s : State, s.enc.mode = .run →
    exec .scrNext s =
      completes s { s.enc with pktIdx := ⟨(s.enc.pktIdx.val + 1) % 8, Nat.mod_lt _ (by decide)⟩ } .none

/-- THE CLOSED FORM of the scrambler: from a superframe start, packet `n` comes out XORed with the table from
index `187·(n mod 8)` on, its first byte inverted exactly when `n mod 8 = 0`. -/
def Obligations.ScramblerClosedForm : Prop :=
  ∀ (s : State) (packets : List (Packet 188)), s.enc.mode = .run → s.enc.pktIdx = 0 →
    ∃ u : State,
      runOps (packets.map Instr.scramble) s =
        some (packets.zipIdx.map fun e => Result.bytes (scrambledPacket s.enc.prbsLut e.2 e.1), u) ∧
      u.enc = { s.enc with pktIdx := u.enc.pktIdx, prbsPos := u.enc.prbsPos } ∧ u.bnd = s.bnd ∧
      u.enc.pktIdx.val = packets.length % 8 ∧
      (packets = [] → u.enc.prbsPos = s.enc.prbsPos) ∧
      (packets ≠ [] → u.enc.prbsPos.val = 187 * ((packets.length - 1) % 8 + 1))

/-- Scrambling is XOR with a mask that only the scrambler's own state decides, and so a second scrambler in the
same state gives the packets back. -/
def Obligations.ScramblingIsAnInvolution : Prop :=
  ∀ s t : State, s.enc.mode = .run → t.enc.mode = .run → s.enc.pktIdx = t.enc.pktIdx →
    s.enc.prbsPos = t.enc.prbsPos → s.enc.prbsLut = t.enc.prbsLut →
    (∃ mask : Packet 188, (mask[0] = 0xFF#8 ∨ mask[0] = 0x00#8) ∧
      (∀ k (h : k < 188), k ≠ 0 → mask[k] ∈ s.enc.prbsLut.toList) ∧
      ∀ ts : Packet 188, ∃ u v : State, exec (.scramble ts) s = .next u ∧ exec (.scramble ts) t = .next v ∧
        u.port.result = .bytes (xorBytes ts.toList mask.toList) ∧
        v.port.result = .bytes (xorBytes ts.toList mask.toList)) ∧
    ∀ (packets outs : List (Packet 188)) (u : State),
      runOps (packets.map Instr.scramble) s = some (outs.map fun p => Result.bytes p.toList, u) →
      ∃ v : State,
        runOps (outs.map Instr.scramble) t = some (packets.map fun p => Result.bytes p.toList, v) ∧
        v.enc.pktIdx = u.enc.pktIdx ∧ v.enc.prbsPos = u.enc.prbsPos

/-! ## Reed-Solomon encoder -/

/-- RS_CLEAR zeroes the register; RS_STEP gives every byte of it the one after it XOR the product of its
coefficient of `g` and the feedback, whatever the feedback is. -/
def Obligations.RsElementsUpdateTheRemainder : Prop :=
  ∀ (d : Byte) (s : State), s.enc.mode = .run →
    exec .rsClear s = completes s { s.enc with rem := Vector.replicate 16 0x00#8 } .none ∧
    exec (.rsStep d) s =
      completes s
        { s.enc with
          rem := Vector.ofFn fun k : Fin 16 =>
            (if h : k.val < 15 then s.enc.rem[k.val + 1] else 0x00#8) ^^^
              gfMulWith s.enc.gfExp s.enc.gfLog s.enc.g[k.val + 1] (d ^^^ s.enc.rem[0]) }
        .none

/-- RS_ENCODE keeps the data and appends the register that RS_CLEAR and one RS_STEP for each byte leave. -/
def Obligations.RsEncodeIsSystematic : Prop :=
  ∀ (d : List Byte) (s : State), s.enc.mode = .run → d.length = 188 →
    ∃ (parity : Vector Byte 16) (u : State),
      exec (.rsEncode d) s = completes s { s.enc with rem := parity } (.bytes (d ++ parity.toList)) ∧
      (∃ rs, runOps (.rsClear :: d.map Instr.rsStep) s = some (rs, u)) ∧ u.enc = { s.enc with rem := parity }

/-- DIVISIBILITY. The codeword RS_ENCODE returns, byte 0 the highest coefficient, is zero at `α^0, …, α^15`. -/
def Obligations.CodewordVanishesAtTheRoots : Prop :=
  ∀ (d : List Byte) (s : State), Sound s → s.enc.mode = .run → d.length = 188 →
    ∃ (cw : List Byte) (u : State), exec (.rsEncode d) s = .next u ∧ u.port.result = .bytes cw ∧
      cw.length = 204 ∧ ∀ i, i < 16 → hornerAt cw (alphaPow i) = 0x00#8

/-- The parity is linear in the data: over XOR, over multiplication by a field element, and zero for zero. -/
def Obligations.ParityIsLinear : Prop :=
  ∀ (a b : List Byte) (s : State), Sound s → s.enc.mode = .run → a.length = 188 → b.length = 188 →
    ∃ pa pb : List Byte, parityOf s a = some pa ∧ parityOf s b = some pb ∧
      parityOf s (xorBytes a b) = some (xorBytes pa pb) ∧
      (∀ v : Byte, parityOf s (a.map (clmulMod v)) = some (pa.map (clmulMod v))) ∧
      parityOf s (List.replicate 188 0x00#8) = some (List.replicate 16 0x00#8)

/-- RS_ENCODE of another length than 188 raises RsLengthError with the length and changes no state; PUSH_PACKET
never raises it. -/
def Obligations.RsEncodeOfAnotherLengthRaises : Prop :=
  ∀ s : State, s.enc.mode = .run →
    (∀ d : List Byte, d.length ≠ 188 → exec (.rsEncode d) s = raisesOnly s (.rsLengthError d.length)) ∧
    ∀ (ts : Packet 188) (u : State) (n : Nat), exec (.pushPacket ts) s = .next u → u.port.outcome ≠ .rsLengthError n

/-! ## Table builders -/

/-- GF_BUILD returns the powers of `α` and their logarithms and writes no table (log entry 10). -/
def Obligations.GfBuildGivesPowersAndLogs : Prop :=
  ∀ s : State, ∃ (exp : Vector Byte 511) (log : Vector (Fin 255) 255),
    exec .gfBuild s = completes s s.enc (.fieldTables exp log) ∧
    exp[0] = 0x01#8 ∧
    (∀ i (h : i < 510), exp[i + 1] = clmulMod exp[i] 0x02#8) ∧
    (∀ e (h : e ≤ 508), exp[e] = exp[e % 255]) ∧
    (∀ k (h : k < 255), exp[(log[k]).val] = BitVec.ofNat 8 (k + 1)) ∧
    ∀ i : Fin 255, log[(exp[i.val]).toNat - 1]'(by have := (exp[i.val]).isLt; omega) = i

/-- GF_MUL by its tables: zero for a zero operand, else the entry of `gf_exp` at the sum of the logarithms, in
RUN the CORE's own tables; outside RUN it is the product in the field (log entry 11). -/
def Obligations.GfMulAddsTheLogs : Prop :=
  ∀ (a b : Byte) (s : State),
    (a = 0x00#8 ∨ b = 0x00#8 → exec (.gfMul a b) s = completes s s.enc (.byte 0x00#8)) ∧
    (a ≠ 0x00#8 → b ≠ 0x00#8 → s.enc.mode = .run →
      exec (.gfMul a b) s =
        completes s s.enc
          (.byte (s.enc.gfExp.toList.getD
            ((s.enc.gfLog.toList.getD (a.toNat - 1) 0).val + (s.enc.gfLog.toList.getD (b.toNat - 1) 0).val) 0x00#8))) ∧
    (s.enc.mode ≠ .run → exec (.gfMul a b) s = completes s s.enc (.byte (clmulMod a b)))

/-- THE FIELD. The product by the built tables is the carry-less product modulo 0x11D; it is commutative,
associative, distributes over XOR, has identity 0x01 and annihilator 0x00, and has no zero divisors. -/
def Obligations.GfMulIsTheFieldProduct : Prop :=
  ∀ a b c : Byte,
    gfMulWith gfExpTable gfLogTable a b = clmulMod a b ∧
    clmulMod a b = clmulMod b a ∧
    clmulMod (clmulMod a b) c = clmulMod a (clmulMod b c) ∧
    clmulMod a (b ^^^ c) = clmulMod a b ^^^ clmulMod a c ∧
    clmulMod a 0x01#8 = a ∧ clmulMod a 0x00#8 = 0x00#8 ∧
    (clmulMod a b = 0x00#8 → a = 0x00#8 ∨ b = 0x00#8)

/-- RSGEN_BUILD returns a monic polynomial of degree 16 that is zero at `α^0, …, α^15`, and writes no table
(log entry 10). -/
def Obligations.GeneratorHasTheSixteenRoots : Prop :=
  ∀ s : State, ∃ g : Vector Byte 17,
    exec .rsgenBuild s = completes s s.enc (.generator g) ∧ g[0] = 0x01#8 ∧
    ∀ i, i < 16 → hornerAt g.toList (alphaPow i) = 0x00#8

/-- PRBS_BUILD returns the supplied bytes, or table A: its first fifteen bits from the initial register and
every later bit the XOR of those 14 and 15 before it; it writes no table (log entry 10). -/
def Obligations.PrbsBuildFollowsTheRecurrence : Prop :=
  ∀ (src : PrbsSource) (s : State), ∃ lut : Vector Byte 1503,
    exec (.prbsBuild src) s = completes s s.enc (.prbs lut) ∧
    (∀ given, src = .table given → lut = given) ∧
    (src = .recurrence →
      (List.range 15).map (prbsBitAt lut) =
        [false, false, false, false, false, false, true, true, true, true, true, true, false, true, true] ∧
      ∀ n, 15 ≤ n → n < 12024 → prbsBitAt lut n = (prbsBitAt lut (n - 14) ^^ prbsBitAt lut (n - 15)))

/-- RRC_TAPS_BUILD, on every operand, a rational number or any other: the first condition that holds of the real
numbers is reported and nothing changes; else it returns taps that R144 allows, over the reals exactly `h_i/S` (log
entries 3 and 10). -/
def Obligations.RrcTapsBuildChecksThenBuilds : Prop :=
  ∀ (u n : Int) (beta : Sys2Proof.Num) (s : State),
    (u < 1 → exec (.rrcTapsBuild u n beta) s = raisesOnly s (.configError 2)) ∧
    (1 ≤ u → n < 1 ∨ n % 2 = 0 → exec (.rrcTapsBuild u n beta) s = raisesOnly s (.configError 3)) ∧
    (1 ≤ u → 1 ≤ n → n % 2 = 1 → realValue beta < 0 ∨ 1 < realValue beta →
      exec (.rrcTapsBuild u n beta) s = raisesOnly s (.configError 4)) ∧
    (1 ≤ u → 1 ≤ n → n % 2 = 1 → 0 ≤ realValue beta → realValue beta ≤ 1 →
      realValue (tapSum u.toNat n.toNat beta) = 0 →
      exec (.rrcTapsBuild u n beta) s = raisesOnly s (.configError 5)) ∧
    (1 ≤ u → 1 ≤ n → n % 2 = 1 → 0 ≤ realValue beta → realValue beta ≤ 1 →
      realValue (tapSum u.toNat n.toNat beta) ≠ 0 →
      ∃ taps, exec (.rrcTapsBuild u n beta) s = completes s s.enc (.taps taps) ∧
        TapsAcceptable s.num u.toNat n.toNat beta taps)

/-- The raw taps are symmetric about the centre, over the reals. -/
def Obligations.RawTapsAreSymmetric : Prop :=
  ∀ (u n : Nat) (beta : Sys2Proof.Num) (i : Nat), n % 2 = 1 → i < n →
    realValue ((rawTaps u n beta).getD i (.rat 0)) = realValue ((rawTaps u n beta).getD (n - 1 - i) (.rat 0))

/-- SOUNDNESS of the real arithmetic behind the taps (log entry 5). Every enclosure holds the real number, and that of
a sine of a rational multiple of `π` is narrower than 1e-18. The model's sign of a number, and its comparison of two,
are those of the real numbers, whichever numbers these are. The raw tap it builds is `T·h_i`, the three cases of
R138 over the reals with the test of R139, for every roll-off that is not negative. -/
def Obligations.SineIsAccurate : Prop :=
  (∀ (e : Sys2Proof.Num) (a : Interval), enclosure e = some a → (a.lo : ℝ) ≤ realValue e ∧ realValue e ≤ (a.hi : ℝ)) ∧
  (∀ q : ℚ, ∃ a : Interval, enclosure (.sinPi (.rat q)) = some a ∧ a.hi - a.lo ≤ 1 / 10 ^ 18) ∧
  (∀ e : Sys2Proof.Num, (sign e = .lt ↔ realValue e < 0) ∧ (sign e = .eq ↔ realValue e = 0) ∧
    (sign e = .gt ↔ 0 < realValue e)) ∧
  (∀ a b : Sys2Proof.Num, lessThan a b = true ↔ realValue a < realValue b) ∧
  ∀ (u n : Nat) (beta : Sys2Proof.Num) (i : Nat), 1 ≤ u → n % 2 = 1 → 0 ≤ realValue beta → i < n →
    realValue ((rawTaps u n beta).getD i (.rat 0)) = realTap u n (realValue beta) i

/-! ## Interleaver -/

/-- IL_BYTE: branch 0 passes the byte; another branch returns the slot at its cursor, puts the byte there and
moves its cursor on; every other slot, every other space and every other cursor is as before. -/
def Obligations.IlByteExchangesOneSlot : Prop :=
  ∀ (p : Fin 204) (b : Byte) (i : Fin 12) (s : State), s.enc.mode = .run → i.val = p.val % 12 →
    ∃ (out : Byte) (f : Fifos),
      exec (.ilByte p b) s = completes s { s.enc with fifo := f } (.byte out) ∧
      (i = 0 → out = b ∧ f = s.enc.fifo) ∧
      (i ≠ 0 → s.enc.memRead (.fifo i) (s.enc.fifo.cursor i) = some out ∧
        ({ s.enc with fifo := f } : Encoder).memRead (.fifo i) (s.enc.fifo.cursor i) = some b ∧
        f.cursor i = (s.enc.fifo.cursor i + 1) % (17 * i.val)) ∧
      (∀ j, j ≠ i → f.cursor j = s.enc.fifo.cursor j) ∧
      ∀ space idx, ¬(i ≠ 0 ∧ space = .fifo i ∧ idx = s.enc.fifo.cursor i) →
        ({ s.enc with fifo := f } : Encoder).memRead space idx = s.enc.memRead space idx

/-- ONE LAP. A byte written to branch `i > 0` is returned by the `17·i`-th later IL_BYTE on that branch, whatever
goes to the other branches in between. -/
def Obligations.IlByteReturnsOneLapLater : Prop :=
  ∀ (s : State) (p q : Fin 204) (b c : Byte) (between : List (Fin 204 × Byte)), s.enc.mode = .run →
    p.val % 12 ≠ 0 → q.val % 12 = p.val % 12 →
    (between.filter fun e => e.1.val % 12 == p.val % 12).length + 1 = 17 * (p.val % 12) →
    ∃ (rs : List Result) (u : State),
      runOps (Instr.ilByte p b :: (between.map (fun e => Instr.ilByte e.1 e.2) ++ [Instr.ilByte q c])) s =
        some (rs ++ [.byte b], u)

/-- THE DELAY LAW. From empty delay lines, the byte at position `p` of packet `n` is the one that entered at `p`
in packet `n − (p mod 12)`, and 0x00 where there is no such packet. -/
def Obligations.InterleaverDelaysByBranch : Prop :=
  ∀ (s : State) (packets : List (Packet 204)), s.enc.mode = .run → s.enc.fifo = Fifos.zero →
    ∃ u : State,
      runOps (packets.map Instr.interleave) s =
        some ((List.range packets.length).map fun n => Result.bytes (interleavedPacket packets n), u) ∧
      u.enc = { s.enc with fifo := u.enc.fifo } ∧ u.bnd = s.bnd

/-- THE CURSOR LAW. After `n` whole packets from cursors 0, `cur[i] = (17·n) mod (17·i) = 17·(n mod i)`, and all
are 0 again after 27720 packets. -/
def Obligations.CursorsFollowThePacketCount : Prop :=
  ∀ (s : State) (packets : List (Packet 204)), s.enc.mode = .run → (∀ i : Fin 12, s.enc.fifo.cursor i = 0) →
    ∃ (rs : List Result) (u : State), runOps (packets.map Instr.interleave) s = some (rs, u) ∧
      ∀ i : Fin 12, i ≠ 0 →
        u.enc.fifo.cursor i = (17 * packets.length) % (17 * i.val) ∧
        u.enc.fifo.cursor i = 17 * (packets.length % i.val) ∧
        (packets.length % 27720 = 0 → u.enc.fifo.cursor i = 0)

/-! ## Convolutional encoder -/

/-- CC_BIT: the bit is shifted in at bit 0 and both code bits are the generator sums of the new register. -/
def Obligations.CcBitShiftsThenSums : Prop :=
  ∀ (b : Bool) (s : State), s.enc.mode = .run →
    exec (.ccBit b) s =
      completes s { s.enc with ccState := (s.enc.ccState <<< 1) ||| (if b then 1#7 else 0#7) }
        (.dibit
          (b ^^ s.enc.ccState.getLsbD 0 ^^ s.enc.ccState.getLsbD 1 ^^ s.enc.ccState.getLsbD 2 ^^ s.enc.ccState.getLsbD 5)
          (b ^^ s.enc.ccState.getLsbD 1 ^^ s.enc.ccState.getLsbD 2 ^^ s.enc.ccState.getLsbD 4 ^^ s.enc.ccState.getLsbD 5))

/-- CC_BYTE and CONV_ENCODE: the code bits are the generator sums over the bits of the bytes, bit 7 first, and
the register holds the last seven bits entered. -/
def Obligations.ConvEncodeIsTheGeneratorSums : Prop :=
  ∀ s : State, s.enc.mode = .run →
    (∀ b : Byte, exec (.ccByte b) s =
      completes s { s.enc with ccState := b.setWidth 7 }
        (.codeBits (generatorSums (pastBits s.enc.ccState) (bitsOfByte b)))) ∧
    ∀ il : List Byte, exec (.convEncode il) s =
      completes s { s.enc with ccState := (il.getLast?.map fun b => b.setWidth 7).getD s.enc.ccState }
        (.codeBits (generatorSums (pastBits s.enc.ccState) (il.flatMap bitsOfByte)))

/-- LINEARITY, the exact law: from a common start state, the code of `a XOR b` is the code of `a` XOR the code
of `b` from state 0. -/
def Obligations.ConvEncodeIsLinear : Prop :=
  ∀ (a b : List Byte) (s z : State), s.enc.mode = .run → z.enc.mode = .run → z.enc.ccState = 0#7 →
    a.length = b.length →
    ∃ (la lb : List Bool) (u v w : State),
      exec (.convEncode a) s = .next u ∧ u.port.result = .codeBits la ∧
      exec (.convEncode b) z = .next v ∧ v.port.result = .codeBits lb ∧
      exec (.convEncode (xorBytes a b)) s = .next w ∧ w.port.result = .codeBits (List.zipWith Bool.xor la lb)

/-- CONTINUITY: encoding two packets one after the other is encoding their concatenation. -/
def Obligations.ConvEncodeIsContinuous : Prop :=
  ∀ (a b : List Byte) (s : State), s.enc.mode = .run →
    ∃ (la lb : List Bool) (u v w : State),
      exec (.convEncode a) s = .next u ∧ u.port.result = .codeBits la ∧
      exec (.convEncode b) u = .next v ∧ v.port.result = .codeBits lb ∧
      exec (.convEncode (a ++ b)) s = .next w ∧ w.port.result = .codeBits (la ++ lb) ∧ w.enc = v.enc

/-- THE REGISTER THE OTHER WAY ROUND: the register that shifts right, with the masks 0x79 and 0x5B, gives the same
code bits and is `cc_state` reversed. -/
def Obligations.ReversedRegisterGivesTheSameBits : Prop :=
  ∀ (b : Bool) (s : State), s.enc.mode = .run →
    ∃ st : BitVec 7,
      reversed st = (reversed s.enc.ccState >>> 1) ||| (if b then 0x40#7 else 0x00#7) ∧
      exec (.ccBit b) s = completes s { s.enc with ccState := st }
        (.dibit (parity (reversed st &&& 0x79#7)) (parity (reversed st &&& 0x5B#7)))

/-! ## Mapper -/

/-- MAP_DIBIT and QPSK_MAP: the first bit of a pair decides the sign of I, the second the sign of Q, 1 meaning
negative; the pairs are mapped in order and no state is touched. -/
def Obligations.MapperSignsFollowTheBits : Prop :=
  ∀ s : State, s.enc.mode = .run →
    (∀ b1 b0 : Bool, exec (.mapDibit b1 b0) s =
      completes s s.enc (.point ⟨signed b1 (ampIn s.num), signed b0 (ampIn s.num)⟩)) ∧
    (∀ cb : List (Bool × Bool), exec (.qpskMap cb) s =
      completes s s.enc (.points (cb.map fun d => ⟨signed d.1 (ampIn s.num), signed d.2 (ampIn s.num)⟩))) ∧
    ∀ b : Bool, realValue (signed b (ampIn s.num)) = (if b then -1 else 1) * realValue (ampIn s.num)

/-- The amplitude is exactly `1/√2` over the reals, and within 2e-6 of it in 32-bit and 64-bit floating point; in
any other numeric type it is a number that near, brought into the type (its value there is free, log entry 4). -/
def Obligations.AmplitudeIsNearOneOverRootTwo : Prop :=
  realValue (ampIn .exact) = 1 / Real.sqrt 2 ∧
  |realValue (ampIn .binary32) - 1 / Real.sqrt 2| ≤ 2 / 10 ^ 6 ∧
  |realValue (ampIn .binary64) - 1 / Real.sqrt 2| ≤ 2 / 10 ^ 6 ∧
  ∀ k : Nat, ∃ q : ℚ, |(q : ℝ) - 1 / Real.sqrt 2| ≤ 2 / 10 ^ 6 ∧ ampIn (.other k) = NumType.round (.other k) (.rat q)

/-! ## Shaper -/

/-- RRC_SYMBOL: the symbol is pushed first, the oldest is discarded, and phase `j` is `Σ_k hist[k]·taps[k·U + j]` in
both lanes, the terms past the last tap omitted: in the numeric type of the instance from the accumulator 0
with `k` ascending; in the exact type that is the sum over the reals, and what the same function gives on real
numbers. -/
def Obligations.RrcSymbolPushesThenSums : Prop :=
  ∀ (x : Sample) (s : State), s.enc.mode = .run → 1 ≤ s.enc.cfg.n → 1 ≤ s.enc.cfg.u →
    s.enc.hist.length = histLength s.enc.cfg.n s.enc.cfg.u →
    exec (.rrcSymbol x) s =
      completes s { s.enc with hist := x :: s.enc.hist.dropLast }
        (.samples ((List.range s.enc.cfg.u).map fun j =>
          ⟨phaseSumIn (NumType.arith s.num) s.enc.taps s.enc.cfg.n s.enc.cfg.u j
              ((x :: s.enc.hist.dropLast).map SampleOf.i),
            phaseSumIn (NumType.arith s.num) s.enc.taps s.enc.cfg.n s.enc.cfg.u j
              ((x :: s.enc.hist.dropLast).map SampleOf.q)⟩)) ∧
    (s.num = .exact → ∀ (j : Nat) (lane : List Sys2Proof.Num),
      realValue (phaseSumIn (NumType.arith s.num) s.enc.taps s.enc.cfg.n s.enc.cfg.u j lane) =
        phaseSum (s.enc.taps.map realValue) s.enc.cfg.n s.enc.cfg.u j (lane.map realValue)) ∧
    (s.num = .exact → ∀ j : Nat,
      realSample (phaseSample (NumType.arith s.num) s.enc.taps s.enc.cfg (x :: s.enc.hist.dropLast) j) =
        phaseSample realArith (s.enc.taps.map realValue) s.enc.cfg
          ((x :: s.enc.hist.dropLast).map realSample) j)

/-- RRC_SHAPE is RRC_SYMBOL on the points in order, and it is continuous: two sequences one after the other are
their concatenation. -/
def Obligations.RrcShapeIsRrcSymbolInOrder : Prop :=
  ∀ (xs ys : List Sample) (s : State), s.enc.mode = .run →
    ∃ (ls : List (List Sample)) (ly : List Sample) (u v w : State),
      runOps (xs.map Instr.rrcSymbol) s = some (ls.map Result.samples, u) ∧
      exec (.rrcShape xs) s = completes s u.enc (.samples ls.flatten) ∧
      u.enc = { s.enc with hist := u.enc.hist } ∧ ls.flatten.length = xs.length * s.enc.cfg.u ∧
      exec (.rrcShape ys) u = .next v ∧ v.port.result = .samples ly ∧
      exec (.rrcShape (xs ++ ys)) s = .next w ∧ w.port.result = .samples (ls.flatten ++ ly) ∧ w.enc = v.enc

/-- THE CLOSED FORM of the shaper: from a zero history, sample `n` is the convolution of the taps with the symbols
upsampled by zero insertion. It is a law of the reals (the numeric type is log entry 1). -/
def Obligations.ShaperIsAConvolution : Prop :=
  ∀ (xs : List Sample) (s : State), Sound s → s.enc.mode = .run → s.num = .exact →
    s.enc.hist = List.replicate (histLength s.enc.cfg.n s.enc.cfg.u) Sample.zero →
    ∃ (l : List Sample) (u : State), exec (.rrcShape xs) s = .next u ∧ u.port.result = .samples l ∧
      l.length = xs.length * s.enc.cfg.u ∧
      ∀ n, n < xs.length * s.enc.cfg.u →
        realSample (l.getD n Sample.zero) =
          ⟨convolutionAt (s.enc.taps.map realValue) s.enc.cfg.n s.enc.cfg.u n (xs.map fun x => realValue x.i),
            convolutionAt (s.enc.taps.map realValue) s.enc.cfg.n s.enc.cfg.u n (xs.map fun x => realValue x.q)⟩

/-- THE IMPULSE RESPONSE: a unit impulse and then zeros, from a zero history, give the taps in order and then
zeros, in every numeric type that has 0 and the taps as values. -/
def Obligations.ImpulseResponseIsTheTaps : Prop :=
  ∀ (k : Nat) (s : State), Sound s → s.enc.mode = .run →
    NumType.round s.num (.rat 0) = .rat 0 → (∀ t ∈ s.enc.taps, NumType.round s.num t = t) →
    s.enc.hist = List.replicate (histLength s.enc.cfg.n s.enc.cfg.u) Sample.zero →
    ∃ u : State,
      runOps (Instr.rrcSymbol ⟨.rat 1, .rat 0⟩ :: List.replicate k (Instr.rrcSymbol Sample.zero)) s =
        some ((List.range (k + 1)).map fun m =>
          Result.samples ((List.range s.enc.cfg.u).map fun j =>
            ⟨if m * s.enc.cfg.u + j < s.enc.cfg.n then s.enc.taps.getD (m * s.enc.cfg.u + j) (.rat 0) else .rat 0,
              .rat 0⟩), u)

/-- THE LANES ARE INDEPENDENT: the I outputs depend on the I inputs only, the Q outputs on the Q inputs only. -/
def Obligations.LanesAreIndependent : Prop :=
  ∀ (xs ys : List Sample) (s t : State), s.enc.mode = .run → t.enc.mode = .run → s.num = t.num →
    s.enc.cfg = t.enc.cfg → s.enc.taps = t.enc.taps →
    ∃ (l m : List Sample) (u v : State),
      exec (.rrcShape xs) s = .next u ∧ u.port.result = .samples l ∧
      exec (.rrcShape ys) t = .next v ∧ v.port.result = .samples m ∧
      (s.enc.hist.map SampleOf.i = t.enc.hist.map SampleOf.i → xs.map SampleOf.i = ys.map SampleOf.i →
        l.map SampleOf.i = m.map SampleOf.i) ∧
      (s.enc.hist.map SampleOf.q = t.enc.hist.map SampleOf.q → xs.map SampleOf.q = ys.map SampleOf.q →
        l.map SampleOf.q = m.map SampleOf.q)

/-- STEADY STATE, over the reals: when the last `H` symbols all equal `x`, phase `j` emits `x` times the sum of its
taps, which for phase 0 is 1, so that its sample is `x` (wherever the normalisation sum is not 0, which condition
5 of R292 asks; the numeric type is log entry 1). -/
def Obligations.SteadyStateGain : Prop :=
  ∀ (x : Sample) (s : State), Sound s → s.enc.mode = .run → s.num = .exact →
    s.enc.hist = List.replicate (histLength s.enc.cfg.n s.enc.cfg.u) x →
    ∃ (gain : Nat → ℝ) (l : List Sample),
      (∀ j, gain j = phaseSum (s.enc.taps.map realValue) s.enc.cfg.n s.enc.cfg.u j
        (List.replicate (histLength s.enc.cfg.n s.enc.cfg.u) 1)) ∧
      exec (.rrcSymbol x) s = completes s s.enc (.samples l) ∧ l.length = s.enc.cfg.u ∧
      (∀ j, j < s.enc.cfg.u →
        realSample (l.getD j Sample.zero) = ⟨realValue x.i * gain j, realValue x.q * gain j⟩) ∧
      (realValue (tapSum s.enc.cfg.u s.enc.cfg.n s.enc.cfg.beta) ≠ 0 →
        gain 0 = 1 ∧ realSample (l.getD 0 Sample.zero) = realSample x)

/-! ## Lifecycle -/

/-- INIT on a legal operand, in any state: every element of the CORE takes its reset value, the tables are the
ones the builders return, and nothing of the boundary changes. -/
def Obligations.InitIsAFullReset : Prop :=
  ∀ (a : InitArg) (s : State), InitArgLegal a → Normalisable (upsampling a) a.taps.toNat a.beta →
    ∃ e : Encoder, exec (.init a) s = completes s e .none ∧
      e.mode = .run ∧
      e.cfg = { symbolRate := a.symbolRate, sampleRate := a.sampleRate, u := upsampling a, n := a.taps.toNat,
                beta := a.beta, prbsLut := e.prbsLut } ∧
      e.pktIdx = 0 ∧ e.prbsPos = 0 ∧ e.rem = Vector.replicate 16 0x00#8 ∧
      (∀ i : Fin 12, e.fifo.cells i = List.replicate (17 * i.val) 0x00#8 ∧ e.fifo.cursor i = 0) ∧
      e.ccState = 0#7 ∧ e.hist = List.replicate (histLength a.taps.toNat (upsampling a)) Sample.zero ∧
      e.syncLossCount = 0 ∧
      exec .gfBuild s = completes s s.enc (.fieldTables e.gfExp e.gfLog) ∧
      exec .rsgenBuild s = completes s s.enc (.generator e.g) ∧
      exec (.prbsBuild a.prbs) s = completes s s.enc (.prbs e.prbsLut) ∧
      exec (.rrcTapsBuild (upsampling a) a.taps a.beta) s = completes s s.enc (.taps e.taps) ∧
      TapsAcceptable s.num (upsampling a) a.taps.toNat a.beta e.taps

/-- INIT on any operand, its roll-off a rational number or any other, reports the first condition of R292 that holds of
the real numbers, as its sub-code, and then the mode is FAILED and the boundary as before; if none holds the mode is
RUN. -/
def Obligations.InitReportsTheFirstFailingCondition : Prop :=
  ∀ (a : InitArg) (s : State), ∃ (c : Nat) (u : State), exec (.init a) s = .next u ∧ u.bnd = s.bnd ∧
    u.port.result = .none ∧ u.port.outcome = (if c = 0 then .none else .configError c) ∧
    (c = 1 ↔ (a.symbolRate ≤ 0 ∨ a.sampleRate ≤ 0)) ∧
    (c = 2 ↔ 0 < a.symbolRate ∧ 0 < a.sampleRate ∧ a.sampleRate % a.symbolRate ≠ 0) ∧
    (c = 3 ↔ 0 < a.symbolRate ∧ 0 < a.sampleRate ∧ a.sampleRate % a.symbolRate = 0 ∧ (a.taps < 1 ∨ a.taps % 2 = 0)) ∧
    (c = 4 ↔ 0 < a.symbolRate ∧ 0 < a.sampleRate ∧ a.sampleRate % a.symbolRate = 0 ∧ 1 ≤ a.taps ∧ a.taps % 2 = 1 ∧
      (realValue a.beta < 0 ∨ 1 < realValue a.beta)) ∧
    (c = 5 ↔ 0 < a.symbolRate ∧ 0 < a.sampleRate ∧ a.sampleRate % a.symbolRate = 0 ∧ 1 ≤ a.taps ∧ a.taps % 2 = 1 ∧
      0 ≤ realValue a.beta ∧ realValue a.beta ≤ 1 ∧
      realValue (tapSum (upsampling a) a.taps.toNat a.beta) = 0) ∧
    c ≤ 5 ∧ (c ≠ 0 → u.enc.mode = .failed) ∧ (c = 0 → u.enc.mode = .run)

/-- PUSH_PACKET is the six stage operations one after another: the same samples, the same CORE, and the sizes of
every intermediate sequence. It runs on every packet, also on one without the sync byte, which R267 keeps from
it (log entry 13). -/
def Obligations.PushPacketIsTheSixStages : Prop :=
  ∀ (ts : Packet 188) (s : State), s.enc.mode = .run →
    ∃ (sc il : List Byte) (rs : Packet 204) (cb : List (Bool × Bool)) (pt smp : List Sample) (u : State),
      runOps [.scramble ts, .rsEncode sc, .interleave rs, .convEncode il, .qpskMap cb, .rrcShape pt] s =
        some ([.bytes sc, .bytes rs.toList, .bytes il, .codeBits (flattenPairs cb), .points pt, .samples smp], u) ∧
      exec (.pushPacket ts) s = completes s u.enc (.samples smp) ∧
      sc.length = 188 ∧ il.length = 204 ∧ cb.length = 1632 ∧ pt.length = 1632 ∧ smp.length = 1632 * s.enc.cfg.u

/-- THE COUNTERS. After `n` packets from a stream start, the superframe index, the PRBS cursor and the interleaver
cursors are the functions of `n` that R42 gives, and each packet gave `1632·U` samples (this for every packet,
also without the sync byte, which R267 keeps from PUSH_PACKET: log entry 13). A CORE in service is in RUN and
its counters are those functions of the number of accepted packets; and where the premises of a run hold,
PUSH_PACKET completes and leaves a CORE in service that has taken one packet more. -/
def Obligations.CountersFollowThePacketCount : Prop :=
  (∀ (s : State) (packets : List (Packet 188)), AtStreamStart s.enc →
    ∃ (ls : List (List Sample)) (u : State),
      runOps (packets.map Instr.pushPacket) s = some (ls.map Result.samples, u) ∧
      ls.length = packets.length ∧ (∀ l ∈ ls, l.length = 1632 * s.enc.cfg.u) ∧
      u.enc.mode = .run ∧ u.bnd = s.bnd ∧ u.enc.syncLossCount = s.enc.syncLossCount ∧
      CountersAfter packets.length u.enc) ∧
  (∀ (f : NumType) (packets : List (Packet 188)) (e : Encoder), InService f packets e →
    e.mode = .run ∧ CountersAfter packets.length e) ∧
  ∀ (s : State) (packets : List (Packet 188)) (ts : Packet 188), RunPremises s ts → InService s.num packets s.enc →
    ∃ u : State, exec (.pushPacket ts) s = .next u ∧ InService u.num (packets ++ [ts]) u.enc

/-! ## Boundary -/

/-- FRAME_CHECK: 0x47 is accepted; any other first byte is counted and raises SyncLoss with that byte, and nothing
else changes. -/
def Obligations.FrameCheckCountsSyncLoss : Prop :=
  ∀ (blk : Packet 188) (s : State), s.enc.mode = .run →
    (blk[0] = 0x47#8 → exec (.frameCheck blk) s = completes s s.enc .accept) ∧
    (blk[0] ≠ 0x47#8 → exec (.frameCheck blk) s =
      .next { s with
        enc := { s.enc with syncLossCount := s.enc.syncLossCount + 1 }
        port := { s.port with result := .none, outcome := .syncLoss blk[0] } })

/-- A DROPPED BLOCK does not advance the superframe: after it, the next accepted packet gives the samples, and
leaves the CORE, that it would have without it, but for the counter; and a host that issues PUSH_PACKET for the
dropped block all the same has no move (how it is known as dropped is log entry 18). -/
def Obligations.DroppedBlocksDoNotAdvance : Prop :=
  ∀ (bad good : Packet 188) (s : State),
    (s.enc.mode = .run → bad[0] ≠ 0x47#8 → good[0] = 0x47#8 →
      ∃ t u v : State, feed bad s = .next t ∧ t.port.result = .none ∧ t.port.outcome = .syncLoss bad[0] ∧
        feed good t = .next u ∧ feed good s = .next v ∧ u.port.result = v.port.result ∧
        u.enc = { v.enc with syncLossCount := v.enc.syncLossCount + 1 } ∧ u.bnd = v.bnd) ∧
    ∀ rest : List Byte, nextReport s = none → nextTask s = some .producer →
      fetch s .producer = .ok (.pushPacket bad, rest) → bad ∈ s.port.dropped → step s = .refused .droppedBlock

/-- QUANTISE: each lane is scaled in the numeric type, over the reals to exactly `x·gain`, saturated to `[-128, 127]`
and rounded to a signed byte less than 1 away; with the default rounding it is truncated toward zero. This holds of
every real number, a rational one or any other. The default is the spec's own choice (D18), the bound for the other
roundings rests on the model's list of them (log entry 15), the scaling on the numeric type (log entry 1). -/
def Obligations.QuantiseSaturatesThenTruncates : Prop :=
  ∀ (x : Sample) (s : State), s.enc.mode = .run → ∃ bI bQ : Byte,
    exec (.quantise x) s = completes s s.enc (.quantised bI bQ) ∧
    CastOf s.bnd.rounding (NumType.round s.num (exactMul x.i s.bnd.gain)) bI ∧
    CastOf s.bnd.rounding (NumType.round s.num (exactMul x.q s.bnd.gain)) bQ ∧
    (s.num = .exact →
      realValue (NumType.round s.num (exactMul x.i s.bnd.gain)) = realValue x.i * realValue s.bnd.gain ∧
      realValue (NumType.round s.num (exactMul x.q s.bnd.gain)) = realValue x.q * realValue s.bnd.gain)

/-- QUEUE_PUSH appends at the tail; on a full queue nothing is pushed and the producer waits (log entry 14). In a
step a host has no move to push what it declares to be a sample of PUSH_PACKET and is not the next one it owes;
every other sample it may push (the declaration is log entry 18). -/
def Obligations.QueuePushAppendsOrWaits : Prop :=
  ∀ (x : Sample) (s : State),
    (s.enc.mode = .run → s.bnd.queue.length < s.bnd.cap → exec (.queuePush x) s =
      completesAt s { s.bnd with queue := s.bnd.queue ++ [x], held := false } .none) ∧
    (s.enc.mode = .run → s.bnd.cap ≤ s.bnd.queue.length →
      exec (.queuePush x) s = completesAt s { s.bnd with held := true } .waiting) ∧
    ∀ rest : List Byte, nextReport s = none → nextTask s = some .producer →
      fetch s .producer = .ok (.queuePush x, rest) →
      (∀ k, s.port.origins.head? = some (.packet k) → k ≠ s.port.pushed ∨ s.port.owed.head? ≠ some x →
        step s = .refused .sampleOutOfOrder) ∧
      (s.enc.mode = .run →
        (∀ k, s.port.origins.head? = some (.packet k) → k = s.port.pushed ∧ s.port.owed.head? = some x) →
        ∃ u : State, step s = .next u ∧ u.enc = s.enc ∧
          u.bnd = (if s.bnd.queue.length < s.bnd.cap then { s.bnd with queue := s.bnd.queue ++ [x], held := false }
            else { s.bnd with held := true }))

/-- QUEUE_POP: the head of the queue; END when it is empty and closed; else the last sample again, counted, with
QueueUnderflow (the fields `held` and `consumerStopped` are log entries 14 and 16). -/
def Obligations.QueuePopNeverWaits : Prop :=
  ∀ s : State, s.enc.mode = .run →
    (∀ x rest, s.bnd.queue = x :: rest → exec .queuePop s =
      completesAt s { s.bnd with queue := rest, lastSample := x, held := false } (.sample x)) ∧
    (s.bnd.queue = [] → s.bnd.closed = true → exec .queuePop s =
      completesAt s { s.bnd with consumerStopped := true } .endOfStream) ∧
    (s.bnd.queue = [] → s.bnd.closed = false → exec .queuePop s =
      .next { s with
        bnd := { s.bnd with underflowCount := s.bnd.underflowCount + 1 }
        port := { s.port with result := .sample s.bnd.lastSample, outcome := .queueUnderflow } })

/-- FIRST IN, FIRST OUT: samples pushed while there is room come out in the order they were pushed, after those
already queued, with no underflow; then a closed queue answers END, and an open one holds the last sample,
one count for each substitute. -/
def Obligations.SamplesLeaveInOrder : Prop :=
  ∀ (xs : List Sample) (k : Nat) (s : State), s.enc.mode = .run → s.bnd.queue.length + xs.length ≤ s.bnd.cap →
    ∃ u : State,
      runOps (xs.map Instr.queuePush ++ List.replicate (s.bnd.queue.length + xs.length) Instr.queuePop) s =
        some (List.replicate xs.length Result.none ++ (s.bnd.queue ++ xs).map Result.sample, u) ∧
      u.bnd.queue = [] ∧ u.bnd.underflowCount = s.bnd.underflowCount ∧ u.bnd.closed = s.bnd.closed ∧
      u.bnd.lastSample = (s.bnd.queue ++ xs).getLastD s.bnd.lastSample ∧ u.enc = s.enc ∧
      (s.bnd.closed = true → ∃ v : State, exec .queuePop u = .next v ∧ v.port.result = .endOfStream) ∧
      (s.bnd.closed = false → ∃ v : State,
        runOps (List.replicate k Instr.queuePop) u =
          some (List.replicate k (Result.sample u.bnd.lastSample), v) ∧
        v.bnd.underflowCount = s.bnd.underflowCount + k ∧ v.bnd.lastSample = u.bnd.lastSample)
end

