-- ==== Sys2Proof/Laws/State.lean ====
section
/-! SUPPORT. One lemma for each field of the state and each update of it, so that no later proof unfolds a
record update. -/

namespace Sys2Proof.Machine

section Complete

variable (s : State) (e : Encoder) (b : Boundary) (r : Result) (x : Exc)

@[simp] theorem State.complete_enc : (s.complete e r).enc = e := rfl
@[simp] theorem State.complete_bnd : (s.complete e r).bnd = s.bnd := rfl
@[simp] theorem State.complete_result : (s.complete e r).port.result = r := rfl
@[simp] theorem State.complete_outcome : (s.complete e r).port.outcome = .none := rfl
@[simp] theorem State.complete_producer : (s.complete e r).port.producer = s.port.producer := rfl
@[simp] theorem State.complete_consumer : (s.complete e r).port.consumer = s.port.consumer := rfl
@[simp] theorem State.complete_schedule : (s.complete e r).port.schedule = s.port.schedule := rfl
@[simp] theorem State.complete_fresh : (s.complete e r).port.fresh = s.port.fresh := rfl
@[simp] theorem State.complete_owed : (s.complete e r).port.owed = s.port.owed := rfl
@[simp] theorem State.complete_dropped : (s.complete e r).port.dropped = s.port.dropped := rfl
@[simp] theorem State.complete_origins : (s.complete e r).port.origins = s.port.origins := rfl
@[simp] theorem State.complete_pushed : (s.complete e r).port.pushed = s.port.pushed := rfl
@[simp] theorem State.complete_num : (s.complete e r).num = s.num := rfl

@[simp] theorem State.completeBoundary_enc : (s.completeBoundary b r).enc = s.enc := rfl
@[simp] theorem State.completeBoundary_bnd : (s.completeBoundary b r).bnd = b := rfl
@[simp] theorem State.completeBoundary_result : (s.completeBoundary b r).port.result = r := rfl
@[simp] theorem State.completeBoundary_outcome : (s.completeBoundary b r).port.outcome = .none := rfl
@[simp] theorem State.completeBoundary_producer : (s.completeBoundary b r).port.producer = s.port.producer := rfl
@[simp] theorem State.completeBoundary_consumer : (s.completeBoundary b r).port.consumer = s.port.consumer := rfl
@[simp] theorem State.completeBoundary_schedule : (s.completeBoundary b r).port.schedule = s.port.schedule := rfl
@[simp] theorem State.completeBoundary_fresh : (s.completeBoundary b r).port.fresh = s.port.fresh := rfl
@[simp] theorem State.completeBoundary_owed : (s.completeBoundary b r).port.owed = s.port.owed := rfl
@[simp] theorem State.completeBoundary_dropped : (s.completeBoundary b r).port.dropped = s.port.dropped := rfl
@[simp] theorem State.completeBoundary_origins : (s.completeBoundary b r).port.origins = s.port.origins := rfl
@[simp] theorem State.completeBoundary_pushed : (s.completeBoundary b r).port.pushed = s.port.pushed := rfl
@[simp] theorem State.completeBoundary_num : (s.completeBoundary b r).num = s.num := rfl

@[simp] theorem State.raise_enc : (s.raise x e b r).enc = e := rfl
@[simp] theorem State.raise_bnd : (s.raise x e b r).bnd = b := rfl
@[simp] theorem State.raise_result : (s.raise x e b r).port.result = r := rfl
@[simp] theorem State.raise_outcome : (s.raise x e b r).port.outcome = x := rfl
@[simp] theorem State.raise_producer : (s.raise x e b r).port.producer = s.port.producer := rfl
@[simp] theorem State.raise_consumer : (s.raise x e b r).port.consumer = s.port.consumer := rfl
@[simp] theorem State.raise_schedule : (s.raise x e b r).port.schedule = s.port.schedule := rfl
@[simp] theorem State.raise_fresh : (s.raise x e b r).port.fresh = s.port.fresh := rfl
@[simp] theorem State.raise_owed : (s.raise x e b r).port.owed = s.port.owed := rfl
@[simp] theorem State.raise_dropped : (s.raise x e b r).port.dropped = s.port.dropped := rfl
@[simp] theorem State.raise_origins : (s.raise x e b r).port.origins = s.port.origins := rfl
@[simp] theorem State.raise_pushed : (s.raise x e b r).port.pushed = s.port.pushed := rfl
@[simp] theorem State.raise_num : (s.raise x e b r).num = s.num := rfl

end Complete

@[simp] theorem State.completeWith_eq {β : Type} (s : State) (r : β × Encoder) (f : β → Result) :
    s.completeWith r f = s.complete r.2 (f r.1) := rfl

section Requests

variable (s : State) (t : Task) (bs : List Byte)

@[simp] theorem State.setRequests_enc : (s.setRequests t bs).enc = s.enc := by cases t <;> rfl
@[simp] theorem State.setRequests_bnd : (s.setRequests t bs).bnd = s.bnd := by cases t <;> rfl
@[simp] theorem State.setRequests_result : (s.setRequests t bs).port.result = s.port.result := by cases t <;> rfl
@[simp] theorem State.setRequests_outcome : (s.setRequests t bs).port.outcome = s.port.outcome := by cases t <;> rfl
@[simp] theorem State.setRequests_schedule : (s.setRequests t bs).port.schedule = s.port.schedule := by cases t <;> rfl
@[simp] theorem State.setRequests_fresh : (s.setRequests t bs).port.fresh = s.port.fresh := by cases t <;> rfl
@[simp] theorem State.setRequests_owed : (s.setRequests t bs).port.owed = s.port.owed := by cases t <;> rfl
@[simp] theorem State.setRequests_dropped : (s.setRequests t bs).port.dropped = s.port.dropped := by cases t <;> rfl
@[simp] theorem State.setRequests_origins : (s.setRequests t bs).port.origins = s.port.origins := by cases t <;> rfl
@[simp] theorem State.setRequests_pushed : (s.setRequests t bs).port.pushed = s.port.pushed := by cases t <;> rfl
@[simp] theorem State.setRequests_num : (s.setRequests t bs).num = s.num := by cases t <;> rfl
@[simp] theorem State.requests_setRequests : (s.setRequests t bs).requests t = bs := by cases t <;> rfl

@[simp] theorem turnTaken_enc : (turnTaken s).enc = s.enc := rfl
@[simp] theorem turnTaken_bnd : (turnTaken s).bnd = s.bnd := rfl
@[simp] theorem turnTaken_result : (turnTaken s).port.result = s.port.result := rfl
@[simp] theorem turnTaken_outcome : (turnTaken s).port.outcome = s.port.outcome := rfl
@[simp] theorem turnTaken_producer : (turnTaken s).port.producer = s.port.producer := rfl
@[simp] theorem turnTaken_consumer : (turnTaken s).port.consumer = s.port.consumer := rfl
@[simp] theorem turnTaken_schedule : (turnTaken s).port.schedule = s.port.schedule.tail := rfl
@[simp] theorem turnTaken_fresh : (turnTaken s).port.fresh = s.port.fresh := rfl
@[simp] theorem turnTaken_owed : (turnTaken s).port.owed = s.port.owed := rfl
@[simp] theorem turnTaken_dropped : (turnTaken s).port.dropped = s.port.dropped := rfl
@[simp] theorem turnTaken_origins : (turnTaken s).port.origins = s.port.origins := rfl
@[simp] theorem turnTaken_pushed : (turnTaken s).port.pushed = s.port.pushed := rfl
@[simp] theorem turnTaken_num : (turnTaken s).num = s.num := rfl

/-- Everything the note of the host's duties can change: what the port holds of them. -/
theorem noteDuties_eq (i : Instr) (u : State) :
    noteDuties i u =
      { u with port := { u.port with
        origins := (noteDuties i u).port.origins, owed := (noteDuties i u).port.owed
        pushed := (noteDuties i u).port.pushed, dropped := (noteDuties i u).port.dropped } } := by
  unfold noteDuties; split <;> first | rfl | (split <;> rfl)

@[simp] theorem noteDuties_enc (i : Instr) (u : State) : (noteDuties i u).enc = u.enc := by rw [noteDuties_eq]
@[simp] theorem noteDuties_bnd (i : Instr) (u : State) : (noteDuties i u).bnd = u.bnd := by rw [noteDuties_eq]
@[simp] theorem noteDuties_num (i : Instr) (u : State) : (noteDuties i u).num = u.num := by rw [noteDuties_eq]
@[simp] theorem noteDuties_result (i : Instr) (u : State) : (noteDuties i u).port.result = u.port.result := by
  rw [noteDuties_eq]
@[simp] theorem noteDuties_outcome (i : Instr) (u : State) : (noteDuties i u).port.outcome = u.port.outcome := by
  rw [noteDuties_eq]
@[simp] theorem noteDuties_schedule (i : Instr) (u : State) : (noteDuties i u).port.schedule = u.port.schedule := by
  rw [noteDuties_eq]
@[simp] theorem noteDuties_producer (i : Instr) (u : State) : (noteDuties i u).port.producer = u.port.producer := by
  rw [noteDuties_eq]
@[simp] theorem noteDuties_consumer (i : Instr) (u : State) : (noteDuties i u).port.consumer = u.port.consumer := by
  rw [noteDuties_eq]

/-- A new run begins only with an INIT that succeeds, and only after the producer has ended. -/
theorem newRun_eq_self (i : Instr) (u : State)
    (h : u.bnd.producerEnded = false ∨ u.port.outcome ≠ .none ∨ ∀ a, i ≠ .init a) : newRun i u = u := by
  unfold newRun
  split
  · rename_i a ho he; rcases h with h | h | h
    · rw [h] at he; cases he
    · exact absurd ho h
    · exact absurd rfl (h a)
  · rfl

/-- What a new run changes (log entry 27). -/
theorem newRun_init (a : Config.InitArg) (u : State) (h : u.bnd.producerEnded = true) (o : u.port.outcome = .none) :
    newRun (.init a) u =
      { u with
        bnd := { u.bnd with producerEnded := false }
        port := { u.port with owed := [], pushed := u.port.pushed + u.port.owed.length } } := by
  simp [newRun, h, o]

/-- Everything a new run can change: that the producer has ended, and what is owed. -/
theorem newRun_frame (i : Instr) (u : State) :
    (newRun i u).enc = u.enc ∧ (newRun i u).num = u.num ∧
      (newRun i u).bnd = { u.bnd with producerEnded := (newRun i u).bnd.producerEnded } ∧
      (newRun i u).port =
        { u.port with owed := (newRun i u).port.owed, pushed := (newRun i u).port.pushed } := by
  unfold newRun; split <;> exact ⟨rfl, rfl, rfl, rfl⟩

@[simp] theorem newRun_enc (i : Instr) (u : State) : (newRun i u).enc = u.enc := (newRun_frame i u).1
@[simp] theorem newRun_num (i : Instr) (u : State) : (newRun i u).num = u.num := (newRun_frame i u).2.1
@[simp] theorem newRun_queue (i : Instr) (u : State) : (newRun i u).bnd.queue = u.bnd.queue := by
  rw [(newRun_frame i u).2.2.1]
@[simp] theorem newRun_cap (i : Instr) (u : State) : (newRun i u).bnd.cap = u.bnd.cap := by
  rw [(newRun_frame i u).2.2.1]
@[simp] theorem newRun_held (i : Instr) (u : State) : (newRun i u).bnd.held = u.bnd.held := by
  rw [(newRun_frame i u).2.2.1]
@[simp] theorem newRun_closed (i : Instr) (u : State) : (newRun i u).bnd.closed = u.bnd.closed := by
  rw [(newRun_frame i u).2.2.1]
@[simp] theorem newRun_token (i : Instr) (u : State) : (newRun i u).bnd.token = u.bnd.token := by
  rw [(newRun_frame i u).2.2.1]
@[simp] theorem newRun_consumerStopped (i : Instr) (u : State) :
    (newRun i u).bnd.consumerStopped = u.bnd.consumerStopped := by rw [(newRun_frame i u).2.2.1]

@[simp] theorem settle_enc (i : Instr) (rest : List Byte) (u : State) : (settle t i rest u).enc = u.enc := by
  unfold settle; split <;> simp

@[simp] theorem newRun_producer (i : Instr) (u : State) : (newRun i u).port.producer = u.port.producer := by
  rw [(newRun_frame i u).2.2.2]
@[simp] theorem newRun_consumer (i : Instr) (u : State) : (newRun i u).port.consumer = u.port.consumer := by
  rw [(newRun_frame i u).2.2.2]
@[simp] theorem newRun_schedule (i : Instr) (u : State) : (newRun i u).port.schedule = u.port.schedule := by
  rw [(newRun_frame i u).2.2.2]
@[simp] theorem newRun_result (i : Instr) (u : State) : (newRun i u).port.result = u.port.result := by
  rw [(newRun_frame i u).2.2.2]
@[simp] theorem newRun_outcome (i : Instr) (u : State) : (newRun i u).port.outcome = u.port.outcome := by
  rw [(newRun_frame i u).2.2.2]
@[simp] theorem newRun_fresh (i : Instr) (u : State) : (newRun i u).port.fresh = u.port.fresh := by
  rw [(newRun_frame i u).2.2.2]
@[simp] theorem newRun_origins (i : Instr) (u : State) : (newRun i u).port.origins = u.port.origins := by
  rw [(newRun_frame i u).2.2.2]
@[simp] theorem newRun_dropped (i : Instr) (u : State) : (newRun i u).port.dropped = u.port.dropped := by
  rw [(newRun_frame i u).2.2.2]

@[simp] theorem settle_result (i : Instr) (rest : List Byte) (u : State) :
    (settle t i rest u).port.result = u.port.result := by
  unfold settle; split <;> simp

@[simp] theorem settle_outcome (i : Instr) (rest : List Byte) (u : State) :
    (settle t i rest u).port.outcome = u.port.outcome := by
  unfold settle; split <;> simp

@[simp] theorem settle_schedule (i : Instr) (rest : List Byte) (u : State) :
    (settle t i rest u).port.schedule = u.port.schedule.tail := by
  unfold settle; split <;> simp

/-- The end of an operation leaves the boundary, but for the start of a new run (log entry 27). -/
theorem settle_bnd (i : Instr) (rest : List Byte) (u : State)
    (h : u.bnd.producerEnded = false ∨ u.port.outcome ≠ .none ∨ ∀ a, i ≠ .init a) :
    (settle t i rest u).bnd = u.bnd := by
  unfold settle
  rw [newRun_eq_self i (noteDuties i u) (by simpa using h)]
  split <;> simp

@[simp] theorem settle_queue (i : Instr) (rest : List Byte) (u : State) : (settle t i rest u).bnd.queue = u.bnd.queue := by
  unfold settle; split <;> simp

@[simp] theorem settle_cap (i : Instr) (rest : List Byte) (u : State) : (settle t i rest u).bnd.cap = u.bnd.cap := by
  unfold settle; split <;> simp

@[simp] theorem settle_num (i : Instr) (rest : List Byte) (u : State) : (settle t i rest u).num = u.num := by
  unfold settle; split <;> simp

@[simp] theorem State.permit_enc (i : Instr) : (s.permit i).enc = s.enc := by cases i <;> rfl
@[simp] theorem State.permit_bnd (i : Instr) : (s.permit i).bnd = s.bnd := by cases i <;> rfl
@[simp] theorem State.permit_num (i : Instr) : (s.permit i).num = s.num := by cases i <;> rfl

@[simp] theorem State.withRequestBytes_enc : (s.withRequestBytes bs).enc = s.enc := rfl
@[simp] theorem State.withRequestBytes_producer : (s.withRequestBytes bs).port.producer = bs := rfl
@[simp] theorem State.withRequestBytes_consumer : (s.withRequestBytes bs).port.consumer = s.port.consumer := rfl
@[simp] theorem State.withRequestBytes_schedule : (s.withRequestBytes bs).port.schedule = [.task .producer] := rfl
@[simp] theorem State.withRequestBytes_held : (s.withRequestBytes bs).bnd.held = false := rfl
@[simp] theorem State.withRequestBytes_producerEnded : (s.withRequestBytes bs).bnd.producerEnded = false := rfl
@[simp] theorem State.withRequestBytes_owed : (s.withRequestBytes bs).port.owed = s.port.owed := rfl
@[simp] theorem State.withRequestBytes_dropped : (s.withRequestBytes bs).port.dropped = s.port.dropped := rfl
@[simp] theorem State.withRequestBytes_origins : (s.withRequestBytes bs).port.origins = s.port.origins := rfl
@[simp] theorem State.withRequestBytes_pushed : (s.withRequestBytes bs).port.pushed = s.port.pushed := rfl
@[simp] theorem State.withRequestBytes_num : (s.withRequestBytes bs).num = s.num := rfl
@[simp] theorem State.withRequestBytes_queue : (s.withRequestBytes bs).bnd.queue = s.bnd.queue := rfl

end Requests

section Encoder

variable (e : Encoder)

theorem scrByte0_start (b : Byte) (h : superframeStart e.pktIdx = true) :
    scrByte0 e b = (b ^^^ 0xFF#8, { e with prbsPos := 0 }) := by simp [scrByte0, h]

theorem scrByte0_inside (b : Byte) (h : superframeStart e.pktIdx = false) : scrByte0 e b = (b, e) := by
  simp [scrByte0, h]

@[simp] theorem scrByte_fst (b : Byte) : (scrByte e b).1 = b ^^^ tableRead e.prbsLut e.prbsPos.val := rfl
@[simp] theorem scrByte_snd (b : Byte) : (scrByte e b).2 = { e with prbsPos := e.prbsPos + 1 } := rfl
@[simp] theorem scrNext_pktIdx : (scrNext e).pktIdx = e.pktIdx + 1 := rfl
@[simp] theorem scrNext_prbsPos : (scrNext e).prbsPos = e.prbsPos := rfl
@[simp] theorem rsClear_rem : (rsClear e).rem = Vector.replicate 16 0x00#8 := rfl
@[simp] theorem ilByte_fst (p : Nat) (b : Byte) : (ilByte e p b).1 = (e.fifo.visit (branchOf p) b).1 := rfl
@[simp] theorem ilByte_snd (p : Nat) (b : Byte) :
    (ilByte e p b).2 = { e with fifo := (e.fifo.visit (branchOf p) b).2 } := rfl
@[simp] theorem ccBit_fst (b : Bool) : (ccBit e b).1 = ccOutputs (ccShift e.ccState b) := rfl
@[simp] theorem ccBit_snd (b : Bool) : (ccBit e b).2 = { e with ccState := ccShift e.ccState b } := rfl
@[simp] theorem rrcSymbol_fst (A : Arith Num) (x : Sample) :
    (rrcSymbol A e x).1 = (List.range e.cfg.u).map (phaseSample A e.taps e.cfg (pushSymbol e.cfg e.hist x)) := rfl
@[simp] theorem rrcSymbol_snd (A : Arith Num) (x : Sample) :
    (rrcSymbol A e x).2 = { e with hist := pushSymbol e.cfg e.hist x } := rfl

/-- RS_STEP writes `rem` and nothing else. -/
theorem rsStep_eq (d : Byte) : rsStep e d = { e with rem := (rsStep e d).rem } := by
  unfold rsStep; dsimp only; split <;> rfl

end Encoder

end Sys2Proof.Machine
end

