-- ==== Sys2Proof/Laws/Ops.lean ====
section
/-! SUPPORT. What each shared operation can do, said once: admission, threading a list, the read of a table,
a visit to a delay line, and one step of the machine. -/

namespace Sys2Proof.Machine

open Host (Outcome)

/-! ## Admission -/

theorem whenRun_run {s t : State} (h : s.enc.mode = .run) : whenRun s t = .next t := by simp [whenRun, h]

theorem whenRun_not_run {s t : State} (h : s.enc.mode ≠ .run) : whenRun s t = .refused (.notAdmitted s.enc.mode) := by
  simp [whenRun, h]

/-- Everything admission can answer. -/
theorem whenRun_eq_next {s t u : State} : whenRun s t = .next u ↔ s.enc.mode = .run ∧ u = t := by
  by_cases h : s.enc.mode = .run
  · simp [whenRun_run h, h, eq_comm]
  · simp [whenRun_not_run h, h]

/-! ## Threading a list -/

section Thread

variable {σ α β : Type} (f : σ → α → β × σ)

@[simp] theorem thread_nil (s : σ) : thread f s [] = ([], s) := rfl

theorem thread_cons (s : σ) (x : α) (xs : List α) :
    thread f s (x :: xs) = ((f s x).1 :: (thread f (f s x).2 xs).1, (thread f (f s x).2 xs).2) := rfl

@[simp] theorem thread_length (s : σ) (xs : List α) : (thread f s xs).1.length = xs.length := by
  induction xs generalizing s with
  | nil => rfl
  | cons x xs ih => simp [thread_cons, ih]

theorem thread_append (s : σ) (xs ys : List α) :
    thread f s (xs ++ ys) =
      ((thread f s xs).1 ++ (thread f (thread f s xs).2 ys).1, (thread f (thread f s xs).2 ys).2) := by
  induction xs generalizing s with
  | nil => rfl
  | cons x xs ih => simp [thread_cons, ih]

/-- What every element keeps, the whole list keeps. -/
theorem thread_keeps (P : σ → Prop) (keep : ∀ s x, P s → P (f s x).2) (s : σ) (xs : List α) (h : P s) :
    P (thread f s xs).2 := by
  induction xs generalizing s with
  | nil => exact h
  | cons x xs ih => exact ih _ (keep _ _ h)

end Thread

/-! ## The read of a table -/

/-- A read inside the table is the element there (20_memory R61). -/
theorem tableRead_of_lt {α : Type} [Inhabited α] {n : Nat} (v : Vector α n) (idx : Nat) (h : idx < n) :
    tableRead v idx = v[idx] := by
  simp [tableRead, List.getD_eq_getElem?_getD, h]

/-! ## A visit to a delay line -/

section Visit

variable {len : Nat} (br : Branch len) (b : Byte)

/-- The byte read is the slot's old content (43_interleaver R193). -/
theorem Branch.visit_fst : (br.visit b).1 = br.cells[br.cur] := rfl

theorem Branch.visit_cur : (br.visit b).2.cur.val = (br.cur.val + 1) % len := rfl

/-- The slot at the cursor takes the byte written. -/
theorem Branch.visit_written : (br.visit b).2.cells[br.cur] = b := by simp [Branch.visit]

/-- Every other slot is as before. -/
theorem Branch.visit_frame (k : Nat) (hk : k < len) (h : k ≠ br.cur.val) :
    (br.visit b).2.cells[k] = br.cells[k] := by
  simp [Branch.visit, Ne.symm h]

end Visit

/-- A visit to branch `i` leaves the slots of every other branch alone. -/
theorem Fifos.visit_cells_other (f : Fifos) (i j : Fin 12) (b : Byte) (h : j ≠ i) :
    (f.visit i b).2.cells j = f.cells j := by
  fin_cases i <;> fin_cases j <;> first | rfl | exact absurd rfl h

/-- A visit to branch `i` leaves the cursor of every other branch alone. -/
theorem Fifos.visit_cursor_other (f : Fifos) (i j : Fin 12) (b : Byte) (h : j ≠ i) :
    (f.visit i b).2.cursor j = f.cursor j := by
  fin_cases i <;> fin_cases j <;> first | rfl | exact absurd rfl h

/-- The slots of a branch keep their number: 17·i of them (10_state R26). -/
theorem Fifos.cells_length (f : Fifos) (i : Fin 12) : (f.cells i).length = 17 * i.val := by
  fin_cases i <;> simp [Fifos.cells]

/-- A cursor stays inside its branch (10_state R27). -/
theorem Fifos.cursor_lt (f : Fifos) (i : Fin 12) (h : i ≠ 0) : f.cursor i < 17 * i.val := by
  fin_cases i
  · exact absurd rfl h
  · exact f.b1.cur.isLt
  · exact f.b2.cur.isLt
  · exact f.b3.cur.isLt
  · exact f.b4.cur.isLt
  · exact f.b5.cur.isLt
  · exact f.b6.cur.isLt
  · exact f.b7.cur.isLt
  · exact f.b8.cur.isLt
  · exact f.b9.cur.isLt
  · exact f.b10.cur.isLt
  · exact f.b11.cur.isLt

/-! ## Host duties and reports -/

/-- A request placed with its duties met breaks none of them. -/
theorem breach_withRequest (s : State) (i : Instr) : breach (s.withRequest i) .producer i = none := by
  cases i <;> simp [breach, outOfTurn, State.withRequest, State.permit]

/-- A push that waits is given up with its request; where none waits nothing changes. -/
theorem abandonPush_frame (s : State) :
    (abandonPush s).enc = s.enc ∧ (abandonPush s).num = s.num ∧ (abandonPush s).bnd = { s.bnd with held := false } ∧
      (s.bnd.held = false → abandonPush s = s) := by
  unfold abandonPush; split
  · rename_i h; exact ⟨rfl, rfl, rfl, fun g => absurd h (by simp [g])⟩
  · rename_i h
    have h : s.bnd.held = false := by simpa using h
    exact ⟨rfl, rfl, by rw [← h], fun _ => rfl⟩

/-- What the end of the transfer leaves (log entries 26 and 27). -/
theorem stopTransfer_frame (s : State) :
    (stopTransfer s).enc = s.enc ∧ (stopTransfer s).num = s.num ∧
      (stopTransfer s).bnd = { s.bnd with held := false, consumerStopped := true, producerEnded := true } := by
  obtain ⟨he, hn, hb, -⟩ := abandonPush_frame s
  exact ⟨he, hn, by simp [stopTransfer, hb]⟩

/-- Everything the end of the input can do: nothing, while the producer is not between packets; else the producer
ends and the queue is closed. -/
theorem endInput_cases (x : Exc) (s : State) :
    (betweenPackets s = false ∧ endInput x s = s) ∨
    (betweenPackets s = true ∧
      endInput x s = s.raise x s.enc { s.bnd with producerEnded := true, closed := true } .none) := by
  unfold endInput; cases h : betweenPackets s <;> simp

/-- No report touches the CORE or the numeric type. -/
theorem takeEvent_enc (ev : HostEvent) (s : State) : (takeEvent ev s).enc = s.enc ∧ (takeEvent ev s).num = s.num := by
  cases ev <;> simp only [takeEvent, endInput] <;> first | (split <;> simp) | simp

/-! ## One step -/

/-- Everything a served request can lead to. -/
theorem serve_eq_next {t : Task} {s u : State} (h : serve t s = .next u) :
    ∃ i rest v, fetch s t = .ok (i, rest) ∧ breach s t i = none ∧ exec i s = .next v ∧ u = settle t i rest v := by
  unfold serve at h
  split at h
  · cases h
  · rename_i r hr
    split at h
    · cases h
    · rename_i hm
      split at h
      · rename_i v hv
        injection h with h
        exact ⟨r.1, r.2, v, hr, hm, hv, h.symm⟩
      · cases h
      · cases h

/-- Everything a step can do: take a report, pass, stop the transfer, or serve a request. -/
theorem step_eq_next {s u : State} (h : step s = .next u) :
    (∃ ev, nextReport s = some ev ∧ u = turnTaken (takeEvent ev s)) ∨
    (nextReport s = none ∧ nextTask s = none ∧ u = turnTaken s) ∨
    (nextReport s = none ∧ nextTask s = some .consumer ∧ s.bnd.token = true ∧ u = turnTaken (stopTransfer s)) ∨
    (nextReport s = none ∧ ∃ t i rest v, nextTask s = some t ∧ fetch s t = .ok (i, rest) ∧
      breach s t i = none ∧ exec i s = .next v ∧ u = settle t i rest v) := by
  unfold step at h
  split at h
  · rename_i ev hev
    injection h with h
    exact .inl ⟨ev, hev, h.symm⟩
  · rename_i hev
    split at h
    · rename_i hn
      injection h with h
      exact .inr (.inl ⟨hev, hn, h.symm⟩)
    · rename_i hn
      obtain ⟨i, rest, v, hf, hm, hx, hu⟩ := serve_eq_next h
      exact .inr (.inr (.inr ⟨hev, _, i, rest, v, hn, hf, hm, hx, hu⟩))
    · rename_i hn
      split at h
      · rename_i ht
        injection h with h
        exact .inr (.inr (.inl ⟨hev, hn, ht, h.symm⟩))
      · obtain ⟨i, rest, v, hf, hm, hx, hu⟩ := serve_eq_next h
        exact .inr (.inr (.inr ⟨hev, _, i, rest, v, hn, hf, hm, hx, hu⟩))

/-! ## Readers -/

theorem Reader.andThen_eq_ok {α β : Type} {p : Reader α} {f : α → Reader β} {bs : List Byte} {r : β × List Byte} :
    p.andThen f bs = .ok r ↔ ∃ x rest, p bs = .ok (x, rest) ∧ f x rest = .ok r := by
  unfold Reader.andThen
  cases hp : p bs with
  | error e => simp
  | ok a => obtain ⟨x, rest⟩ := a; simp

theorem Reader.andThen_ok {α β : Type} {p : Reader α} {f : α → Reader β} {bs rest : List Byte} {x : α}
    (h : p bs = .ok (x, rest)) : p.andThen f bs = f x rest := by
  simp [Reader.andThen, h]

theorem Reader.apply_ok {α β : Type} {p : Reader α} {f : α → β} {bs rest : List Byte} {x : α}
    (h : p bs = .ok (x, rest)) : Reader.apply f p bs = .ok (f x, rest) := by
  simp [Reader.apply, Reader.andThen, Reader.done, h]

end Sys2Proof.Machine
end

