-- ==== Sys2Proof/Laws/PerInstr.lean ====
section
/-! SUPPORT. A statement about every operation as syntax: its request begins with an id of 30_encoding R100,
and the decoder never says of the bytes that follow that the id names no operation. -/

namespace Sys2Proof.Laws

/-- The ids of R100, in the table's order. -/
def tableIds : List Byte :=
  [0x00, 0x01, 0x10, 0x11, 0x12, 0x13, 0x14, 0x15, 0x20, 0x21, 0x22, 0x23, 0x24, 0x25, 0x26, 0x27, 0x28, 0x29,
    0x30, 0x31, 0x32, 0x33, 0x34, 0x40, 0x41, 0x42, 0x43]

/-- The operation's id is in the table, its request begins with it, and the decoder knows it. -/
def IdOfTable.Statement (i : Instr) : Prop :=
  (encode i).head? = some i.opId ∧ i.opId ∈ tableIds ∧ ∀ bs id, decodeOperands i.opId bs ≠ .error (.unknownOp id)

/-- A reader that never says an id names no operation. -/
abbrev Knows {α : Type} (p : Reader α) : Prop := ∀ bs id, p bs ≠ .error (.unknownOp id)

theorem Knows.andThen {α β : Type} {p : Reader α} {f : α → Reader β} (hp : Knows p) (hf : ∀ x, Knows (f x)) :
    Knows (p.andThen f) := by
  intro bs id h
  unfold Reader.andThen at h
  split at h
  · rename_i e he
    injection h with h
    exact hp bs id (h ▸ he)
  · exact hf _ _ _ h

theorem knows_done {α : Type} (x : α) : Knows (Reader.done x) := fun _ _ h => nomatch h

theorem Knows.apply {α β : Type} {p : Reader α} (hp : Knows p) (f : α → β) : Knows (p.apply f) :=
  hp.andThen fun _ => knows_done _

theorem knows_byte : Knows getByte := by
  intro bs id h
  cases bs <;> cases h

theorem knows_bit : Knows getBit := by
  intro bs id h
  unfold getBit at h
  split at h
  · cases h
  · split at h
    · cases h
    · split at h <;> cases h

theorem knows_position : Knows getPosition := by
  intro bs id h
  unfold getPosition at h
  split at h
  · cases h
  · split at h <;> cases h

theorem knows_nat : Knows getNat := by
  intro bs id h
  induction bs with
  | nil => cases h
  | cons b bs ih =>
    unfold getNat at h
    split at h
    · cases h
    · split at h
      · rename_i e he
        injection h with h
        exact ih (h ▸ he)
      · cases h

theorem knows_int : Knows getInt := knows_nat.apply _

theorem knows_rat : Knows getRat := knows_int.andThen fun _ => knows_nat.apply _

theorem knows_numParts {p : Reader Num} (hp : Knows p) (tag : Byte) : Knows (getNumParts p tag) := by
  unfold getNumParts
  split
  · exact knows_rat.apply _
  · exact knows_done _
  · exact hp.apply _
  · exact hp.apply _
  · exact hp.apply _
  · exact hp.andThen fun _ => hp.apply _
  · exact hp.andThen fun _ => hp.apply _
  · exact hp.andThen fun _ => hp.apply _
  · exact knows_nat.apply _
  · exact fun _ _ h => nomatch h

theorem knows_numWithin : ∀ depth, Knows (getNumWithin depth)
  | 0 => fun _ _ h => nomatch h
  | depth + 1 => knows_byte.andThen (knows_numParts (knows_numWithin depth))

theorem knows_num : Knows getNum := fun bs => knows_numWithin bs.length bs

theorem knows_sample : Knows getSample := knows_num.andThen fun _ => knows_num.apply _

theorem knows_packet (n : Nat) : Knows (getPacket n) := by
  intro bs id h
  unfold getPacket at h
  split at h <;> cases h

theorem knows_many {α : Type} {p : Reader α} (hp : Knows p) : ∀ n, Knows (getMany p n)
  | 0 => knows_done _
  | n + 1 => hp.andThen fun _ => (knows_many hp n).apply _

theorem knows_seq {α : Type} {p : Reader α} (hp : Knows p) : Knows (getSeq p) :=
  knows_nat.andThen fun n => knows_many hp n

theorem knows_dibit : Knows getDibit := knows_bit.andThen fun _ => knows_bit.apply _

theorem knows_prbs : Knows getPrbs := by
  intro bs id h
  unfold getPrbs at h
  split at h
  · cases h
  · split at h
    · cases h
    · split at h
      · exact (knows_packet 1503).apply _ _ _ h
      · cases h

theorem knows_initArg : Knows getInitArg :=
  knows_int.andThen fun _ => knows_int.andThen fun _ => knows_int.andThen fun _ =>
    knows_num.andThen fun _ => knows_prbs.apply _

theorem IdOfTable.init (cfg : Config.InitArg) : IdOfTable.Statement (.init cfg) :=
  ⟨rfl, by simp [Instr.opId, tableIds], knows_initArg.apply _⟩

theorem IdOfTable.pushPacket (ts : Packet 188) : IdOfTable.Statement (.pushPacket ts) :=
  ⟨rfl, by simp [Instr.opId, tableIds], (knows_packet _).apply _⟩

theorem IdOfTable.scramble (ts : Packet 188) : IdOfTable.Statement (.scramble ts) :=
  ⟨rfl, by simp [Instr.opId, tableIds], (knows_packet _).apply _⟩

theorem IdOfTable.rsEncode (d : List Byte) : IdOfTable.Statement (.rsEncode d) :=
  ⟨rfl, by simp [Instr.opId, tableIds], (knows_seq knows_byte).apply _⟩

theorem IdOfTable.interleave (rs : Packet 204) : IdOfTable.Statement (.interleave rs) :=
  ⟨rfl, by simp [Instr.opId, tableIds], (knows_packet _).apply _⟩

theorem IdOfTable.convEncode (il : List Byte) : IdOfTable.Statement (.convEncode il) :=
  ⟨rfl, by simp [Instr.opId, tableIds], (knows_seq knows_byte).apply _⟩

theorem IdOfTable.qpskMap (cb : List (Bool × Bool)) : IdOfTable.Statement (.qpskMap cb) :=
  ⟨rfl, by simp [Instr.opId, tableIds], (knows_seq knows_dibit).apply _⟩

theorem IdOfTable.rrcShape (pt : List Sample) : IdOfTable.Statement (.rrcShape pt) :=
  ⟨rfl, by simp [Instr.opId, tableIds], (knows_seq knows_sample).apply _⟩

theorem IdOfTable.scrByte0 (b : Byte) : IdOfTable.Statement (.scrByte0 b) :=
  ⟨rfl, by simp [Instr.opId, tableIds], knows_byte.apply _⟩

theorem IdOfTable.scrByte (b : Byte) : IdOfTable.Statement (.scrByte b) :=
  ⟨rfl, by simp [Instr.opId, tableIds], knows_byte.apply _⟩

theorem IdOfTable.scrNext : IdOfTable.Statement (.scrNext) :=
  ⟨rfl, by simp [Instr.opId, tableIds], knows_done _⟩

theorem IdOfTable.rsClear : IdOfTable.Statement (.rsClear) :=
  ⟨rfl, by simp [Instr.opId, tableIds], knows_done _⟩

theorem IdOfTable.rsStep (d : Byte) : IdOfTable.Statement (.rsStep d) :=
  ⟨rfl, by simp [Instr.opId, tableIds], knows_byte.apply _⟩

theorem IdOfTable.ilByte (p : Fin 204) (b : Byte) : IdOfTable.Statement (.ilByte p b) :=
  ⟨rfl, by simp [Instr.opId, tableIds], knows_position.andThen fun _ => knows_byte.apply _⟩

theorem IdOfTable.ccBit (b : Bool) : IdOfTable.Statement (.ccBit b) :=
  ⟨rfl, by simp [Instr.opId, tableIds], knows_bit.apply _⟩

theorem IdOfTable.ccByte (b : Byte) : IdOfTable.Statement (.ccByte b) :=
  ⟨rfl, by simp [Instr.opId, tableIds], knows_byte.apply _⟩

theorem IdOfTable.mapDibit (b1 b0 : Bool) : IdOfTable.Statement (.mapDibit b1 b0) :=
  ⟨rfl, by simp [Instr.opId, tableIds], knows_bit.andThen fun _ => knows_bit.apply _⟩

theorem IdOfTable.rrcSymbol (x : Sample) : IdOfTable.Statement (.rrcSymbol x) :=
  ⟨rfl, by simp [Instr.opId, tableIds], knows_sample.apply _⟩

theorem IdOfTable.gfBuild : IdOfTable.Statement (.gfBuild) :=
  ⟨rfl, by simp [Instr.opId, tableIds], knows_done _⟩

theorem IdOfTable.gfMul (a b : Byte) : IdOfTable.Statement (.gfMul a b) :=
  ⟨rfl, by simp [Instr.opId, tableIds], knows_byte.andThen fun _ => knows_byte.apply _⟩

theorem IdOfTable.rsgenBuild : IdOfTable.Statement (.rsgenBuild) :=
  ⟨rfl, by simp [Instr.opId, tableIds], knows_done _⟩

theorem IdOfTable.prbsBuild (src : Config.PrbsSource) : IdOfTable.Statement (.prbsBuild src) :=
  ⟨rfl, by simp [Instr.opId, tableIds], knows_prbs.apply _⟩

theorem IdOfTable.rrcTapsBuild (u n : Int) (beta : Num) : IdOfTable.Statement (.rrcTapsBuild u n beta) :=
  ⟨rfl, by simp [Instr.opId, tableIds], knows_int.andThen fun _ => knows_int.andThen fun _ => knows_num.apply _⟩

theorem IdOfTable.frameCheck (blk : Packet 188) : IdOfTable.Statement (.frameCheck blk) :=
  ⟨rfl, by simp [Instr.opId, tableIds], (knows_packet _).apply _⟩

theorem IdOfTable.quantise (x : Sample) : IdOfTable.Statement (.quantise x) :=
  ⟨rfl, by simp [Instr.opId, tableIds], knows_sample.apply _⟩

theorem IdOfTable.queuePush (x : Sample) : IdOfTable.Statement (.queuePush x) :=
  ⟨rfl, by simp [Instr.opId, tableIds], knows_sample.apply _⟩

theorem IdOfTable.queuePop : IdOfTable.Statement (.queuePop) :=
  ⟨rfl, by simp [Instr.opId, tableIds], knows_done _⟩

end Sys2Proof.Laws
end

