-- ==== Sys2Proof/Laws/Reals.lean ====
section
/-! SUPPORT. The real number that each exact operation gives (00_scope R13: the formulas "are exact over the reals"),
so that no proof about real numbers unfolds one; and what the answer to a question about a real number is (log entry
5). -/

namespace Sys2Proof.Machine

theorem rational?_eq_some {e : Num} {q : Rat} : rational? e = some q ↔ e = .rat q := by
  cases e <;> simp [rational?]

@[simp] theorem rational?_rat (q : Rat) : rational? (.rat q) = some q := rfl

theorem realValue_of_rational {e : Num} {q : Rat} (h : rational? e = some q) : realValue e = (q : ℝ) := by
  rw [rational?_eq_some.mp h]; rfl

@[simp] theorem realValue_rat (q : Rat) : realValue (.rat q) = (q : ℝ) := rfl
@[simp] theorem realValue_pi : realValue .pi = Real.pi := rfl

@[simp] theorem realValue_exactNeg (a : Num) : realValue (exactNeg a) = -realValue a := by
  cases a <;> simp [exactNeg, realValue]

@[simp] theorem realValue_exactAdd (a b : Num) : realValue (exactAdd a b) = realValue a + realValue b := by
  unfold exactAdd
  split
  · rename_i ha hb; simp [realValue_of_rational ha, realValue_of_rational hb]
  · rename_i ha _; split
    · rename_i h; simp [realValue_of_rational ha, h]
    · rfl
  · rename_i _ hb; split
    · rename_i h; simp [realValue_of_rational hb, h]
    · rfl
  · rfl

@[simp] theorem realValue_exactSub (a b : Num) : realValue (exactSub a b) = realValue a - realValue b := by
  simp [exactSub, sub_eq_add_neg]

@[simp] theorem realValue_exactMul (a b : Num) : realValue (exactMul a b) = realValue a * realValue b := by
  unfold exactMul
  split
  · rename_i ha hb; simp [realValue_of_rational ha, realValue_of_rational hb]
  · rename_i ha _; split
    · rename_i h; simp [realValue_of_rational ha, h]
    · split
      · rename_i h; simp [realValue_of_rational ha, h]
      · rfl
  · rename_i _ hb; split
    · rename_i h; simp [realValue_of_rational hb, h]
    · split
      · rename_i h; simp [realValue_of_rational hb, h]
      · rfl
  · rfl

@[simp] theorem realValue_exactDiv (a b : Num) : realValue (exactDiv a b) = realValue a / realValue b := by
  unfold exactDiv
  split
  · rename_i ha hb; simp [realValue_of_rational ha, realValue_of_rational hb]
  · rename_i ha _; split
    · rename_i h; simp [realValue_of_rational ha, h]
    · rfl
  · rename_i _ hb; split
    · rename_i h; simp [realValue_of_rational hb, h]
    · split
      · rename_i h; simp [realValue_of_rational hb, h]
      · rfl
  · rfl

/-- A whole turn changes neither sine nor cosine. -/
theorem angle_turn (q : Rat) : Real.pi * (q : ℝ) = Real.pi * (turn q : ℝ) + ((q / 2).floor : ℤ) * (2 * Real.pi) := by
  simp only [turn, Rat.cast_sub, Rat.cast_mul, Rat.cast_ofNat, Rat.cast_intCast]; ring

theorem sin_turn (q : Rat) : Real.sin (Real.pi * (q : ℝ)) = Real.sin (Real.pi * (turn q : ℝ)) := by
  rw [angle_turn q, Real.sin_add_int_mul_two_pi]

theorem cos_turn (q : Rat) : Real.cos (Real.pi * (q : ℝ)) = Real.cos (Real.pi * (turn q : ℝ)) := by
  rw [angle_turn q, Real.cos_add_int_mul_two_pi]

@[simp] theorem realValue_exactSinPi (e : Num) : realValue (exactSinPi e) = Real.sin (Real.pi * realValue e) := by
  unfold exactSinPi
  split
  · rename_i q h
    have t := sin_turn q
    rw [realValue_of_rational h]
    split_ifs with h0 h1 h2
    · rcases h0 with h0 | h0 <;> rw [t, h0] <;> simp
    · rw [t, h1]; norm_num [mul_one_div]
    · rw [t, h2, show Real.pi * ((3 / 2 : Rat) : ℝ) = Real.pi / 2 + Real.pi by push_cast; ring]; simp [Real.sin_add_pi]
    · rw [← realValue_of_rational h]; rfl
  · rfl

@[simp] theorem realValue_exactCosPi (e : Num) : realValue (exactCosPi e) = Real.cos (Real.pi * realValue e) := by
  unfold exactCosPi
  split
  · rename_i q h
    have t := cos_turn q
    rw [realValue_of_rational h]
    split_ifs with h0 h1 h2
    · rcases h0 with h0 | h0
      · rw [t, h0]; norm_num [mul_one_div]
      · rw [t, h0, show Real.pi * ((3 / 2 : Rat) : ℝ) = Real.pi / 2 + Real.pi by push_cast; ring]; simp [Real.cos_add_pi]
    · rw [t, h1]; simp
    · rw [t, h2]; simp
    · rw [← realValue_of_rational h]; rfl
  · rfl

/-- `AMP` over the reals (45_qpsk_mapper R233, decision D9). -/
theorem realValue_rootHalf : realValue rootHalf = Real.sqrt 2 / 2 := by
  simp only [rootHalf, realValue]
  rw [show Real.pi * ((1 / 4 : Rat) : ℝ) = Real.pi / 4 by push_cast; ring, Real.cos_pi_div_four]

/-! ## What a number determines -/

/-- `r` gives one answer between any two rational numbers to which it gives that answer, as every monotone function
does. -/
def Convex {α : Type} (r : Rat → α) : Prop := ∀ p q t : Rat, p ≤ t → t ≤ q → r p = r q → r t = r p

/-- A number that is written as a rational one has that one's answer. -/
@[simp] theorem ask_rat {α : Type} [DecidableEq α] [Nonempty α] (r : Rat → α) (q : Rat) : ask r (.rat q) = r q := rfl

/-- At a rational number the answer is `r`'s own. -/
theorem atReal_rat {α : Type} {r : Rat → α} {q : Rat} {a : α} : AtReal r (q : ℝ) a ↔ r q = a := by
  constructor
  · rintro (⟨p, hp, h⟩ | ⟨h, _⟩)
    · rwa [← Rat.cast_injective hp]
    · exact absurd ⟨q, rfl⟩ h
  · exact fun h => .inl ⟨q, rfl, h⟩

/-- Between two rational numbers with one answer every real number has that answer. -/
theorem atReal_between {α : Type} {r : Rat → α} (hr : Convex r) {lo hi : Rat} {x : ℝ} (hl : (lo : ℝ) ≤ x)
    (hh : x ≤ (hi : ℝ)) (e : r lo = r hi) : AtReal r x (r lo) := by
  by_cases h : ∃ q : Rat, (q : ℝ) = x
  · obtain ⟨q, rfl⟩ := h
    exact .inl ⟨q, rfl, hr lo hi q (Rat.cast_le.mp hl) (Rat.cast_le.mp hh) e⟩
  · have l : (lo : ℝ) < x := lt_of_le_of_ne hl fun c => h ⟨lo, c⟩
    have u : x < (hi : ℝ) := lt_of_le_of_ne hh fun c => h ⟨hi, c.symm⟩
    refine .inr ⟨h, min (x - lo) (hi - x), lt_min (by linarith) (by linarith), fun q hq => ?_⟩
    obtain ⟨a, b⟩ := lt_min_iff.mp hq
    rw [abs_lt] at a b
    exact hr lo hi q ((Rat.cast_le (K := ℝ)).mp (by linarith [a.1])) ((Rat.cast_le (K := ℝ)).mp (by linarith [b.2])) e

/-- What `ask` answers: the answer of `r` at the real number, if there is one. -/
theorem ask_spec {α : Type} [DecidableEq α] [Nonempty α] {r : Rat → α} (hr : Convex r) {e : Num}
    (he : ∀ a, enclosure e = some a → (a.lo : ℝ) ≤ realValue e ∧ realValue e ≤ (a.hi : ℝ)) :
    Determined r (realValue e) (ask r e) := by
  have d : Determined r (realValue e) (determined r e) :=
    (@answer α (Determined r (realValue e)) (determined_exists r (realValue e))).2
  unfold ask
  split
  · rename_i q h
    rw [realValue_of_rational h]
    exact fun _ => atReal_rat.mpr rfl
  · split
    · rename_i a h
      split
      · exact fun _ => atReal_between hr (he a h).1 (he a h).2 ‹_›
      · exact d
    · exact d

theorem signOf_eq_lt {q : Rat} : signOf q = .lt ↔ q < 0 := by unfold signOf; split_ifs <;> simp_all

theorem signOf_eq_eq {q : Rat} : signOf q = .eq ↔ q = 0 := by
  unfold signOf; split_ifs with h g
  · simp [h.ne]
  · simp [g]
  · simp [g]

theorem signOf_eq_gt {q : Rat} : signOf q = .gt ↔ 0 < q := by
  unfold signOf; split_ifs with h g
  · simp [h.le]
  · simp [g]
  · simpa using lt_of_le_of_ne (not_lt.mp h) (Ne.symm g)

/-- The sign is such a function. -/
theorem signOf_convex : Convex signOf := by
  intro p q t hp hq h
  rcases lt_trichotomy t 0 with c | rfl | c
  · rw [signOf_eq_lt.mpr c, signOf_eq_lt.mpr (hp.trans_lt c)]
  · rcases hp.lt_or_eq with a | rfl
    · exact absurd (signOf_eq_lt.mp (h.symm.trans (signOf_eq_lt.mpr a))) (not_lt.mpr hq)
    · rfl
  · rw [signOf_eq_gt.mpr c, h, signOf_eq_gt.mpr (c.trans_le hq)]

end Sys2Proof.Machine
end

