-- ==== Sys2Proof/Laws/Taps.lean ====
section
/-! SUPPORT. What the stored table of taps is, whatever values of the numeric type stand in it: `N` taps near the real
ones that meet the limits of 40_init_tables R144 if any do, and over the reals exactly `h_i/S`. -/

namespace Sys2Proof.Machine

open Sys2Proof.Safety

@[simp] theorem rawTaps_length (u n : Nat) (beta : Num) : (rawTaps u n beta).length = n := by simp [rawTaps]

@[simp] theorem exactTaps_length (u n : Nat) (beta : Num) : (exactTaps u n beta).length = n := by simp [exactTaps]

/-- All that is known of a stored table (log entry 3). -/
theorem storedTaps_storable (f : Config.NumType) (u n : Nat) (beta : Num) : Storable f u n beta (storedTaps f u n beta) :=
  (@answer (List Num) (Storable f u n beta) (storable_exists f u n beta)).2

/-- In another numeric type than the reals the table is the stored one. -/
theorem tapTable_storable {f : Config.NumType} (h : f ≠ .exact) (u n : Nat) (beta : Num) :
    Storable f u n beta (tapTable f u n beta) := by
  cases f with
  | exact => exact absurd rfl h
  | binary32 => exact storedTaps_storable .binary32 u n beta
  | binary64 => exact storedTaps_storable .binary64 u n beta
  | other k => exact storedTaps_storable (.other k) u n beta

@[simp] theorem tapTable_length (f : Config.NumType) (u n : Nat) (beta : Num) : (tapTable f u n beta).length = n := by
  by_cases h : f = .exact
  · subst h; exact exactTaps_length u n beta
  · exact (tapTable_storable h u n beta).1.1

/-- The real number that a polyphase-0 sum is. -/
theorem realValue_phaseZeroSumFrom (u i : Nat) (l : List Num) :
    realValue (phaseZeroSumFrom u i l) =
      ∑ m ∈ Finset.range l.length, if (i + m) % u = 0 then realValue (l.getD m (.rat 0)) else 0 := by
  induction l generalizing i with
  | nil => simp [phaseZeroSumFrom]
  | cons h hs ih =>
    rw [List.length_cons, Finset.sum_range_succ']
    unfold phaseZeroSumFrom
    split
    · rename_i c; simp [ih, c, add_comm, add_left_comm]
    · rename_i c; simp [ih, c, add_comm, add_left_comm]

/-- The sum the taps are divided by, and a table's, are what their formula says (R141). -/
theorem realValue_polyphaseZeroSum (u : Nat) (l : List Num) : realValue (polyphaseZeroSum u l) = phaseZeroTotal u l := by
  simp [polyphaseZeroSum, realValue_phaseZeroSumFrom, phaseZeroTotal]

/-- `h/S`, unless `S` is 0. -/
theorem realValue_normalisedTap {s : Num} (h : Num) (hs : realValue s ≠ 0) :
    realValue (normalisedTap s h) = realValue h / realValue s := by
  unfold normalisedTap
  split
  · rename_i e; simp [e, div_self hs]
  · simp

/-- The real taps are `h_i/S` (R141). -/
theorem realValue_exactTaps {u n : Nat} {beta : Num} (h : realValue (tapSum u n beta) ≠ 0) (i : Nat) (hi : i < n) :
    realValue ((exactTaps u n beta).getD i (.rat 0)) =
      realValue ((rawTaps u n beta).getD i (.rat 0)) / realValue (tapSum u n beta) := by
  have hr : i < (rawTaps u n beta).length := by simpa using hi
  simp [exactTaps, List.getD_eq_getElem?_getD, List.getElem?_map, List.getElem?_eq_getElem hr,
    realValue_normalisedTap _ h]

/-- Their polyphase-0 sum is 1 (R141). -/
theorem exactTaps_total {u n : Nat} {beta : Num} (h : realValue (tapSum u n beta) ≠ 0) :
    phaseZeroTotal u (exactTaps u n beta) = 1 := by
  have e : phaseZeroTotal u (exactTaps u n beta) = phaseZeroTotal u (rawTaps u n beta) / realValue (tapSum u n beta) := by
    unfold phaseZeroTotal
    rw [Finset.sum_div]
    refine Finset.sum_congr (by simp) fun m hm => ?_
    split
    · exact realValue_exactTaps h m (by simpa using hm)
    · simp
  rw [e, ← realValue_polyphaseZeroSum]
  exact div_self h

/-- The table of every numeric type satisfies the normalisation of R144. -/
theorem tapTable_normalised (f : Config.NumType) (u n : Nat) (beta : Num) :
    Normalised f u n beta (tapTable f u n beta) :=
  ⟨fun hf hs => by subst hf; exact exactTaps_total hs, fun hf hc => ((tapTable_storable hf u n beta).2 hc).2.1⟩

/-- INIT on an operand that passes every check of 60_exceptions R292 makes the CORE of 10_state R43. -/
theorem initEncoder_ok (f : Config.NumType) (a : Config.InitArg) (hc : cfgCheck a = none)
    (hn : Safety.Normalisable (cfgOf a).u (cfgOf a).n (cfgOf a).beta) :
    initEncoder f a = .ok (Encoder.initial f (cfgOf a)) := by
  have h : isZero (tapSum (cfgOf a).u (cfgOf a).n (cfgOf a).beta) = false := hn
  simp only [initEncoder, hc, buildTaps, h, Bool.false_eq_true, if_false]
  rfl

end Sys2Proof.Machine
end

