-- ==== Sys2Proof/Tests/Slice0.lean ====
section
/-! SUPPORT. The model's own tests: refusals of the well-formedness check, words written out and decoded, one
step of each operation against the values the spec prints (95_test_vectors and the worked examples of the
rules), and a witness for the hypotheses of every statement that has some. -/

namespace Sys2Proof.Tests

set_option Elab.async false

open Sys2Proof.Machine
open Sys2Proof.Safety
open Sys2Proof.Config

/-! ## Helpers -/

/-- A sound machine with a short filter: the default configuration with `N = 5`, so `U = 2` and `H = 3`
(95_test_vectors P4). -/
def small : State := { State.reset with enc := Encoder.initial .exact (cfgOf { defaultInit with taps := 5 }) }

/-- `small` with another CORE. -/
def smallWith (f : Encoder → Encoder) : State := { small with enc := f small.enc }

/-- `small` with another boundary. -/
def smallAt (f : Boundary → Boundary) : State := { small with bnd := f small.bnd }

/-- The state after an operation, if it has one. -/
def after (a : Answer) : Option State :=
  match a with
  | .next t => some t
  | .fault _ => none
  | .refused _ => none

/-- What an operation returned. -/
def returned (a : Answer) : Option Result := (after a).map fun t => t.port.result

/-- The outcome of an operation. -/
def outcome (a : Answer) : Option Exc := (after a).map fun t => t.port.outcome

/-- The bytes an operation returned. -/
def bytesOf (a : Answer) : List Byte :=
  match returned a with
  | some (.bytes l) => l
  | _ => []

/-- These bytes are exactly the request `i`. -/
def isRequest (bs : List Byte) (i : Instr) : Bool :=
  match decode bs with
  | .ok r => r.1 == i && r.2.isEmpty
  | .error _ => false

/-- A point with rational coordinates. -/
def pt (i q : Rat) : Sample := ⟨.rat i, .rat q⟩

/-- The default roll-off, 0.35 (R8). -/
def beta35 : Num := .rat (35 / 100)

/-- `x` to twelve decimals, as an integer. -/
def decimals12 (x : Rat) : Int := (x * 1000000000000 + 1 / 2).floor

/-- The lower end of a number's enclosure. -/
def lower (e : Num) : Rat :=
  match enclosure e with
  | some a => a.lo
  | none => 0

/-- A TS packet with a zero payload. -/
def zeroPacket : Packet 188 := (Vector.replicate 188 0x00#8).set 0 0x47#8

/-- A block whose first byte is `b`. -/
def blockOf (b : Byte) : Packet 188 := (Vector.replicate 188 0x00#8).set 0 b

/-! ## Well-formedness: each check refuses an ill-formed term -/

/-- R267: a packet offered to PUSH_PACKET begins with 0x47. -/
theorem test_wf_refuses_bad_sync : (Instr.pushPacket (blockOf 0x48#8)).wf = false := by decide +kernel
theorem test_wf_accepts_sync : (Instr.pushPacket zeroPacket).wf = true := by decide +kernel
/-- R178: RS_ENCODE is contracted for 188 bytes. -/
theorem test_wf_refuses_short_rs : (Instr.rsEncode (List.replicate 187 0x00#8)).wf = false := by decide +kernel
theorem test_wf_accepts_188 : (Instr.rsEncode (List.replicate 188 0x00#8)).wf = true := by decide +kernel

/-! ## Words written out: the id of R100, then the operands in the layout of log entry 6 -/

/-- symbol_rate 1 (code 2), sample_rate 2 (code 4), N = 3 (code 6), beta 1/2 (a rational, 0; numerator code 2,
denominator less one 1), the recurrence (0). -/
theorem test_decode_init :
    isRequest [0x00#8, 0x02#8, 0x04#8, 0x06#8, 0x00#8, 0x02#8, 0x01#8, 0x00#8] (.init ⟨1, 2, 3, .rat (1 / 2), .recurrence⟩) = true := by
  decide +kernel
theorem test_decode_pushPacket : isRequest (0x01#8 :: 0x47#8 :: List.replicate 187 0x00#8) (.pushPacket zeroPacket) = true := by
  decide +kernel
theorem test_decode_scramble : isRequest (0x10#8 :: 0x47#8 :: List.replicate 187 0x00#8) (.scramble zeroPacket) = true := by
  decide +kernel
theorem test_decode_rsEncode : isRequest [0x11#8, 0x02#8, 0xAA#8, 0xBB#8] (.rsEncode [0xAA#8, 0xBB#8]) = true := by decide +kernel
theorem test_decode_interleave :
    isRequest (0x12#8 :: List.replicate 204 0x5A#8) (.interleave (Vector.replicate 204 0x5A#8)) = true := by decide +kernel
theorem test_decode_convEncode : isRequest [0x13#8, 0x02#8, 0x47#8, 0x00#8] (.convEncode [0x47#8, 0x00#8]) = true := by
  decide +kernel
theorem test_decode_qpskMap :
    isRequest [0x14#8, 0x02#8, 0x01#8, 0x01#8, 0x01#8, 0x00#8] (.qpskMap [(true, true), (true, false)]) = true := by decide +kernel
/-- One point, (1, -1/2): the numerators are 1 (code 2) and -1 (code 1). -/
theorem test_decode_rrcShape :
    isRequest [0x15#8, 0x01#8, 0x00#8, 0x02#8, 0x00#8, 0x00#8, 0x01#8, 0x01#8] (.rrcShape [(pt 1 (-1 / 2))]) = true := by decide +kernel
theorem test_decode_scrByte0 : isRequest [0x20#8, 0x47#8] (.scrByte0 0x47#8) = true := by decide +kernel
theorem test_decode_scrByte : isRequest [0x21#8, 0xFF#8] (.scrByte 0xFF#8) = true := by decide +kernel
theorem test_decode_scrNext : isRequest [0x22#8] .scrNext = true := by decide +kernel
theorem test_decode_rsClear : isRequest [0x23#8] .rsClear = true := by decide +kernel
theorem test_decode_rsStep : isRequest [0x24#8, 0x01#8] (.rsStep 0x01#8) = true := by decide +kernel
theorem test_decode_ilByte : isRequest [0x25#8, 0xCB#8, 0xAB#8] (.ilByte 203 0xAB#8) = true := by decide +kernel
theorem test_decode_ccBit : isRequest [0x26#8, 0x01#8] (.ccBit true) = true := by decide +kernel
theorem test_decode_ccByte : isRequest [0x27#8, 0x80#8] (.ccByte 0x80#8) = true := by decide +kernel
theorem test_decode_mapDibit : isRequest [0x28#8, 0x01#8, 0x00#8] (.mapDibit true false) = true := by decide +kernel
theorem test_decode_rrcSymbol : isRequest [0x29#8, 0x00#8, 0x02#8, 0x00#8, 0x00#8, 0x00#8, 0x00#8] (.rrcSymbol (pt 1 0)) = true := by
  decide +kernel
theorem test_decode_gfBuild : isRequest [0x30#8] .gfBuild = true := by decide +kernel
theorem test_decode_gfMul : isRequest [0x31#8, 0x53#8, 0xCA#8] (.gfMul 0x53#8 0xCA#8) = true := by decide +kernel
theorem test_decode_rsgenBuild : isRequest [0x32#8] .rsgenBuild = true := by decide +kernel
theorem test_decode_prbsBuild : isRequest [0x33#8, 0x00#8] (.prbsBuild .recurrence) = true := by decide +kernel
/-- U = 2 (code 4), N = 129 (code 258: groups 2 + 128 and 2), beta 1/π (a quotient, 7; a rational, 0, with numerator
code 2 and denominator less one 0; π, 1). -/
theorem test_decode_rrcTapsBuild :
    isRequest [0x34#8, 0x04#8, 0x82#8, 0x02#8, 0x07#8, 0x00#8, 0x02#8, 0x00#8, 0x01#8] (.rrcTapsBuild 2 129 (.quot (.rat 1) .pi)) = true := by decide +kernel
theorem test_decode_frameCheck : isRequest (0x40#8 :: 0x48#8 :: List.replicate 187 0x00#8) (.frameCheck (blockOf 0x48#8)) = true := by
  decide +kernel
theorem test_decode_quantise : isRequest [0x41#8, 0x00#8, 0x02#8, 0x01#8, 0x00#8, 0x01#8, 0x03#8] (.quantise (pt (1 / 2) (-1 / 4))) = true := by
  decide +kernel
theorem test_decode_queuePush : isRequest [0x42#8, 0x00#8, 0x04#8, 0x00#8, 0x00#8, 0x06#8, 0x00#8] (.queuePush (pt 2 3)) = true := by
  decide +kernel
theorem test_decode_queuePop : isRequest [0x43#8] .queuePop = true := by decide +kernel

/-! ## Reset (R43) -/

theorem test_reset_registers :
    State.reset.enc.mode = .run ∧ State.reset.enc.pktIdx = 0 ∧ State.reset.enc.prbsPos = 0 ∧
      State.reset.enc.ccState = 0#7 ∧ State.reset.enc.cfg.u = 2 ∧ State.reset.enc.hist.length = 21 := by decide +kernel
theorem test_powerOn_uninit : State.powerOn.enc.mode = .uninit := rfl

/-! ## Lifecycle (95_test_vectors P5) -/

theorem test_init_sub_code_2 :
    outcome (execInit { defaultInit with sampleRate := 2500000 } State.powerOn) = some (.configError 2) := by decide +kernel
/-- N = 40 and beta = 2: the first failing check wins. -/
theorem test_init_check_order :
    outcome (execInit { defaultInit with taps := 40, beta := .rat 2 } small) = some (.configError 3) := by decide +kernel
theorem test_pushPacket_refused_before_init :
    execPushPacket zeroPacket State.powerOn = .refused (.notAdmitted .uninit) := rfl

/-! ## Scrambler (rules R151, R153, R154; section 5, S1 and S11) -/

theorem test_scramble_first_packet :
    (bytesOf (execScramble zeroPacket small)).take 6 = [0xB8#8, 0x03#8, 0xF6#8, 0x08#8, 0x34#8, 0x30#8] := by decide +kernel
theorem test_scramble_wraps :
    (bytesOf (execScramble zeroPacket (smallWith fun e => { e with pktIdx := 1, prbsPos := 1502 }))).take 4 =
      [0x47#8, 0xCB#8, 0x03#8, 0xF6#8] := by decide +kernel
theorem test_scrByte0_start :
    returned (execScrByte0 0x47#8 (smallWith fun e => { e with prbsPos := 1496 })) = some (.byte 0xB8#8) ∧
      (after (execScrByte0 0x47#8 (smallWith fun e => { e with prbsPos := 1496 }))).map (fun t => t.enc.prbsPos) = some 0 := by
  decide +kernel
theorem test_scrByte0_inside :
    returned (execScrByte0 0x12#8 (smallWith fun e => { e with pktIdx := 2 })) = some (.byte 0x12#8) := by decide +kernel
theorem test_scrByte :
    returned (execScrByte 0xFF#8 small) = some (.byte 0xFC#8) ∧
      (after (execScrByte 0xFF#8 small)).map (fun t => t.enc.prbsPos) = some 1 := by decide +kernel
theorem test_scrNext_wraps :
    (after (execScrNext (smallWith fun e => { e with pktIdx := 7 }))).map (fun t => t.enc.pktIdx) = some 0 := by decide +kernel

/-! ## Reed-Solomon (section 4: RS2, the step trace, the length corner case) -/

theorem test_rsStep_first :
    (after (execRsStep 0x01#8 small)).map (fun t => t.enc.rem.toList) =
      some [0x3B#8, 0x0D#8, 0x68#8, 0xBD#8, 0x44#8, 0xD1#8, 0x1E#8, 0x08#8, 0xA3#8, 0x41#8, 0x29#8, 0xE5#8, 0x62#8,
        0x32#8, 0x24#8, 0x3B#8] := by decide +kernel
theorem test_rsEncode_last_byte :
    (bytesOf (execRsEncode (List.replicate 187 0x00#8 ++ [0x01#8]) small)).drop 187 =
      [0x01#8, 0x3B#8, 0x0D#8, 0x68#8, 0xBD#8, 0x44#8, 0xD1#8, 0x1E#8, 0x08#8, 0xA3#8, 0x41#8, 0x29#8, 0xE5#8, 0x62#8,
        0x32#8, 0x24#8, 0x3B#8] := by decide +kernel
theorem test_rsEncode_length :
    outcome (execRsEncode (List.replicate 187 0x00#8) small) = some (.rsLengthError 187) := by decide +kernel

/-! ## Interleaver (R190, R193) -/

theorem test_ilByte_branch_1 :
    returned (execIlByte 1 0xAB#8 small) = some (.byte 0x00#8) ∧
      (after (execIlByte 1 0xAB#8 small)).map (fun t => (t.enc.memRead (.fifo 1) 0, t.enc.fifo.cursor 1)) =
        some (some 0xAB#8, 1) := by decide +kernel
theorem test_ilByte_cursor_wraps :
    (after (execIlByte 13 0xAB#8 (smallWith fun e => { e with fifo := { e.fifo with b1 := { e.fifo.b1 with cur := 16 } } }))).map
      (fun t => t.enc.fifo.cursor 1) = some 0 := by decide +kernel
theorem test_interleave_first_packet :
    (bytesOf (execInterleave (Vector.ofFn fun p => BitVec.ofNat 8 (p.val + 1)) small)).take 14 =
      0x01#8 :: List.replicate 11 0x00#8 ++ [0x0D#8, 0x00#8] := by decide +kernel

/-! ## Convolutional encoder (section 6; R210) -/

theorem test_ccBit_alternating :
    returned (execCcBit true (smallWith fun e => { e with ccState := 0x2A#7 })) = some (.dibit true true) ∧
      (after (execCcBit true (smallWith fun e => { e with ccState := 0x2A#7 }))).map (fun t => t.enc.ccState) = some 0x55#7 := by
  decide +kernel
theorem test_ccBit_second_of_impulse :
    returned (execCcBit false (smallWith fun e => { e with ccState := 0x01#7 })) = some (.dibit true false) := by decide +kernel
/-- V1, 1110111100011100. -/
theorem test_ccByte_impulse :
    returned (execCcByte 0x80#8 small) =
      some (.codeBits [true, true, true, false, true, true, true, true, false, false, false, true, true, true, false, false]) := by
  decide +kernel
/-- V7, 1100110000010101. -/
theorem test_ccByte_from_state :
    returned (execCcByte 0xA5#8 (smallWith fun e => { e with ccState := 0x2A#7 })) =
      some (.codeBits [true, true, false, false, true, true, false, false, false, false, false, true, false, true, false, true]) := by
  decide +kernel
/-- CONV_ENCODE(47 00) = 0011101111110001 1000101010110000. -/
theorem test_convEncode :
    returned (execConvEncode [0x47#8, 0x00#8] small) =
      some (.codeBits [false, false, true, true, true, false, true, true, true, true, true, true, false, false, false, true,
        true, false, false, false, true, false, true, false, true, false, true, true, false, false, false, false]) := by
  decide +kernel

/-! ## Mapper (R230, R231) -/

theorem test_mapDibit : returned (execMapDibit true false small) = some (.point ⟨.opp rootHalf, rootHalf⟩) := rfl
theorem test_qpskMap :
    returned (execQpskMap [(true, true), (true, false), (false, false), (false, true)] small) =
      some (.points [⟨.opp rootHalf, .opp rootHalf⟩, ⟨.opp rootHalf, rootHalf⟩, ⟨rootHalf, rootHalf⟩,
        ⟨rootHalf, .opp rootHalf⟩]) := rfl

/-! ## Shaper: an impulse gives the taps in order and then zeros (R248), with taps chosen by hand -/

/-- `small` with five taps that tell their places. -/
def withTaps : State := smallWith fun e => { e with taps := [.rat 1, .rat 2, .rat 3, .rat 4, .rat 5] }

theorem test_rrcSymbol :
    returned (execRrcSymbol (pt 1 (-1)) withTaps) = some (.samples [(pt 1 (-1)), (pt 2 (-2))]) := by decide +kernel
theorem test_rrcShape_impulse :
    returned (execRrcShape [(pt 1 0), (pt 0 0), (pt 0 0), (pt 0 0)] withTaps) =
      some (.samples [(pt 1 0), (pt 2 0), (pt 3 0), (pt 4 0), (pt 5 0), (pt 0 0), (pt 0 0), (pt 0 0)]) := by decide +kernel

/-! ## Table builders (R121, R122, R127, R133, R134, R142; section 8) -/

theorem test_gfBuild_checkpoints :
    gfExpTable[8] = 0x1D#8 ∧ gfExpTable[254] = 0x8E#8 ∧ gfExpTable[510] = 0x01#8 ∧ gfLogTable[0x1D - 1] = 8 ∧
      gfLogTable[0xFF - 1] = 175 := by decide +kernel
theorem test_gfMul :
    returned (execGfMul 0x53#8 0xCA#8 small) = some (.byte 0x8F#8) ∧
      returned (execGfMul 0x8E#8 0x8E#8 State.powerOn) = some (.byte 0x47#8) := by decide +kernel
theorem test_rsgenBuild :
    (genTable gfExpTable gfLogTable).toList =
      [0x01#8, 0x3B#8, 0x0D#8, 0x68#8, 0xBD#8, 0x44#8, 0xD1#8, 0x1E#8, 0x08#8, 0xA3#8, 0x41#8, 0x29#8, 0xE5#8, 0x62#8,
        0x32#8, 0x24#8, 0x3B#8] := by decide +kernel
theorem test_prbs_table_A :
    prbsTableA.toList.take 8 = [0x03#8, 0xF6#8, 0x08#8, 0x34#8, 0x30#8, 0xB8#8, 0xA3#8, 0x93#8] := by decide +kernel
theorem test_prbs_table_B :
    prbsTableB.toList.take 8 = [0x01#8, 0x52#8, 0x07#8, 0xEC#8, 0x10#8, 0x68#8, 0x61#8, 0x71#8] := by decide +kernel
theorem test_taps_default :
    decimals12 (lower ((exactTaps 2 41 beta35).getD 20 (.rat 0))) = 1097283225640 ∧
      decimals12 (lower ((exactTaps 2 41 beta35).getD 0 (.rat 0))) = -163481577 := by decide +kernel
/-- R138 for an upsampling factor past any fixed precision: the three times are all but 0, so the three taps are all
but equal. And R292's condition 5 does not hold there. -/
theorem test_taps_huge_u :
    (exactTaps (10 ^ 50) 3 beta35).map (fun h => decimals12 (lower h)) = [1000000000000, 1000000000000, 1000000000000] ∧
      isZero (tapSum (10 ^ 49) 3 (.rat 0)) = false := by decide +kernel
/-- R244's corner case over the reals: `N = 1` gives the one tap 1, exactly. -/
theorem test_taps_one : exactTaps 2 1 beta35 = [.rat 1] := by decide +kernel
/-- 1/√2 to twelve decimals. -/
theorem test_amplitude : decimals12 (lower rootHalf) = 707106781187 := by decide +kernel
/-- The numeric types: 1/10 in 32 and in 64 bits (IEEE 754's values, general knowledge as the rounding itself is,
log entry 1), and a tie that goes to the even neighbour. -/
theorem test_round :
    NumType.round .binary32 (.rat (1 / 10)) = .rat (13421773 / 134217728) ∧
      NumType.round .binary64 (.rat (-1 / 10)) = .rat (-3602879701896397 / 36028797018963968) ∧
      NumType.round .binary32 (.rat 16777219) = .rat 16777220 := by decide +kernel
theorem test_rrcTapsBuild_even_n :
    outcome (execRrcTapsBuild 2 40 beta35 small) = some (.configError 3) := by decide +kernel

/-! ## Boundary (R276, R279; the queue table of section 8, capacity 4) -/

theorem test_frameCheck_drop :
    outcome (execFrameCheck (blockOf 0x48#8) small) = some (.syncLoss 0x48#8) ∧
      (after (execFrameCheck (blockOf 0x48#8) small)).map (fun t => t.enc.syncLossCount) = some 1 := by decide +kernel
theorem test_frameCheck_accept : returned (execFrameCheck zeroPacket small) = some .accept := by decide +kernel
theorem test_quantise : returned (execQuantise (pt (1 / 2) (-1 / 4)) small) = some (.quantised 0x32#8 0xE7#8) := by decide +kernel
theorem test_quantise_corners :
    [7071 / 10000, -7071 / 10000, 99 / 10000, -99 / 10000, -101 / 10000, 12699 / 10000, 12799 / 10000, 128 / 100, -1279 / 1000,
      -128 / 100, -5].map (fun q => quantByte .exact (.rat 100) .towardZero (.rat q)) =
      [0x46#8, 0xBA#8, 0x00#8, 0x00#8, 0xFF#8, 0x7E#8, 0x7F#8, 0x7F#8, 0x81#8, 0x80#8, 0x80#8] := by decide +kernel
/-- A constellation point over the reals, 70.71… and −70.71… (R279's corner cases). -/
theorem test_quantise_root :
    quantByte .exact (.rat 100) .towardZero rootHalf = 0x46#8 ∧
      quantByte .exact (.rat 100) .towardZero (exactNeg rootHalf) = 0xBA#8 := by decide +kernel
/-- R38, R303: outside RUN the boundary operations too are refused. -/
theorem test_frameCheck_refused : execFrameCheck zeroPacket State.powerOn = .refused (.notAdmitted .uninit) := rfl
theorem test_queuePop_underflow :
    outcome (execQueuePop small) = some .queueUnderflow ∧ returned (execQueuePop small) = some (.sample (pt 0 0)) := by
  decide +kernel
theorem test_queuePop_closed : returned (execQueuePop (smallAt fun b => { b with closed := true })) = some .endOfStream := by
  decide +kernel
theorem test_queuePush_full :
    returned (execQueuePush (pt 7 0) (smallAt fun b => { b with cap := 1, queue := [(pt 3 0)] })) = some .waiting := by decide +kernel
theorem test_queuePush :
    (after (execQueuePush (pt 7 0) (smallAt fun b => { b with cap := 2, queue := [(pt 3 0)] }))).map (fun t => t.bnd.queue) =
      some [(pt 3 0), (pt 7 0)] := by decide +kernel

/-! ## Witnesses: concrete states and operands that meet the hypotheses of the statements -/

theorem small_normalisable : Normalisable 2 5 beta35 := by decide +kernel

/-- `Sound s ∧ s.enc.mode = .run`, with a history of zeros: the hypotheses of CodewordVanishesAtTheRoots,
ParityIsLinear, ShaperIsAConvolution, ImpulseResponseIsTheTaps, SteadyStateGain and (for `u`) StepKeepsSound. -/
theorem test_witness_sound : Sound small := by
  refine ⟨fun _ => ⟨?_, ⟨rfl, rfl, rfl, rfl, rfl⟩, small_normalisable, rfl, ?_, ?_⟩, ?_⟩
  · exact ⟨by decide, by decide, by decide, by decide, by decide +kernel⟩
  · exact tapTable_length .exact 2 5 beta35
  · exact tapTable_normalised .exact 2 5 beta35
  · exact Nat.zero_le _

theorem test_witness_StepKeepsSound : Sound (small.withRequest .scrNext) ∧ ∃ u, step (small.withRequest .scrNext) = .next u :=
  ⟨⟨test_witness_sound.1, Nat.zero_le _⟩, _, rfl⟩

theorem test_witness_UnlistedIds : ∀ i : Instr, i.opId ≠ 0x44#8 := by
  intro i; cases i <;> simp [Instr.opId]

theorem test_witness_StepRunsTheDecodedRequest :
    nextReport (small.withRequest .scrNext) = none ∧ nextTask (small.withRequest .scrNext) = some .producer ∧
      fetch (small.withRequest .scrNext) .producer = .ok (.scrNext, []) ∧ breach (small.withRequest .scrNext) .producer .scrNext = none ∧
      ∃ v, exec .scrNext (small.withRequest .scrNext) = .next v := ⟨rfl, rfl, rfl, rfl, _, rfl⟩

theorem test_witness_StepRunsTheDecodedRequest_refused :
    ∃ r, exec .scrNext (State.powerOn.withRequest .scrNext) = .refused r := ⟨_, rfl⟩

/-- A producer's turn with `i` as its request, and the host's word on where its sample is from: two samples are owed,
one has been pushed, one block has been dropped. -/
def duties (word : List Origin) (i : Instr) : State :=
  { small with port := { small.port with
    producer := encode i ++ [], schedule := [.task .producer], origins := word, owed := [pt 1 0, pt 2 0], pushed := 1
    dropped := [blockOf 0x48#8] } }

/-- R285: a sample of a packet skipped, one repeated, and another sample in its place. -/
theorem test_witness_push_order :
    breach (duties [.packet 2] (.queuePush (pt 2 0))) .producer (.queuePush (pt 2 0)) = some .sampleOutOfOrder ∧
      breach (duties [.packet 0] (.queuePush (pt 3 0))) .producer (.queuePush (pt 3 0)) = some .sampleOutOfOrder ∧
      breach (duties [.packet 1] (.queuePush (pt 3 0))) .producer (.queuePush (pt 3 0)) = some .sampleOutOfOrder := by
  decide +kernel

/-- R14, R278: the next owed sample has its move, and so have the host's own samples, be they equal to any of a
packet. -/
theorem test_push_admitted :
    breach (duties [.packet 1] (.queuePush (pt 1 0))) .producer (.queuePush (pt 1 0)) = none ∧
      [pt 1 0, pt 2 0, pt 3 0].map (fun x => breach (duties [.own] (.queuePush x)) .producer (.queuePush x)) =
        [none, none, none] ∧
      [pt 1 0, pt 2 0, pt 3 0].map (fun x => breach (duties [] (.queuePush x)) .producer (.queuePush x)) =
        [none, none, none] := by decide +kernel

/-- A push out of turn, as a step that has its request (QueuePushAppendsOrWaits, StepRunsTheDecodedRequest). -/
theorem test_witness_breach_push :
    nextReport (duties [.packet 2] (.queuePush (pt 2 0))) = none ∧
      nextTask (duties [.packet 2] (.queuePush (pt 2 0))) = some .producer ∧
      fetch (duties [.packet 2] (.queuePush (pt 2 0))) .producer = .ok (.queuePush (pt 2 0), []) ∧
      (duties [.packet 2] (.queuePush (pt 2 0))).port.origins.head? = some (.packet 2) ∧
      2 ≠ (duties [.packet 2] (.queuePush (pt 2 0))).port.pushed := by
  refine ⟨by decide +kernel, by decide +kernel, by rfl, rfl, by decide +kernel⟩

/-- A push that is admitted, as a step that has its request: of a sample equal to one owed later, and of the first owed
one, by the host's word and without it (QueuePushAppendsOrWaits). -/
theorem test_witness_push_admitted :
    nextReport (duties [.own] (.queuePush (pt 2 0))) = none ∧
      nextTask (duties [.own] (.queuePush (pt 2 0))) = some .producer ∧
      fetch (duties [.own] (.queuePush (pt 2 0))) .producer = .ok (.queuePush (pt 2 0), []) ∧
      (duties [.own] (.queuePush (pt 2 0))).enc.mode = .run ∧
      (∀ k, (duties [.own] (.queuePush (pt 2 0))).port.origins.head? ≠ some (.packet k)) ∧
      (∀ k, (duties [.packet 1] (.queuePush (pt 1 0))).port.origins.head? = some (.packet k) →
        k = (duties [.packet 1] (.queuePush (pt 1 0))).port.pushed ∧
        (duties [.packet 1] (.queuePush (pt 1 0))).port.owed.head? = some (pt 1 0)) := by
  refine ⟨by decide +kernel, by decide +kernel, by rfl, rfl, fun k => by simp [duties], fun k h => ?_⟩
  simp only [duties, List.head?_cons, Option.some.injEq, Origin.packet.injEq] at h
  exact ⟨h.symm, rfl⟩

/-- R150: SCRAMBLE of the dropped block, a total function, has its move. -/
theorem test_witness_scramble_dropped :
    breach (duties [] (.scramble (blockOf 0x48#8))) .producer (.scramble (blockOf 0x48#8)) = none := rfl

theorem test_witness_breach_block :
    nextReport (duties [] (.pushPacket (blockOf 0x48#8))) = none ∧
      nextTask (duties [] (.pushPacket (blockOf 0x48#8))) = some .producer ∧
      fetch (duties [] (.pushPacket (blockOf 0x48#8))) .producer = .ok (.pushPacket (blockOf 0x48#8), []) ∧
      blockOf 0x48#8 ∈ (duties [] (.pushPacket (blockOf 0x48#8))).port.dropped := by
  refine ⟨by decide +kernel, by decide +kernel, ?_, List.mem_singleton.mpr rfl⟩
  set_option maxRecDepth 20000 in rfl

/-- StepRunsTheDecodedRequest, the clauses on the host's duties: each of the operations reaches its own. -/
theorem test_witness_duties :
    (∃ v l, exec (.pushPacket zeroPacket) small = .next v ∧ v.port.result = .samples l) ∧
      (∃ v, exec (.queuePush (pt 1 0)) (duties [.packet 1] .scrNext) = .next v ∧ v.port.result = .none ∧
        paysOwed v (pt 1 0) = true) ∧
      (∃ v, exec (.queuePush (pt 1 0)) (duties [.own] .scrNext) = .next v ∧ v.port.result = .none ∧
        paysOwed v (pt 1 0) = false) ∧
      (∃ v, exec (.queuePush (pt 1 0)) (smallAt fun b => { b with cap := 0 }) = .next v ∧ v.port.result ≠ .none) ∧
      (∃ v, exec (.frameCheck (blockOf 0x48#8)) small = .next v ∧ v.port.outcome = .syncLoss (blockOf 0x48#8)[0]) :=
  ⟨⟨_, _, rfl, rfl⟩, ⟨_, rfl, rfl, rfl⟩, ⟨_, rfl, rfl, rfl⟩, ⟨_, rfl, Result.noConfusion⟩, _, rfl, rfl⟩

/-- StepRunsTheDecodedRequest and ReportsLeaveTheCoreAlone: INIT after the producer has ended, in its turn. -/
def endedAtInit : State :=
  { smallAt fun b => { b with producerEnded := true, closed := true, consumerStopped := true } with
    port := { small.port with producer := encode (.init { defaultInit with taps := 1 }) ++ [], schedule := [.task .producer], owed := [pt 1 0] } }

theorem test_witness_InitAfterTheEnd :
    endedAtInit.bnd.producerEnded = true ∧ endedAtInit.bnd.held = false ∧
      endedAtInit.port.schedule = .task .producer :: [] ∧ fetch endedAtInit .producer = .ok (.init { defaultInit with taps := 1 }, []) ∧
      nextTask endedAtInit = some .producer := by
  refine ⟨rfl, rfl, rfl, by decide +kernel, by decide +kernel⟩

/-- D23: INIT may be issued again. After it the producer goes on; the queue stays closed and the consumer stopped, which
R260 does not name (log entry 27). -/
theorem test_init_after_the_end :
    (after (step endedAtInit)).map (fun u => (u.enc.mode, u.bnd.producerEnded, u.port.owed.isEmpty, u.bnd.closed, u.bnd.consumerStopped)) =
      some (.run, false, true, true, true) := by decide +kernel

/-- The same with an operand that R292 refuses: nothing starts anew. -/
def endedAtBadInit : State :=
  { endedAtInit with port := { endedAtInit.port with producer := encode (.init { defaultInit with taps := 2 }) ++ [] } }

theorem test_init_fails_after_the_end :
    (after (step endedAtBadInit)).map (fun u => (u.port.outcome, u.enc.mode, u.bnd.producerEnded, u.port.owed)) =
      some (.configError 3, .failed, true, [pt 1 0]) := by decide +kernel

theorem test_witness_InitFailsAfterTheEnd :
    endedAtBadInit.bnd.producerEnded = true ∧ fetch endedAtBadInit .producer = .ok (.init { defaultInit with taps := 2 }, []) ∧
      outcome (exec (.init { defaultInit with taps := 2 }) endedAtBadInit) ≠ some .none := by
  refine ⟨rfl, by decide +kernel, by decide +kernel⟩

/-- The consumer's turn, with QUEUE_POP as its request: also ConsumerOnlyPopsAndQuantises, first clause. -/
def consumerTurn (bs : List Byte) : State := { small with port := { small.port with consumer := bs, schedule := [.task .consumer] } }

theorem test_witness_ConsumerPops :
    nextReport (consumerTurn [0x43#8]) = none ∧ nextTask (consumerTurn [0x43#8]) = some .consumer ∧
      (consumerTurn [0x43#8]).enc.mode = .run ∧ (consumerTurn [0x43#8]).bnd.token = false ∧ fetch (consumerTurn [0x43#8]) .consumer = .ok (.queuePop, []) ∧
      ∃ u, step (consumerTurn [0x43#8]) = .next u := ⟨rfl, rfl, rfl, rfl, rfl, _, rfl⟩

/-- The last clause: the token is set. -/
theorem test_witness_ConsumerSeesTheToken :
    nextReport { consumerTurn [] with bnd := { small.bnd with token := true } } = none ∧
      nextTask { consumerTurn [] with bnd := { small.bnd with token := true } } = some .consumer := ⟨rfl, rfl⟩

/-- The same with a push that waits. -/
theorem test_witness_ConsumerStopsAWaitingPush :
    { duties [] (.queuePush (pt 1 0)) with bnd := { small.bnd with token := true, held := true } }.bnd.held = true ∧
      fetch { duties [] (.queuePush (pt 1 0)) with bnd := { small.bnd with token := true, held := true } } .producer =
        .ok (.queuePush (pt 1 0), []) := ⟨rfl, by rfl⟩

theorem test_witness_ConsumerIsRefused :
    nextReport (consumerTurn [0x22#8]) = none ∧ nextTask (consumerTurn [0x22#8]) = some .consumer ∧
      (consumerTurn [0x22#8]).bnd.token = false ∧ fetch (consumerTurn [0x22#8]) .consumer = .ok (.scrNext, []) :=
  ⟨rfl, rfl, rfl, rfl⟩

theorem test_witness_PresentedOperationRuns :
    (∃ v, exec .scrNext (small.withRequest .scrNext) = .next v ∧ v.bnd.held = false) ∧
      (∃ r, exec .scrNext (State.powerOn.withRequest .scrNext) = .refused r) := ⟨⟨_, rfl, rfl⟩, _, rfl⟩

/-- A push that must wait, for the other case of PresentedOperationRuns. -/
theorem test_witness_PresentedPushWaits :
    (after (exec (.queuePush (pt 1 0)) ((smallAt fun b => { b with cap := 0 }).withRequest (.queuePush (pt 1 0))))).map
      (fun v => v.bnd.held) = some true := by decide +kernel

/-- A full queue of one sample, a push waiting to be made and a pop. -/
def fullQueue : State :=
  { smallAt fun b => { b with cap := 1, queue := [(pt 3 0)] } with
    port := { small.port with
      producer := encode (.queuePush (pt 7 0)) ++ [], consumer := encode .queuePop ++ []
      schedule := [.task .producer, .task .producer, .task .consumer, .task .producer]
      owed := [(pt 7 0)] } }

theorem test_witness_WaitingPush :
    fullQueue.enc.mode = .run ∧ fullQueue.port.owed = (pt 7 0) :: [] ∧ fullQueue.port.origins = [] ∧
    fullQueue.bnd.queue = (pt 3 0) :: [] ∧ fullQueue.bnd.queue.length = fullQueue.bnd.cap ∧ fullQueue.bnd.held = false ∧
      fullQueue.bnd.producerEnded = false ∧ fullQueue.bnd.token = false ∧ fullQueue.bnd.consumerStopped = false ∧
      fullQueue.port.producer = encode (.queuePush (pt 7 0)) ++ [] ∧ fullQueue.port.consumer = encode .queuePop ++ [] ∧
      fullQueue.port.schedule = [.task .producer, .task .producer, .task .consumer, .task .producer] :=
  ⟨rfl, rfl, rfl, rfl, rfl, rfl, rfl, rfl, rfl, rfl, rfl, rfl⟩

/-- A state whose turn is a collaborator's. -/
def reporting (ev : HostEvent) : State := { small with port := { small.port with schedule := [.report ev] } }

theorem test_witness_Reports :
    (reporting .inputEOF).port.schedule = .report .inputEOF :: [] ∧
      (reporting .inputReadError).port.schedule = .report .inputReadError :: [] ∧
      (reporting .deviceError).port.schedule = .report .deviceError :: [] ∧
      (reporting .shutdown).port.schedule = .report .shutdown :: [] ∧
      (reporting .inputEOF).bnd.held = false ∧ (reporting .inputEOF).port.owed = [] := ⟨rfl, rfl, rfl, rfl, rfl, rfl⟩

/-- The reports that are not seen: a push waits, or one sample is owed. And the last two clauses: an ended producer
in a step that has a next state, which is a step with nothing to do. -/
theorem test_witness_Reports_unseen :
    { reporting .inputEOF with bnd := { small.bnd with held := true } }.bnd.held = true ∧
      { reporting .inputEOF with port := { (reporting .inputEOF).port with owed := [(pt 1 0)] } }.port.owed ≠ [] ∧
      nextReport (smallAt fun b => { b with producerEnded := true }) = none ∧
      nextTask (smallAt fun b => { b with producerEnded := true }) = none ∧
      initRequested (smallAt fun b => { b with producerEnded := true }) = false ∧
      ∃ u, step (smallAt fun b => { b with producerEnded := true }) = .next u :=
  ⟨rfl, List.cons_ne_nil _ _, rfl, rfl, rfl, _, rfl⟩

/-- OnlyInitWritesTheTables and EachElementIsWrittenOnlyByItsStage: an operation of another stage completes. -/
theorem test_witness_Frames :
    (∀ a, Instr.ccBit true ≠ .init a) ∧ ∃ u, exec (.ccBit true) small = .next u := ⟨fun _ => Instr.noConfusion, _, rfl⟩

theorem test_witness_Frames_boundary :
    (Instr.queuePush (pt 1 0)).opId ∈ [0x41#8, 0x42#8, 0x43#8] ∧ ∃ u, exec (.queuePush (pt 1 0)) small = .next u :=
  ⟨by decide, _, rfl⟩

/-- StagesReadOnlyTheirOwnState: two states in RUN that agree on every stage and differ elsewhere. -/
theorem test_witness_Stages :
    small.enc.mode = .run ∧ (smallWith fun e => { e with syncLossCount := 7 }).enc.mode = .run ∧
      small.enc.pktIdx = (smallWith fun e => { e with syncLossCount := 7 }).enc.pktIdx ∧
      small.enc.prbsPos = (smallWith fun e => { e with syncLossCount := 7 }).enc.prbsPos ∧
      small.enc.prbsLut = (smallWith fun e => { e with syncLossCount := 7 }).enc.prbsLut ∧
      small.enc.rem = (smallWith fun e => { e with syncLossCount := 7 }).enc.rem ∧
      small.enc.g = (smallWith fun e => { e with syncLossCount := 7 }).enc.g ∧
      small.enc.gfExp = (smallWith fun e => { e with syncLossCount := 7 }).enc.gfExp ∧
      small.enc.gfLog = (smallWith fun e => { e with syncLossCount := 7 }).enc.gfLog ∧
      small.enc.fifo = (smallWith fun e => { e with syncLossCount := 7 }).enc.fifo ∧
      small.enc.ccState = (smallWith fun e => { e with syncLossCount := 7 }).enc.ccState ∧
      small.enc.hist = (smallWith fun e => { e with syncLossCount := 7 }).enc.hist ∧
      small.enc.taps = (smallWith fun e => { e with syncLossCount := 7 }).enc.taps ∧
      small.enc.cfg = (smallWith fun e => { e with syncLossCount := 7 }).enc.cfg :=
  ⟨rfl, rfl, rfl, rfl, rfl, rfl, rfl, rfl, rfl, rfl, rfl, rfl, rfl, rfl⟩

/-- AdmissionDependsOnTheMode, its three clauses at the ids next to their borders: 0x29 and 0x40 are refused outside
RUN, 0x30, 0x34 and 0x00 are not. -/
theorem test_witness_Admission :
    State.powerOn.enc.mode ≠ .run ∧ (Instr.rrcSymbol (pt 1 0)).opId = 0x29#8 ∧ (0x29#8 : Byte) ≠ 0x00#8 ∧
      (0x29#8 : Byte).toNat < 0x30 ∧ 0x40 ≤ (Instr.frameCheck zeroPacket).opId.toNat ∧ small.enc.mode = .run ∧
      0x30 ≤ Instr.gfBuild.opId.toNat ∧ (Instr.rrcTapsBuild 1 1 beta35).opId.toNat < 0x40 ∧
      (Instr.init defaultInit).opId = 0x00#8 :=
  ⟨by decide, rfl, by decide, by decide, by decide, rfl, by decide, by decide, rfl⟩

/-- `mode = RUN` and a superframe start: the scrambler's statements, StageOperationsAreTheirElements and every
statement whose only hypothesis is the mode. -/
theorem test_witness_run_at_start :
    small.enc.mode = .run ∧ small.enc.pktIdx = 0 ∧ small.enc.fifo = Fifos.zero ∧ (∀ i : Fin 12, small.enc.fifo.cursor i = 0) :=
  ⟨rfl, rfl, rfl, by decide +kernel⟩

theorem test_witness_ScrByte0_inside :
    (smallWith fun e => { e with pktIdx := 7 }).enc.mode = .run ∧ (smallWith fun e => { e with pktIdx := 7 }).enc.pktIdx ≠ 0 :=
  ⟨rfl, by decide⟩

/-- ScramblingIsAnInvolution: one scrambled packet, as the packet the second scrambler is given. -/
theorem test_witness_Involution :
    ∃ (outs : List (Packet 188)) (u : State), outs.length = 1 ∧
      runOps ([zeroPacket].map Instr.scramble) small = some (outs.map fun p => Result.bytes p.toList, u) :=
  ⟨[vectorOfList 188 (scramble small.enc zeroPacket.toList).1 (by decide +kernel)], _, rfl, rfl⟩

theorem test_witness_rs_length :
    (List.replicate 188 0x01#8).length = 188 ∧ (List.replicate 187 0x01#8).length ≠ 188 ∧
      (List.replicate 189 0x01#8).length ≠ 188 := by decide +kernel

/-- GfMulAddsTheLogs: a zero operand, two others in RUN, and a CORE that is not in RUN. -/
theorem test_witness_GfMul :
    (0x00#8 : Byte) = 0x00#8 ∧ (0x01#8 : Byte) ≠ 0x00#8 ∧ (0xFF#8 : Byte) ≠ 0x00#8 ∧ small.enc.mode = .run ∧
      State.powerOn.enc.mode ≠ .run := ⟨rfl, by decide, by decide, rfl, by decide⟩

/-- The sum the taps are divided by is not 0, for one tap and the default roll-off: `1 − β + 4β/π`. The premise of
SteadyStateGain's last clause, of the soundness of a table and of TapsAcceptable. -/
theorem single_tapSum : realValue (tapSum 2 1 beta35) ≠ 0 := by
  have h : tapSum 2 1 beta35 = centreTap beta35 := by decide +kernel
  rw [h]
  have p := Real.pi_pos
  have q : realValue (centreTap beta35) = 1 - 35 / 100 + 4 * (35 / 100) / Real.pi := by
    simp [centreTap, beta35]
  rw [q]
  positivity

/-- RrcTapsBuildChecksThenBuilds and InitReportsTheFirstFailingCondition: roll-offs next to the borders, one of them not
rational, and at them; and a sum that is not 0. -/
theorem test_witness_RrcTapsBuild :
    realValue (.rat (-1 / 100)) < 0 ∧ 1 < realValue (.rat (101 / 100)) ∧ 1 < realValue .pi ∧
      (0 ≤ realValue (.rat 0) ∧ realValue (.rat 1) ≤ 1) ∧ (0 ≤ realValue beta35 ∧ realValue beta35 ≤ 1) ∧
      realValue (tapSum (2 : Int).toNat (1 : Int).toNat beta35) ≠ 0 := by
  refine ⟨by norm_num, by norm_num, ?_, ⟨by norm_num, by norm_num⟩, ⟨by norm_num [beta35], by norm_num [beta35]⟩, single_tapSum⟩
  have := Real.pi_gt_three
  rw [realValue_pi]; linarith

/-- A table of R144 for the flat filter of one tap in 64-bit floating point: the premise that one exists. -/
theorem test_witness_Conforming : ∃ t, Conforming .binary64 1 1 (.rat 0) t := by
  have h : realTapValue 1 1 (.rat 0) 0 = 1 := by
    have r : (rawTaps 1 1 (.rat 0)).getD 0 (.rat 0) = .rat 1 := by decide +kernel
    have s : tapSum 1 1 (.rat 0) = .rat 1 := by decide +kernel
    rw [realTapValue, r, s]; norm_num
  refine ⟨[.rat 1], ⟨rfl, fun i hi => ?_⟩, by simp [phaseZeroTotal], fun i hi => ?_⟩
  · obtain rfl : i = 0 := by omega
    exact ⟨1, by rw [h]; norm_num [storedPrecision], by decide +kernel⟩
  · obtain rfl : i = 0 := by omega
    rw [h]; norm_num [storedPrecision]

/-- SineIsAccurate, each case of the taps: the centre, the removable singularity (R139: `β = 1/4`, `U = 2`,
`x = 1`), and the general one; and numbers that are not written as rational ones, of which an enclosure tells the
sign. -/
theorem test_witness_SineIsAccurate :
    1 ≤ 2 ∧ 5 % 2 = 1 ∧ tapTime 2 5 2 = 0 ∧
      nearSingular (exactMul (.rat (4 * |tapTime 2 5 4|)) (.rat (1 / 4))) = true ∧
      nearSingular (exactMul (.rat (4 * |tapTime 2 5 3|)) (.rat (1 / 4))) = false ∧
      (enclosure rootHalf).isSome = true ∧ sign rootHalf = .gt ∧ sign (.opp .pi) = .lt ∧ sign (.rat 0) = .eq ∧
      lessThan rootHalf (.rat 1) = true ∧ betaOutside (.quot (.rat 1) .pi) = false := by decide +kernel

theorem test_witness_SineIsAccurate_beta : (0 : ℝ) ≤ realValue (.rat (1 / 4)) := by norm_num

theorem test_witness_RawTaps : 5 % 2 = 1 ∧ 0 < 5 ∧ 4 < 5 := by decide

/-- IlByteExchangesOneSlot: a position on branch 0, one on branch 11. -/
theorem test_witness_IlByte :
    (0 : Fin 12).val = (192 : Fin 204).val % 12 ∧ (11 : Fin 12).val = (203 : Fin 204).val % 12 := by decide

/-- IlByteReturnsOneLapLater: branch 1, sixteen other visits to it and one to branch 0 between. -/
theorem test_witness_OneLap :
    (1 : Fin 204).val % 12 ≠ 0 ∧ (13 : Fin 204).val % 12 = (1 : Fin 204).val % 12 ∧
      (((12, 0x00#8) :: List.replicate 16 ((25 : Fin 204), 0x00#8)).filter
        fun e => e.1.val % 12 == (1 : Fin 204).val % 12).length + 1 = 17 * ((1 : Fin 204).val % 12) := by decide +kernel

/-- ConvEncodeIsLinear: a start state that is not 0, and one that is. -/
theorem test_witness_ConvLinear :
    (smallWith fun e => { e with ccState := 0x01#7 }).enc.mode = .run ∧ small.enc.mode = .run ∧ small.enc.ccState = 0#7 ∧
      [0x47#8].length = [0xB8#8].length := ⟨rfl, rfl, rfl, rfl⟩

theorem test_witness_RrcSymbol :
    small.enc.mode = .run ∧ 1 ≤ small.enc.cfg.n ∧ 1 ≤ small.enc.cfg.u ∧
      small.enc.hist.length = histLength small.enc.cfg.n small.enc.cfg.u := ⟨rfl, by decide, by decide, rfl⟩

/-- ShaperIsAConvolution, ImpulseResponseIsTheTaps, and SteadyStateGain with the symbol (0, 0). -/
theorem test_witness_ZeroHistory :
    Sound small ∧ small.enc.mode = .run ∧
      small.enc.hist = List.replicate (histLength small.enc.cfg.n small.enc.cfg.u) Sample.zero ∧ small.num = .exact ∧
      NumType.round small.num (.rat 0) = .rat 0 ∧ ∀ t ∈ small.enc.taps, NumType.round small.num t = t :=
  ⟨test_witness_sound, rfl, rfl, rfl, rfl, fun _ _ => rfl⟩

/-- SteadyStateGain with another symbol, and a filter of one tap, whose normalisation sum is known not to be 0. -/
def steady : State :=
  { State.reset with
    enc := { Encoder.initial .exact (cfgOf { defaultInit with taps := 1 }) with hist := [pt 1 (-1)] } }

theorem test_witness_SteadyState :
    Sound steady ∧ steady.enc.mode = .run ∧ steady.num = .exact ∧
      steady.enc.hist = List.replicate (histLength steady.enc.cfg.n steady.enc.cfg.u) (pt 1 (-1)) ∧
      realValue (tapSum steady.enc.cfg.u steady.enc.cfg.n steady.enc.cfg.beta) ≠ 0 := by
  refine ⟨⟨fun _ => ⟨⟨by decide, by decide, by decide, by decide, by decide +kernel⟩, ⟨rfl, rfl, rfl, rfl, rfl⟩, ?_, rfl, ?_, ?_⟩,
    Nat.zero_le _⟩, rfl, rfl, rfl, single_tapSum⟩
  · decide +kernel
  · exact tapTable_length .exact 2 1 beta35
  · exact tapTable_normalised .exact 2 1 beta35

/-- LanesAreIndependent: histories and symbols that agree in I and differ in Q. -/
theorem test_witness_Lanes :
    small.enc.cfg = (smallWith fun e => { e with hist := List.replicate 3 (pt 0 1) }).enc.cfg ∧
      small.enc.taps = (smallWith fun e => { e with hist := List.replicate 3 (pt 0 1) }).enc.taps ∧
      small.enc.hist.map SampleOf.i = (smallWith fun e => { e with hist := List.replicate 3 (pt 0 1) }).enc.hist.map SampleOf.i ∧
      [pt 1 2].map SampleOf.i = [pt 1 3].map SampleOf.i := ⟨rfl, rfl, rfl, rfl⟩

/-- LanesAreIndependent, the other lane. -/
theorem test_witness_Lanes_q :
    small.enc.hist.map SampleOf.q = (smallWith fun e => { e with hist := List.replicate 3 (pt 1 0) }).enc.hist.map SampleOf.q ∧
      [pt 2 1].map SampleOf.q = [pt 3 1].map SampleOf.q := ⟨rfl, rfl⟩

theorem test_witness_InitIsAFullReset :
    InitArgLegal { defaultInit with taps := 5 } ∧ Normalisable (upsampling { defaultInit with taps := 5 }) 5 beta35 :=
  ⟨⟨by decide, by decide, by decide, by decide, by decide, by decide +kernel⟩, small_normalisable⟩

theorem test_witness_Counters : AtStreamStart small.enc := ⟨rfl, rfl, rfl, by decide +kernel⟩

/-- CountersFollowThePacketCount, its last two clauses: INIT alone, and one packet offered. -/
theorem small_inService : InService .exact [] small.enc :=
  ⟨fun _ h => (List.not_mem_nil h).elim, { defaultInit with taps := 5 }, small.enc, 0,
    initEncoder_ok .exact { defaultInit with taps := 5 } (by decide +kernel) small_normalisable, rfl⟩

theorem test_witness_RunPremises : RunPremises small zeroPacket :=
  ⟨rfl, ⟨[], small_inService⟩, by decide +kernel, fun i h => by
    cases i <;> simp_all [breach]⟩

theorem test_witness_FrameCheck : zeroPacket[0] = 0x47#8 ∧ (blockOf 0x48#8)[0] ≠ 0x47#8 := by decide +kernel

theorem test_witness_DroppedBlocks :
    small.enc.mode = .run ∧ (blockOf 0x46#8)[0] ≠ 0x47#8 ∧ zeroPacket[0] = 0x47#8 := ⟨rfl, by decide +kernel, by decide +kernel⟩

theorem test_witness_Quantise : small.enc.mode = .run ∧ small.bnd.rounding = .towardZero ∧ small.num = .exact := ⟨rfl, rfl, rfl⟩

/-- QueuePushAppendsOrWaits: the last place of the queue, and a full queue. -/
theorem test_witness_QueuePush :
    (smallAt fun b => { b with cap := 1 }).bnd.queue.length < (smallAt fun b => { b with cap := 1 }).bnd.cap ∧
      fullQueue.bnd.cap ≤ fullQueue.bnd.queue.length := by decide +kernel

/-- QueuePopNeverWaits, its three cases. -/
theorem test_witness_QueuePop :
    fullQueue.bnd.queue = (pt 3 0) :: [] ∧ (small.bnd.queue = [] ∧ small.bnd.closed = false) ∧
      ((smallAt fun b => { b with closed := true }).bnd.queue = [] ∧ (smallAt fun b => { b with closed := true }).bnd.closed = true) :=
  ⟨rfl, ⟨rfl, rfl⟩, rfl, rfl⟩

/-- SamplesLeaveInOrder: a queue filled to its last place, open and closed. -/
theorem test_witness_SamplesLeaveInOrder :
    (smallAt fun b => { b with cap := 2, queue := [(pt 3 0)] }).bnd.queue.length + [pt 7 0].length ≤
        (smallAt fun b => { b with cap := 2, queue := [(pt 3 0)] }).bnd.cap ∧
      (smallAt fun b => { b with cap := 2, queue := [(pt 3 0)], closed := true }).bnd.closed = true ∧
      (smallAt fun b => { b with cap := 2, queue := [(pt 3 0)] }).bnd.closed = false := by decide +kernel

theorem test_witness_PushPacket : ∃ u, exec (.pushPacket zeroPacket) small = .next u := ⟨_, rfl⟩

end Sys2Proof.Tests
end

section
/-! PROOFS. The state of the CORE: what each operation can write (10_state R21), what it reads, what INIT leaves (R43),
and the invariants of R42. -/

namespace Sys2Proof.Machine

open Sys2Proof.Safety
open Host (Outcome)

/-! ## Threading a list: two runs, and the length of what is emitted -/

section Thread

variable {σ α β : Type} {f : σ → α → β × σ}

/-- Runs from related states stay related and return the same, if every element does so. -/
theorem thread_related (R : σ → σ → Prop)
    (step : ∀ {s t} x, R s t → (f s x).1 = (f t x).1 ∧ R (f s x).2 (f t x).2) {s t : σ} (xs : List α) (h : R s t) :
    (thread f s xs).1 = (thread f t xs).1 ∧ R (thread f s xs).2 (thread f t xs).2 := by
  induction xs generalizing s t with
  | nil => exact ⟨rfl, h⟩
  | cons x xs ih =>
    obtain ⟨ho, hr⟩ := step x h
    obtain ⟨hos, hrs⟩ := ih hr
    exact ⟨by simp only [thread_cons, ho, hos], hrs⟩

/-- A change of the state that every element lets through unread, the whole list lets through. -/
theorem thread_commute (g : σ → σ) (hg : ∀ s x, f (g s) x = ((f s x).1, g (f s x).2)) (s : σ) (xs : List α) :
    thread f (g s) xs = ((thread f s xs).1, g (thread f s xs).2) := by
  induction xs generalizing s with
  | nil => rfl
  | cons x xs ih => simp [thread_cons, hg, ih]

/-- Where each element emits `k` values, the list emits `k` for each of its elements. -/
theorem thread_flatten_length {f : σ → α → List β × σ} (P : σ → Prop) (k : Nat) (keep : ∀ s x, P s → P (f s x).2)
    (emit : ∀ s x, P s → (f s x).1.length = k) (s : σ) (xs : List α) (h : P s) :
    (thread f s xs).1.flatten.length = k * xs.length := by
  induction xs generalizing s with
  | nil => rfl
  | cons x xs ih =>
    rw [thread_cons, List.flatten_cons, List.length_append, emit s x h, ih _ (keep s x h), List.length_cons]
    ring

end Thread

/-- The element of INTERLEAVE: a byte with its position (R190). -/
def ilElement (e : Encoder) (pb : Byte × Nat) : Byte × Encoder := ilByte e pb.2 pb.1

theorem interleave_eq_thread (e : Encoder) (rs : List Byte) : interleave e rs = thread ilElement e rs.zipIdx := rfl

/-! ## What an operation writes in the CORE -/

/-- The elements of the CORE that a stage or FRAME_CHECK writes (10_state R21); the mode, the configuration and the
tables are not among them. -/
inductive Register where
  | pktIdx
  | prbsPos
  | rem
  | fifo
  | ccState
  | hist
  | syncLossCount

/-- Every element of the CORE but the registers of `w` is as before. -/
structure ChangesOnly (w : List Register) (e e' : Encoder) : Prop where
  mode : e'.mode = e.mode
  cfg : e'.cfg = e.cfg
  gfExp : e'.gfExp = e.gfExp
  gfLog : e'.gfLog = e.gfLog
  g : e'.g = e.g
  prbsLut : e'.prbsLut = e.prbsLut
  taps : e'.taps = e.taps
  pktIdx : .pktIdx ∉ w → e'.pktIdx = e.pktIdx
  prbsPos : .prbsPos ∉ w → e'.prbsPos = e.prbsPos
  rem : .rem ∉ w → e'.rem = e.rem
  fifo : .fifo ∉ w → e'.fifo = e.fifo
  ccState : .ccState ∉ w → e'.ccState = e.ccState
  hist : .hist ∉ w → e'.hist = e.hist
  syncLossCount : .syncLossCount ∉ w → e'.syncLossCount = e.syncLossCount

section ChangesOnly

variable {w : List Register} {a b c : Encoder}

theorem ChangesOnly.refl (w : List Register) (e : Encoder) : ChangesOnly w e e := by constructor <;> intros <;> rfl

theorem ChangesOnly.trans (h : ChangesOnly w a b) (k : ChangesOnly w b c) : ChangesOnly w a c where
  mode := k.mode.trans h.mode
  cfg := k.cfg.trans h.cfg
  gfExp := k.gfExp.trans h.gfExp
  gfLog := k.gfLog.trans h.gfLog
  g := k.g.trans h.g
  prbsLut := k.prbsLut.trans h.prbsLut
  taps := k.taps.trans h.taps
  pktIdx n := (k.pktIdx n).trans (h.pktIdx n)
  prbsPos n := (k.prbsPos n).trans (h.prbsPos n)
  rem n := (k.rem n).trans (h.rem n)
  fifo n := (k.fifo n).trans (h.fifo n)
  ccState n := (k.ccState n).trans (h.ccState n)
  hist n := (k.hist n).trans (h.hist n)
  syncLossCount n := (k.syncLossCount n).trans (h.syncLossCount n)

/-- Where no register may change, nothing does. -/
theorem ChangesOnly.eq_of_nil (h : ChangesOnly [] a b) : b = a := by
  obtain ⟨h1, h2, h3, h4, h5, h6, h7, r1, r2, r3, r4, r5, r6, r7⟩ := h
  cases a; cases b
  simp_all

variable (e : Encoder)

theorem changesOnly_pktIdx (h : .pktIdx ∈ w) (k : Fin 8) : ChangesOnly w e { e with pktIdx := k } :=
  { ChangesOnly.refl w e with pktIdx := absurd h }

theorem changesOnly_prbsPos (h : .prbsPos ∈ w) (k : Fin 1503) : ChangesOnly w e { e with prbsPos := k } :=
  { ChangesOnly.refl w e with prbsPos := absurd h }

theorem changesOnly_rem (h : .rem ∈ w) (r : Vector Byte 16) : ChangesOnly w e { e with rem := r } :=
  { ChangesOnly.refl w e with rem := absurd h }

theorem changesOnly_fifo (h : .fifo ∈ w) (f : Fifos) : ChangesOnly w e { e with fifo := f } :=
  { ChangesOnly.refl w e with fifo := absurd h }

theorem changesOnly_ccState (h : .ccState ∈ w) (r : BitVec 7) : ChangesOnly w e { e with ccState := r } :=
  { ChangesOnly.refl w e with ccState := absurd h }

theorem changesOnly_hist (h : .hist ∈ w) (l : List Sample) : ChangesOnly w e { e with hist := l } :=
  { ChangesOnly.refl w e with hist := absurd h }

theorem changesOnly_syncLossCount (h : .syncLossCount ∈ w) (n : Nat) : ChangesOnly w e { e with syncLossCount := n } :=
  { ChangesOnly.refl w e with syncLossCount := absurd h }

/-- A list of elements that each change only `w` changes only `w`. -/
theorem thread_changesOnly {α β : Type} {f : Encoder → α → β × Encoder} (h : ∀ e x, ChangesOnly w e (f e x).2)
    (xs : List α) : ChangesOnly w e (thread f e xs).2 :=
  thread_keeps f (ChangesOnly w e) (fun _ x k => k.trans (h _ x)) e xs (.refl w e)

/-! ### The functions of the stages -/

theorem scrByte0_changesOnly (h : .prbsPos ∈ w) (b : Byte) : ChangesOnly w e (scrByte0 e b).2 := by
  unfold scrByte0
  split
  · exact changesOnly_prbsPos e h 0
  · exact .refl w e

theorem scrByte_changesOnly (h : .prbsPos ∈ w) (b : Byte) : ChangesOnly w e (scrByte e b).2 :=
  changesOnly_prbsPos e h _

theorem scrNext_changesOnly (h : .pktIdx ∈ w) : ChangesOnly w e (scrNext e) := changesOnly_pktIdx e h _

theorem scramble_changesOnly (hi : .pktIdx ∈ w) (hp : .prbsPos ∈ w) (l : List Byte) :
    ChangesOnly w e (scramble e l).2 := by
  cases l with
  | nil => exact scrNext_changesOnly e hi
  | cons b bs =>
    exact ((scrByte0_changesOnly e hp b).trans (thread_changesOnly _ (fun e => scrByte_changesOnly e hp) bs)).trans
      (scrNext_changesOnly _ hi)

theorem rsClear_changesOnly (h : .rem ∈ w) : ChangesOnly w e (rsClear e) := changesOnly_rem e h _

theorem rsStep_changesOnly (h : .rem ∈ w) (d : Byte) : ChangesOnly w e (rsStep e d) := by
  rw [rsStep_eq]; exact changesOnly_rem e h _

theorem foldl_rsStep_changesOnly (h : .rem ∈ w) (d : List Byte) : ChangesOnly w e (d.foldl rsStep e) := by
  induction d generalizing e with
  | nil => exact .refl w e
  | cons b d ih => exact (rsStep_changesOnly e h b).trans (ih _)

theorem rsEncode_changesOnly (h : .rem ∈ w) (d : List Byte) : ChangesOnly w e (rsEncode e d).2 :=
  (rsClear_changesOnly e h).trans (foldl_rsStep_changesOnly _ h d)

theorem ilByte_changesOnly (h : .fifo ∈ w) (p : Nat) (b : Byte) : ChangesOnly w e (ilByte e p b).2 :=
  changesOnly_fifo e h _

theorem interleave_changesOnly (h : .fifo ∈ w) (rs : List Byte) : ChangesOnly w e (interleave e rs).2 := by
  rw [interleave_eq_thread]
  exact thread_changesOnly e (fun e pb => ilByte_changesOnly e h pb.2 pb.1) rs.zipIdx

theorem ccBit_changesOnly (h : .ccState ∈ w) (b : Bool) : ChangesOnly w e (ccBit e b).2 := changesOnly_ccState e h _

theorem ccByte_changesOnly (h : .ccState ∈ w) (b : Byte) : ChangesOnly w e (ccByte e b).2 :=
  thread_changesOnly e (fun e => ccBit_changesOnly e h) (byteBits b)

theorem convEncode_changesOnly (h : .ccState ∈ w) (il : List Byte) : ChangesOnly w e (convEncode e il).2 :=
  thread_changesOnly e (fun e => ccByte_changesOnly e h) il

theorem rrcSymbol_changesOnly (A : Arith Num) (h : .hist ∈ w) (x : Sample) : ChangesOnly w e (rrcSymbol A e x).2 :=
  changesOnly_hist e h _

theorem rrcShape_changesOnly (A : Arith Num) (h : .hist ∈ w) (pt : List Sample) :
    ChangesOnly w e (rrcShape A e pt).2 :=
  thread_changesOnly e (fun e => rrcSymbol_changesOnly e A h) pt

end ChangesOnly

/-- The bytes after the first two stages of PUSH_PACKET, and the CORE they leave (R262). -/
def outerCode (e : Encoder) (ts : List Byte) : List Byte × Encoder := rsEncode (scramble e ts).2 (scramble e ts).1

/-- The code bits after the first four stages of PUSH_PACKET, and the CORE they leave (R262). -/
def codePacket (e : Encoder) (ts : List Byte) : List Bool × Encoder :=
  let il := interleave (outerCode e ts).2 (outerCode e ts).1
  convEncode il.2 il.1

/-- PUSH_PACKET is the coder and then the mapper and the shaper (R262). -/
theorem pushPacket_eq (f : Config.NumType) (e : Encoder) (ts : List Byte) :
    pushPacket f e ts =
      rrcShape (NumType.arith f) (codePacket e ts).2 (qpskMap (NumType.arith f) (dibits (codePacket e ts).1)) := rfl

theorem outerCode_changesOnly {w : List Register} (e : Encoder) (ts : List Byte) (hi : .pktIdx ∈ w)
    (hp : .prbsPos ∈ w) (hr : .rem ∈ w) : ChangesOnly w e (outerCode e ts).2 :=
  (scramble_changesOnly e hi hp ts).trans (rsEncode_changesOnly _ hr _)

theorem codePacket_changesOnly {w : List Register} (e : Encoder) (ts : List Byte) (hi : .pktIdx ∈ w)
    (hp : .prbsPos ∈ w) (hr : .rem ∈ w) (hf : .fifo ∈ w) (hc : .ccState ∈ w) :
    ChangesOnly w e (codePacket e ts).2 :=
  ((outerCode_changesOnly e ts hi hp hr).trans (interleave_changesOnly _ hf _)).trans (convEncode_changesOnly _ hc _)

/-- The registers an operation may write (10_state R21); INIT writes the whole CORE and is no part of this. -/
def writes : Instr → List Register
  | .init _ => []
  | .pushPacket _ => [.pktIdx, .prbsPos, .rem, .fifo, .ccState, .hist]
  | .scramble _ => [.pktIdx, .prbsPos]
  | .rsEncode _ => [.rem]
  | .interleave _ => [.fifo]
  | .convEncode _ => [.ccState]
  | .qpskMap _ => []
  | .rrcShape _ => [.hist]
  | .scrByte0 _ => [.prbsPos]
  | .scrByte _ => [.prbsPos]
  | .scrNext => [.pktIdx]
  | .rsClear => [.rem]
  | .rsStep _ => [.rem]
  | .ilByte _ _ => [.fifo]
  | .ccBit _ => [.ccState]
  | .ccByte _ => [.ccState]
  | .mapDibit _ _ => []
  | .rrcSymbol _ => [.hist]
  | .gfBuild => []
  | .gfMul _ _ => []
  | .rsgenBuild => []
  | .prbsBuild _ => []
  | .rrcTapsBuild _ _ _ => []
  | .frameCheck _ => [.syncLossCount]
  | .quantise _ => []
  | .queuePush _ => []
  | .queuePop => []

theorem pushPacket_changesOnly (f : Config.NumType) (e : Encoder) (ts : Packet 188) (l : List Byte) :
    ChangesOnly (writes (.pushPacket ts)) e (pushPacket f e l).2 := by
  rw [pushPacket_eq]
  exact (codePacket_changesOnly e l (by simp [writes]) (by simp [writes]) (by simp [writes]) (by simp [writes])
    (by simp [writes])).trans (rrcShape_changesOnly _ _ (by simp [writes]) _)

/-! ## What an operation changes in the machine -/

/-- Everything an operation can change: the CORE as its stage may (INIT as it will), the boundary if it is a queue
operation, and of the port what it returned and how it ended. -/
structure Effect (i : Instr) (s u : State) : Prop where
  core : (∀ a, i ≠ .init a) → ChangesOnly (writes i) s.enc u.enc
  boundary : i.opId ∉ [0x42#8, 0x43#8] → u.bnd = s.bnd
  queue : QueueSound s.bnd → QueueSound u.bnd
  port : u.port =
    { s.port with result := u.port.result, outcome := u.port.outcome, fresh := u.port.fresh }
  num : u.num = s.num

section Effect

variable {i : Instr} {s u : State} {e : Encoder} {r : Result} {x : Exc} {b : Boundary}

theorem Effect.of_raise (h : ChangesOnly (writes i) s.enc e) : Effect i s (s.raise x e s.bnd r) :=
  ⟨fun _ => h, fun _ => rfl, id, rfl, rfl⟩

theorem Effect.of_complete (h : ChangesOnly (writes i) s.enc e) : Effect i s (s.complete e r) := .of_raise h

/-- An operation that is admitted in RUN only and then completes. -/
theorem Effect.of_admitted (h : whenRun s (s.complete e r) = .next u) (k : ChangesOnly (writes i) s.enc e) :
    Effect i s u := by
  obtain ⟨-, rfl⟩ := whenRun_eq_next.mp h
  exact .of_complete k

/-- A queue operation leaves the CORE alone. -/
theorem Effect.of_queue (m : i.opId ∈ [0x42#8, 0x43#8]) (q : QueueSound s.bnd → QueueSound b) :
    Effect i s (s.raise x s.enc b r) :=
  ⟨fun _ => .refl _ _, fun n => absurd m n, q, rfl, rfl⟩

/-- INIT succeeds with the CORE it makes, or fails and leaves an unspecified one (R260, R292). -/
theorem execInit_eq_next {a : Config.InitArg} (h : execInit a s = .next u) :
    (∃ e, initEncoder s.num a = .ok e ∧ u = s.complete e .none) ∨
      ∃ c, initEncoder s.num a = .error c ∧ u = failStart c s := by
  unfold execInit at h
  split at h
  · exact .inr ⟨_, ‹_›, (Outcome.next.inj h).symm⟩
  · exact .inl ⟨_, ‹_›, (Outcome.next.inj h).symm⟩

/-- A start-up, also one that fails, touches nothing outside the CORE but what it returns and how it ends. -/
theorem execInit_effect {a : Config.InitArg} (h : execInit a s = .next u) : Effect (.init a) s u := by
  rcases execInit_eq_next h with ⟨e, -, rfl⟩ | ⟨c, -, rfl⟩ <;>
    exact ⟨fun n => absurd rfl (n a), fun _ => rfl, id, rfl, rfl⟩

theorem execRsEncode_effect {d : List Byte} (h : execRsEncode d s = .next u) : Effect (.rsEncode d) s u := by
  obtain ⟨-, rfl⟩ := whenRun_eq_next.mp h
  split
  · exact .of_complete (rsEncode_changesOnly _ (by simp [writes]) d)
  · exact .of_raise (.refl _ _)

theorem execFrameCheck_effect {blk : Packet 188} (h : execFrameCheck blk s = .next u) :
    Effect (.frameCheck blk) s u := by
  obtain ⟨-, rfl⟩ := whenRun_eq_next.mp h
  split
  · exact .of_complete (.refl _ _)
  · exact .of_raise (changesOnly_syncLossCount _ (by simp [writes]) _)

theorem execRrcTapsBuild_effect {n m : Int} {beta : Num} (h : execRrcTapsBuild n m beta s = .next u) :
    Effect (.rrcTapsBuild n m beta) s u := by
  unfold execRrcTapsBuild at h
  split at h <;> obtain rfl := Outcome.next.inj h
  · exact .of_raise (.refl _ _)
  · exact .of_complete (.refl _ _)

/-- A push goes into the queue only below its capacity (R278). -/
theorem execQueuePush_effect {y : Sample} (h : execQueuePush y s = .next u) : Effect (.queuePush y) s u := by
  obtain ⟨-, rfl⟩ := whenRun_eq_next.mp h
  split
  · exact .of_queue (by simp [Instr.opId]) id
  · rename_i room
    refine .of_queue (by simp [Instr.opId]) fun _ => ?_
    simp only [Boundary.full, decide_eq_true_eq] at room
    simp only [QueueSound, List.length_append, List.length_singleton]
    omega

theorem execQueuePop_effect (h : execQueuePop s = .next u) : Effect .queuePop s u := by
  obtain ⟨-, rfl⟩ := whenRun_eq_next.mp h
  split
  · rename_i y rest hq
    refine .of_queue (by simp [Instr.opId]) fun hs => ?_
    simp only [QueueSound, hq, List.length_cons] at hs ⊢
    omega
  · split <;> exact .of_queue (by simp [Instr.opId]) id

/-- What an operation that has a next state can change. -/
theorem exec_effect (h : exec i s = .next u) : Effect i s u := by
  cases i with
  | init a => exact execInit_effect h
  | pushPacket ts => exact .of_admitted h (pushPacket_changesOnly _ _ ts _)
  | scramble ts => exact .of_admitted h (scramble_changesOnly _ (by simp [writes]) (by simp [writes]) _)
  | rsEncode d => exact execRsEncode_effect h
  | interleave rs => exact .of_admitted h (interleave_changesOnly _ (by simp [writes]) _)
  | convEncode il => exact .of_admitted h (convEncode_changesOnly _ (by simp [writes]) il)
  | qpskMap cb => exact .of_admitted h (.refl _ _)
  | rrcShape pt => exact .of_admitted h (rrcShape_changesOnly _ _ (by simp [writes]) pt)
  | scrByte0 b => exact .of_admitted h (scrByte0_changesOnly _ (by simp [writes]) b)
  | scrByte b => exact .of_admitted h (scrByte_changesOnly _ (by simp [writes]) b)
  | scrNext => exact .of_admitted h (scrNext_changesOnly _ (by simp [writes]))
  | rsClear => exact .of_admitted h (rsClear_changesOnly _ (by simp [writes]))
  | rsStep d => exact .of_admitted h (rsStep_changesOnly _ (by simp [writes]) d)
  | ilByte p b => exact .of_admitted h (ilByte_changesOnly _ (by simp [writes]) p.val b)
  | ccBit b => exact .of_admitted h (ccBit_changesOnly _ (by simp [writes]) b)
  | ccByte b => exact .of_admitted h (ccByte_changesOnly _ (by simp [writes]) b)
  | mapDibit b1 b0 => exact .of_admitted h (.refl _ _)
  | rrcSymbol x => exact .of_admitted h (rrcSymbol_changesOnly _ _ (by simp [writes]) x)
  | gfBuild => obtain rfl := Outcome.next.inj h; exact .of_complete (.refl _ _)
  | gfMul a b => obtain rfl := Outcome.next.inj h; exact .of_complete (.refl _ _)
  | rsgenBuild => obtain rfl := Outcome.next.inj h; exact .of_complete (.refl _ _)
  | prbsBuild src => obtain rfl := Outcome.next.inj h; exact .of_complete (.refl _ _)
  | rrcTapsBuild n m beta => exact execRrcTapsBuild_effect h
  | frameCheck blk => exact execFrameCheck_effect h
  | quantise x => exact .of_admitted h (.refl _ _)
  | queuePush x => exact execQueuePush_effect h
  | queuePop => exact execQueuePop_effect h

/-- The ids of the operations that may write a register (10_state R21), with the stage operations and PUSH_PACKET, which
expand to them (30_encoding R106). -/
def writerIds : Register → List Byte
  | .pktIdx => [0x01#8, 0x10#8, 0x22#8]
  | .prbsPos => [0x01#8, 0x10#8, 0x20#8, 0x21#8]
  | .rem => [0x01#8, 0x11#8, 0x23#8, 0x24#8]
  | .fifo => [0x01#8, 0x12#8, 0x25#8]
  | .ccState => [0x01#8, 0x13#8, 0x26#8, 0x27#8]
  | .hist => [0x01#8, 0x15#8, 0x29#8]
  | .syncLossCount => [0x40#8]

/-- The two readings of R21's table, by operation and by register, agree row by row. -/
theorem opId_mem_writerIds {r : Register} (h : r ∈ writes i) : i.opId ∈ writerIds r := by
  cases i <;> cases r <;> simp_all [writes, writerIds, Instr.opId]

/-- An operation whose id is neither INIT's nor a writer's of register `r` is not INIT and does not write `r`. -/
theorem not_written {r : Register} (h : i.opId ∉ 0x00#8 :: writerIds r) : (∀ a, i ≠ .init a) ∧ r ∉ writes i := by
  obtain ⟨h0, hw⟩ := not_or.mp (List.mem_cons.not.mp h)
  exact ⟨fun a e => h0 (e ▸ rfl), fun m => hw (opId_mem_writerIds m)⟩

/-- QUANTISE, QUEUE_PUSH and QUEUE_POP write no register. -/
theorem boundary_writes (h : i.opId ∈ [0x41#8, 0x42#8, 0x43#8]) : (∀ a, i ≠ .init a) ∧ writes i = [] := by
  cases i <;> simp_all [Instr.opId, writes]

end Effect

/-- Settles O11: an operation other than INIT changes no more than registers of its stage. -/
theorem onlyInitWritesTheTables : Obligations.OnlyInitWritesTheTables := by
  intro i s u hi h
  have c := (exec_effect h).core hi
  exact ⟨c.mode, c.cfg, c.gfExp, c.gfLog, c.g, c.prbsLut, c.taps⟩

/-- Settles O12: the registers an operation may write are those whose writers its id is among. -/
theorem eachElementIsWrittenOnlyByItsStage : Obligations.EachElementIsWrittenOnlyByItsStage := by
  intro i s u h
  obtain ⟨core, boundary, -, port, num⟩ := exec_effect h
  have unwritten {r : Register} (n : i.opId ∉ 0x00#8 :: writerIds r) :
      ChangesOnly (writes i) s.enc u.enc ∧ r ∉ writes i := ⟨core (not_written n).1, (not_written n).2⟩
  refine ⟨fun n => ?_, fun n => ?_, fun n => ?_, fun n => ?_, fun n => ?_, fun n => ?_, fun n => ?_, boundary,
    fun m => ?_, ?_⟩
  · obtain ⟨c, k⟩ := unwritten (r := .pktIdx) n; exact c.pktIdx k
  · obtain ⟨c, k⟩ := unwritten (r := .prbsPos) n; exact c.prbsPos k
  · obtain ⟨c, k⟩ := unwritten (r := .rem) n; exact c.rem k
  · obtain ⟨c, k⟩ := unwritten (r := .fifo) n; exact c.fifo k
  · obtain ⟨c, k⟩ := unwritten (r := .ccState) n; exact c.ccState k
  · obtain ⟨c, k⟩ := unwritten (r := .hist) n; exact c.hist k
  · obtain ⟨c, k⟩ := unwritten (r := .syncLossCount) n; exact c.syncLossCount k
  · obtain ⟨hi, hw⟩ := boundary_writes m
    exact ChangesOnly.eq_of_nil (hw ▸ core hi)
  · rw [port]
    exact ⟨rfl, rfl, rfl, rfl, rfl, rfl, rfl, num⟩

/-! ## What an operation reads of the CORE -/

/-- In RUN every operation has a next state (10_state R38). -/
theorem exec_of_run {s : State} (i : Instr) (h : s.enc.mode = .run) : ∃ u, exec i s = .next u := by
  cases i with
  | init a =>
    change ∃ u, execInit a s = .next u
    unfold execInit
    split <;> exact ⟨_, rfl⟩
  | rrcTapsBuild n m beta =>
    change ∃ u, execRrcTapsBuild n m beta s = .next u
    unfold execRrcTapsBuild
    split <;> exact ⟨_, rfl⟩
  | gfBuild => exact ⟨_, rfl⟩
  | gfMul a b => exact ⟨_, rfl⟩
  | rsgenBuild => exact ⟨_, rfl⟩
  | prbsBuild src => exact ⟨_, rfl⟩
  | _ => exact ⟨_, whenRun_run h⟩

section Reads

variable {e e' : Encoder}

/-- The elements the scrambler reads (10_state R21) are the same. -/
def ScramblerAgrees (e e' : Encoder) : Prop := e.pktIdx = e'.pktIdx ∧ e.prbsPos = e'.prbsPos ∧ e.prbsLut = e'.prbsLut

/-- The elements the Reed-Solomon encoder reads are the same. -/
def RsAgrees (e e' : Encoder) : Prop := e.rem = e'.rem ∧ e.g = e'.g ∧ e.gfExp = e'.gfExp ∧ e.gfLog = e'.gfLog

/-- The elements the interleaver reads are the same. -/
def InterleaverAgrees (e e' : Encoder) : Prop := e.fifo = e'.fifo

/-- The elements the convolutional encoder reads are the same. -/
def ConvAgrees (e e' : Encoder) : Prop := e.ccState = e'.ccState

/-- The elements the shaper reads are the same. -/
def ShaperAgrees (e e' : Encoder) : Prop := e.hist = e'.hist ∧ e.taps = e'.taps ∧ e.cfg = e'.cfg

theorem scrByte0_agrees (b : Byte) (h : ScramblerAgrees e e') :
    (scrByte0 e b).1 = (scrByte0 e' b).1 ∧ ScramblerAgrees (scrByte0 e b).2 (scrByte0 e' b).2 := by
  obtain ⟨hi, hp, hl⟩ := h
  cases start : superframeStart e'.pktIdx
  · rw [scrByte0_inside e b (hi ▸ start), scrByte0_inside e' b start]
    exact ⟨rfl, hi, hp, hl⟩
  · rw [scrByte0_start e b (hi ▸ start), scrByte0_start e' b start]
    exact ⟨rfl, hi, rfl, hl⟩

theorem scrByte_agrees (b : Byte) (h : ScramblerAgrees e e') :
    (scrByte e b).1 = (scrByte e' b).1 ∧ ScramblerAgrees (scrByte e b).2 (scrByte e' b).2 := by
  obtain ⟨hi, hp, hl⟩ := h
  exact ⟨by simp [hp, hl], hi, congrArg (· + 1) hp, hl⟩

theorem scrNext_agrees (h : ScramblerAgrees e e') : ScramblerAgrees (scrNext e) (scrNext e') :=
  ⟨congrArg (· + 1) h.1, h.2⟩

theorem scramble_agrees (l : List Byte) (h : ScramblerAgrees e e') :
    (scramble e l).1 = (scramble e' l).1 ∧ ScramblerAgrees (scramble e l).2 (scramble e' l).2 := by
  cases l with
  | nil => exact ⟨rfl, scrNext_agrees h⟩
  | cons b bs =>
    obtain ⟨ho, h0⟩ := scrByte0_agrees b h
    obtain ⟨hos, hs⟩ := thread_related ScramblerAgrees scrByte_agrees bs h0
    exact ⟨by simp only [scramble, ho, hos], scrNext_agrees hs⟩

theorem rsClear_agrees (h : RsAgrees e e') : RsAgrees (rsClear e) (rsClear e') := ⟨rfl, h.2⟩

theorem rsStep_agrees (d : Byte) (h : RsAgrees e e') : RsAgrees (rsStep e d) (rsStep e' d) := by
  obtain ⟨hr, hg, hx, hl⟩ := h
  rw [rsStep_eq e, rsStep_eq e']
  refine ⟨?_, hg, hx, hl⟩
  simp only [rsStep, Encoder.gfMul, hr, hg, hx, hl]
  split <;> rfl

theorem foldl_rsStep_agrees (d : List Byte) (h : RsAgrees e e') : RsAgrees (d.foldl rsStep e) (d.foldl rsStep e') := by
  induction d generalizing e e' with
  | nil => exact h
  | cons b d ih => exact ih (rsStep_agrees b h)

theorem rsEncode_agrees (d : List Byte) (h : RsAgrees e e') :
    (rsEncode e d).1 = (rsEncode e' d).1 ∧ RsAgrees (rsEncode e d).2 (rsEncode e' d).2 := by
  have k := foldl_rsStep_agrees d (rsClear_agrees h)
  exact ⟨by simp only [rsEncode, k.1], k⟩

theorem ilByte_agrees (p : Nat) (b : Byte) (h : InterleaverAgrees e e') :
    (ilByte e p b).1 = (ilByte e' p b).1 ∧ InterleaverAgrees (ilByte e p b).2 (ilByte e' p b).2 := by
  simp only [InterleaverAgrees] at h
  simp [InterleaverAgrees, h]

theorem interleave_agrees (rs : List Byte) (h : InterleaverAgrees e e') :
    (interleave e rs).1 = (interleave e' rs).1 ∧ InterleaverAgrees (interleave e rs).2 (interleave e' rs).2 := by
  simp only [interleave_eq_thread]
  exact thread_related InterleaverAgrees (fun pb => ilByte_agrees pb.2 pb.1) rs.zipIdx h

theorem ccBit_agrees (b : Bool) (h : ConvAgrees e e') :
    (ccBit e b).1 = (ccBit e' b).1 ∧ ConvAgrees (ccBit e b).2 (ccBit e' b).2 := by
  simp only [ConvAgrees] at h
  simp [ConvAgrees, h]

theorem ccByte_agrees (b : Byte) (h : ConvAgrees e e') :
    (ccByte e b).1 = (ccByte e' b).1 ∧ ConvAgrees (ccByte e b).2 (ccByte e' b).2 := by
  obtain ⟨ho, hr⟩ := thread_related ConvAgrees ccBit_agrees (byteBits b) h
  exact ⟨congrArg flattenPairs ho, hr⟩

theorem convEncode_agrees (il : List Byte) (h : ConvAgrees e e') :
    (convEncode e il).1 = (convEncode e' il).1 ∧ ConvAgrees (convEncode e il).2 (convEncode e' il).2 := by
  obtain ⟨ho, hr⟩ := thread_related ConvAgrees ccByte_agrees il h
  exact ⟨congrArg List.flatten ho, hr⟩

theorem rrcSymbol_agrees (A : Arith Num) (x : Sample) (h : ShaperAgrees e e') :
    (rrcSymbol A e x).1 = (rrcSymbol A e' x).1 ∧ ShaperAgrees (rrcSymbol A e x).2 (rrcSymbol A e' x).2 := by
  obtain ⟨hh, ht, hc⟩ := h
  simp [ShaperAgrees, hh, ht, hc]

theorem rrcShape_agrees (A : Arith Num) (pt : List Sample) (h : ShaperAgrees e e') :
    (rrcShape A e pt).1 = (rrcShape A e' pt).1 ∧ ShaperAgrees (rrcShape A e pt).2 (rrcShape A e' pt).2 := by
  obtain ⟨ho, hr⟩ := thread_related ShaperAgrees (rrcSymbol_agrees A) pt h
  exact ⟨congrArg List.flatten ho, hr⟩

end Reads

section Noninterference

variable {i : Instr} {s t u v : State}

/-- What two runs of one operation return and leave: the same, and related COREs. -/
def SameEnd (R : Encoder → Encoder → Prop) (u v : State) : Prop :=
  u.port.result = v.port.result ∧ u.port.outcome = v.port.outcome ∧ R u.enc v.enc

/-- Operations that complete with the same value returned and with related COREs. -/
theorem sameEnd_of_completeWith {β : Type} {R : Encoder → Encoder → Prop} {p q : β × Encoder} {F : β → Result}
    (hu : whenRun s (s.completeWith p F) = .next u) (hv : whenRun t (t.completeWith q F) = .next v)
    (h : p.1 = q.1 ∧ R p.2 q.2) : SameEnd R u v := by
  obtain ⟨-, rfl⟩ := whenRun_eq_next.mp hu
  obtain ⟨-, rfl⟩ := whenRun_eq_next.mp hv
  exact ⟨congrArg F h.1, rfl, h.2⟩

/-- The same for operations that return nothing. -/
theorem sameEnd_of_complete {R : Encoder → Encoder → Prop} {e e' : Encoder}
    (hu : whenRun s (s.complete e .none) = .next u) (hv : whenRun t (t.complete e' .none) = .next v) (h : R e e') :
    SameEnd R u v :=
  sameEnd_of_completeWith (p := ((), e)) (q := ((), e')) (F := fun _ => .none) hu hv ⟨rfl, h⟩

theorem scrambler_reads_its_own (m : i.opId ∈ [0x10#8, 0x20#8, 0x21#8, 0x22#8]) (hu : exec i s = .next u)
    (hv : exec i t = .next v) (h : ScramblerAgrees s.enc t.enc) : SameEnd ScramblerAgrees u v := by
  cases i with
  | scramble ts => exact sameEnd_of_completeWith hu hv (scramble_agrees ts.toList h)
  | scrByte0 b => exact sameEnd_of_completeWith hu hv (scrByte0_agrees b h)
  | scrByte b => exact sameEnd_of_completeWith hu hv (scrByte_agrees b h)
  | scrNext => exact sameEnd_of_complete hu hv (scrNext_agrees h)
  | _ => simp [Instr.opId] at m

theorem rsEncoder_reads_its_own (m : i.opId ∈ [0x11#8, 0x23#8, 0x24#8]) (hu : exec i s = .next u)
    (hv : exec i t = .next v) (h : RsAgrees s.enc t.enc) : SameEnd RsAgrees u v := by
  cases i with
  | rsEncode d =>
    obtain ⟨-, rfl⟩ := whenRun_eq_next.mp hu
    obtain ⟨-, rfl⟩ := whenRun_eq_next.mp hv
    split
    · obtain ⟨ho, hr⟩ := rsEncode_agrees d h
      exact ⟨congrArg Result.bytes ho, rfl, hr⟩
    · exact ⟨rfl, rfl, h⟩
  | rsClear => exact sameEnd_of_complete hu hv (rsClear_agrees h)
  | rsStep d => exact sameEnd_of_complete hu hv (rsStep_agrees d h)
  | _ => simp [Instr.opId] at m

theorem interleaver_reads_its_own (m : i.opId ∈ [0x12#8, 0x25#8]) (hu : exec i s = .next u)
    (hv : exec i t = .next v) (h : InterleaverAgrees s.enc t.enc) : SameEnd InterleaverAgrees u v := by
  cases i with
  | interleave rs => exact sameEnd_of_completeWith hu hv (interleave_agrees rs.toList h)
  | ilByte p b => exact sameEnd_of_completeWith hu hv (ilByte_agrees p.val b h)
  | _ => simp [Instr.opId] at m

theorem convEncoder_reads_its_own (m : i.opId ∈ [0x13#8, 0x26#8, 0x27#8]) (hu : exec i s = .next u)
    (hv : exec i t = .next v) (h : ConvAgrees s.enc t.enc) : SameEnd ConvAgrees u v := by
  cases i with
  | convEncode il => exact sameEnd_of_completeWith hu hv (convEncode_agrees il h)
  | ccBit b => exact sameEnd_of_completeWith hu hv (ccBit_agrees b h)
  | ccByte b => exact sameEnd_of_completeWith hu hv (ccByte_agrees b h)
  | _ => simp [Instr.opId] at m

/-- The mapper reads nothing of the CORE (45_qpsk_mapper R230). -/
theorem mapper_reads_the_type (m : i.opId ∈ [0x14#8, 0x28#8]) (hu : exec i s = .next u) (hv : exec i t = .next v)
    (h : s.num = t.num) : u.port.result = v.port.result := by
  cases i with
  | qpskMap cb =>
    obtain ⟨-, rfl⟩ := whenRun_eq_next.mp hu
    obtain ⟨-, rfl⟩ := whenRun_eq_next.mp hv
    simp [h]
  | mapDibit b1 b0 =>
    obtain ⟨-, rfl⟩ := whenRun_eq_next.mp hu
    obtain ⟨-, rfl⟩ := whenRun_eq_next.mp hv
    simp [h]
  | _ => simp [Instr.opId] at m

theorem shaper_reads_its_own (m : i.opId ∈ [0x15#8, 0x29#8]) (hu : exec i s = .next u) (hv : exec i t = .next v)
    (hn : s.num = t.num) (h : ShaperAgrees s.enc t.enc) : SameEnd ShaperAgrees u v := by
  cases i with
  | rrcShape pt => exact sameEnd_of_completeWith hu hv (hn ▸ rrcShape_agrees (NumType.arith s.num) pt h)
  | rrcSymbol x => exact sameEnd_of_completeWith hu hv (hn ▸ rrcSymbol_agrees (NumType.arith s.num) x h)
  | _ => simp [Instr.opId] at m

end Noninterference

/-- Settles O13: each stage reads no more than its own elements. -/
theorem stagesReadOnlyTheirOwnState : Obligations.StagesReadOnlyTheirOwnState := by
  intro i s t hs ht
  obtain ⟨u, hu⟩ := exec_of_run i hs
  obtain ⟨v, hv⟩ := exec_of_run i ht
  refine ⟨u, v, hu, hv, ?_, ?_, ?_, ?_, fun m hn => mapper_reads_the_type m hu hv hn, ?_⟩
  · intro m hi hp hl
    obtain ⟨hr, -, hi', hp', -⟩ := scrambler_reads_its_own m hu hv ⟨hi, hp, hl⟩
    exact ⟨hr, hi', hp'⟩
  · intro m hr hg hx hl
    obtain ⟨ho, hx', hr', -⟩ := rsEncoder_reads_its_own m hu hv ⟨hr, hg, hx, hl⟩
    exact ⟨ho, hx', hr'⟩
  · intro m hf
    obtain ⟨hr, -, hf'⟩ := interleaver_reads_its_own m hu hv hf
    exact ⟨hr, hf'⟩
  · intro m hc
    obtain ⟨hr, -, hc'⟩ := convEncoder_reads_its_own m hu hv hc
    exact ⟨hr, hc'⟩
  · intro m hn hh ht hc
    obtain ⟨hr, -, hh', -⟩ := shaper_reads_its_own m hu hv hn ⟨hh, ht, hc⟩
    exact ⟨hr, hh'⟩

/-! ## INIT: the checks of R292, and the CORE of R43 -/

section Init

variable {f : Config.NumType} {a : Config.InitArg}

theorem filterCheck_eq_none {n : Int} {beta : Num} :
    filterCheck n beta = none ↔ 1 ≤ n ∧ n % 2 = 1 ∧ betaOutside beta = false := by
  unfold filterCheck
  split_ifs with hn hb
  · simp only [false_iff]; omega
  · simp [hb]
  · simp only [hb, true_iff, and_true]; omega

/-- INIT checks exactly the legality of its operand (60_exceptions R292, conditions 1 to 4). -/
theorem cfgCheck_eq_none : cfgCheck a = none ↔ InitArgLegal a := by
  unfold cfgCheck InitArgLegal
  split_ifs with hr hd
  · simp only [false_iff]; omega
  · simp only [false_iff]; tauto
  · have hs : 0 < a.symbolRate ∧ 0 < a.sampleRate := by omega
    simp [filterCheck_eq_none, hs, not_not.mp hd]

/-- INIT succeeds just on a legal operand whose normalisation sum is not 0, and the CORE is then that of 10_state R43. -/
theorem initEncoder_eq_ok {e : Encoder} :
    initEncoder f a = .ok e ↔
      InitArgLegal a ∧ Normalisable (upsampling a) a.taps.toNat a.beta ∧ e = Encoder.initial f (cfgOf a) := by
  rw [← cfgCheck_eq_none]
  constructor
  · intro h
    unfold initEncoder buildTaps at h
    split at h
    · cases h
    · split at h
      · cases h
      · rename_i hc _ taps ht
        split at ht
        · cases ht
        · rename_i hz
          obtain rfl := Except.ok.inj ht
          exact ⟨hc, Bool.eq_false_of_not_eq_true hz, (Except.ok.inj h).symm⟩
  · rintro ⟨hc, hn, rfl⟩
    exact initEncoder_ok f a hc hn

theorem upsampling_pos (h : InitArgLegal a) : 1 ≤ upsampling a := by
  obtain ⟨hs, hr, hd, -⟩ := h
  have := Int.ediv_pos_of_pos_of_dvd hr hs.le (Int.dvd_of_emod_eq_zero hd)
  unfold upsampling
  omega

/-- `U` is the ratio of the rates (47_pipeline R260). -/
theorem sampleRate_eq (h : InitArgLegal a) : a.sampleRate = upsampling a * a.symbolRate := by
  have hu := upsampling_pos h
  unfold upsampling at hu ⊢
  rw [Int.toNat_of_nonneg (by omega)]
  exact (Int.ediv_mul_cancel (Int.dvd_of_emod_eq_zero h.2.2.1)).symm

/-- The configuration stored for a legal operand is legal (10_state R37). -/
theorem cfgOf_legal (h : InitArgLegal a) : CfgLegal (cfgOf a) := by
  refine ⟨h.1, sampleRate_eq h, upsampling_pos h, ?_, h.2.2.2.2.2⟩
  obtain ⟨-, -, -, h1, h2, -⟩ := h
  change a.taps.toNat % 2 = 1
  omega

/-- The CORE that a successful INIT makes meets the invariants of 10_state R42. -/
theorem initial_sound (h : InitArgLegal a) (hn : Normalisable (upsampling a) a.taps.toNat a.beta) :
    EncoderSound f (Encoder.initial f (cfgOf a)) := fun _ =>
  ⟨cfgOf_legal h, ⟨rfl, rfl, rfl, rfl, rfl⟩, hn, List.length_replicate, tapTable_length _ _ _ _,
    tapTable_normalised _ _ _ _⟩

/-- The table that RRC_TAPS_BUILD makes is one that R144 accepts. -/
theorem tapTable_acceptable (f : Config.NumType) (u n : Nat) (beta : Num) :
    TapsAcceptable f u n beta (tapTable f u n beta) := by
  refine ⟨tapTable_length f u n beta, fun hf hs => ?_, fun hf => ?_⟩
  · subst hf
    exact ⟨exactTaps_total hs, fun i hi => realValue_exactTaps hs i hi⟩
  · obtain ⟨near, conforming⟩ := tapTable_storable hf u n beta
    exact ⟨near.2, conforming⟩

/-- On operands that pass its checks RRC_TAPS_BUILD returns the table (R143). -/
theorem rrcTapsBuild_ok {u n : Int} {beta : Num} (hu : 1 ≤ u) (hf : filterCheck n beta = none)
    (hn : Normalisable u.toNat n.toNat beta) :
    rrcTapsBuild f u n beta = .ok (tapTable f u.toNat n.toNat beta) := by
  have hz : isZero (tapSum u.toNat n.toNat beta) = false := hn
  simp [rrcTapsBuild, hf, buildTaps, hz, Int.not_lt.mpr hu]

theorem fifos_zero_cells (i : Fin 12) : Fifos.zero.cells i = List.replicate (17 * i.val) 0x00#8 := by
  fin_cases i <;> rfl

theorem fifos_zero_cursor (i : Fin 12) : Fifos.zero.cursor i = 0 := by
  fin_cases i <;> rfl

theorem exec_init {s : State} (h : InitArgLegal a) (hn : Normalisable (upsampling a) a.taps.toNat a.beta) :
    exec (.init a) s = .next (s.complete (Encoder.initial s.num (cfgOf a)) .none) := by
  change execInit a s = _
  simp only [execInit, initEncoder_eq_ok.mpr ⟨h, hn, rfl⟩]

theorem exec_rrcTapsBuild {s : State} {u n : Int} {beta : Num} (hu : 1 ≤ u) (hf : filterCheck n beta = none)
    (hn : Normalisable u.toNat n.toNat beta) :
    exec (.rrcTapsBuild u n beta) s = .next (s.complete s.enc (.taps (tapTable s.num u.toNat n.toNat beta))) := by
  change execRrcTapsBuild u n beta s = _
  simp only [execRrcTapsBuild, rrcTapsBuild_ok hu hf hn]

end Init

/-- Settles O51: the CORE is `Encoder.initial`, whose tables are what the builders return. -/
theorem initIsAFullReset : Obligations.InitIsAFullReset := by
  intro a s h hn
  have taps : exec (.rrcTapsBuild (upsampling a) a.taps a.beta) s =
      completes s s.enc (.taps (tapTable s.num (upsampling a) a.taps.toNat a.beta)) :=
    exec_rrcTapsBuild (by exact_mod_cast upsampling_pos h) (filterCheck_eq_none.mpr h.2.2.2) hn
  exact ⟨Encoder.initial s.num (cfgOf a), exec_init h hn, rfl, rfl, rfl, rfl, rfl,
    fun i => ⟨fifos_zero_cells i, fifos_zero_cursor i⟩, rfl, rfl, rfl, rfl, rfl, rfl, taps,
    tapTable_acceptable s.num (upsampling a) a.taps.toNat a.beta⟩

/-! ## The invariants -/

theorem defaultInit_legal : InitArgLegal defaultInit :=
  ⟨by decide, by decide, by decide, by decide, by decide, by decide +kernel⟩

/-- The enclosure of the normalisation sum of the default filter does not hold 0 (condition 5 of R292). -/
theorem defaultInit_normalisable : Normalisable (upsampling defaultInit) defaultInit.taps.toNat defaultInit.beta := by
  decide +kernel

/-- Settles O10: the state after reset is what INIT makes of the default operand. -/
theorem resetIsSound : Obligations.ResetIsSound :=
  ⟨initial_sound defaultInit_legal defaultInit_normalisable, Nat.zero_le _⟩

section Sound

variable {f : Config.NumType} {w : List Register} {e e' : Encoder} {i : Instr} {s u : State}

theorem histLength_pos {c : Cfg} (h : CfgLegal c) : 1 ≤ histLength c.n c.u := by
  obtain ⟨-, -, hu, hn, -⟩ := h
  exact Nat.div_pos (by omega) hu

/-- The push of R244 keeps a history of full length at that length. -/
theorem pushSymbol_length {K : Type} {c : Cfg} (h : 1 ≤ histLength c.n c.u) {l : List (SampleOf K)} (x : SampleOf K)
    (hl : l.length = histLength c.n c.u) : (pushSymbol c l x).length = histLength c.n c.u := by
  simp only [pushSymbol, List.length_cons, List.length_take]
  omega

/-- The symbol history has the length `H` of its configuration (10_state R29). -/
def HistFull (e : Encoder) : Prop := e.hist.length = histLength e.cfg.n e.cfg.u

theorem rrcSymbol_histFull (A : Arith Num) (x : Sample) (h : CfgLegal e.cfg) (k : HistFull e) :
    HistFull (rrcSymbol A e x).2 := pushSymbol_length (histLength_pos h) x k

theorem rrcShape_histFull (A : Arith Num) (pt : List Sample) (h : CfgLegal e.cfg) (k : HistFull e) :
    HistFull (rrcShape A e pt).2 :=
  (thread_keeps (rrcSymbol A) (fun e => CfgLegal e.cfg ∧ HistFull e)
    (fun _ x ⟨hc, hh⟩ => ⟨hc, rrcSymbol_histFull A x hc hh⟩) e pt ⟨h, k⟩).2

/-- An operation that does not write the history keeps its length. -/
theorem ChangesOnly.histFull (c : ChangesOnly w e e') (n : .hist ∉ w) (h : HistFull e) : HistFull e' := by
  unfold HistFull
  rw [c.hist n, c.cfg]
  exact h

theorem pushPacket_histFull (l : List Byte) (h : CfgLegal e.cfg) (k : HistFull e) :
    HistFull (pushPacket f e l).2 := by
  have c : ChangesOnly [.pktIdx, .prbsPos, .rem, .fifo, .ccState] e (codePacket e l).2 :=
    codePacket_changesOnly e l (by simp) (by simp) (by simp) (by simp) (by simp)
  rw [pushPacket_eq]
  exact rrcShape_histFull _ _ (c.cfg ▸ h) (c.histFull (by simp) k)

/-- The operations that write the history: the shaper's and PUSH_PACKET (10_state R21). -/
theorem hist_mem_writes (h : .hist ∈ writes i) :
    (∃ ts, i = .pushPacket ts) ∨ (∃ pt, i = .rrcShape pt) ∨ ∃ x, i = .rrcSymbol x := by
  cases i <;> simp_all [writes]

/-- Every operation but INIT keeps the history at its length. -/
theorem exec_histFull (hi : ∀ a, i ≠ .init a) (h : exec i s = .next u) (hc : CfgLegal s.enc.cfg)
    (k : HistFull s.enc) : HistFull u.enc := by
  by_cases m : Register.hist ∈ writes i
  · obtain ⟨ts, rfl⟩ | ⟨pt, rfl⟩ | ⟨x, rfl⟩ := hist_mem_writes m <;> obtain ⟨-, rfl⟩ := whenRun_eq_next.mp h
    · exact pushPacket_histFull ts.toList hc k
    · exact rrcShape_histFull (NumType.arith s.num) pt hc k
    · exact rrcSymbol_histFull (NumType.arith s.num) x hc k
  · exact ((exec_effect h).core hi).histFull m k

/-- The invariants of 10_state R42 follow the elements they speak of. -/
theorem encoderSound_of_changesOnly (k : EncoderSound f e) (c : ChangesOnly w e e')
    (hh : CfgLegal e.cfg → HistFull e → HistFull e') : EncoderSound f e' := by
  intro run
  obtain ⟨hc, ⟨hx, hl, hg, hp, ht⟩, hn, hf, htl, hno⟩ := k (c.mode ▸ run)
  have full := hh hc hf
  unfold HistFull at full
  simp only [TablesBuilt, c.gfExp, c.gfLog, c.g, c.prbsLut, c.taps, c.cfg] at full ⊢
  exact ⟨hc, ⟨hx, hl, hg, hp, ht⟩, hn, full, htl, hno⟩

/-- A start-up leaves a sound CORE: the reset one, or one that is not in RUN. -/
theorem execInit_sound {a : Config.InitArg} (h : execInit a s = .next u) : EncoderSound s.num u.enc := by
  rcases execInit_eq_next h with ⟨e, he, rfl⟩ | ⟨c, -, rfl⟩
  · obtain ⟨legal, normalisable, rfl⟩ := initEncoder_eq_ok.mp he
    exact initial_sound legal normalisable
  · intro run
    cases run

/-- Every operation keeps a sound state sound. -/
theorem exec_sound (h : exec i s = .next u) (k : Sound s) : Sound u := by
  have effect := exec_effect h
  refine ⟨?_, effect.queue k.2⟩
  rw [effect.num]
  by_cases hi : ∃ a, i = .init a
  · obtain ⟨a, rfl⟩ := hi
    exact execInit_sound h
  · have hi : ∀ a, i ≠ .init a := fun a e => hi ⟨a, e⟩
    exact encoderSound_of_changesOnly k.1 (effect.core hi) (exec_histFull hi h)

/-- Soundness is about the CORE, the numeric type, the queue and its capacity only. -/
theorem sound_of_eq (k : Sound s) (he : u.enc = s.enc) (hn : u.num = s.num) (hq : u.bnd.queue = s.bnd.queue)
    (hc : u.bnd.cap = s.bnd.cap) : Sound u := by
  simp only [Sound, QueueSound, he, hn, hq, hc]
  exact k

/-- No report touches the queue or its capacity (R281, R283). -/
theorem takeEvent_queue (ev : HostEvent) (s : State) :
    (takeEvent ev s).bnd.queue = s.bnd.queue ∧ (takeEvent ev s).bnd.cap = s.bnd.cap := by
  cases ev with
  | inputEOF => rcases endInput_cases .inputEOF s with ⟨-, h⟩ | ⟨-, h⟩ <;> simp [takeEvent, h]
  | inputReadError => rcases endInput_cases .inputReadError s with ⟨-, h⟩ | ⟨-, h⟩ <;> simp [takeEvent, h]
  | deviceError => simp [takeEvent]
  | shutdown => simp [takeEvent]

end Sound

/-- Settles O9: a report, an empty turn and the end of the transfer touch nothing that soundness is about, and a request
is an operation. -/
theorem stepKeepsSound : Obligations.StepKeepsSound := by
  intro s u sound h
  obtain ⟨ev, -, rfl⟩ | ⟨-, -, rfl⟩ | ⟨-, -, -, rfl⟩ | ⟨-, t, i, rest, v, -, -, -, hx, rfl⟩ := step_eq_next h
  · obtain ⟨he, hn⟩ := takeEvent_enc ev s
    obtain ⟨hq, hc⟩ := takeEvent_queue ev s
    exact sound_of_eq sound he hn hq hc
  · exact sound_of_eq sound rfl rfl rfl rfl
  · obtain ⟨he, hn, hb⟩ := stopTransfer_frame s
    exact sound_of_eq sound he hn (by simp [hb]) (by simp [hb])
  · exact sound_of_eq (exec_sound hx sound) (settle_enc _ _ _ _) (settle_num _ _ _ _) (settle_queue _ _ _ _)
      (settle_cap _ _ _ _)

/-! ## The sizes of what each stage emits (47_pipeline R264) -/

section Lengths

variable (e : Encoder)

theorem scramble_length (l : List Byte) : (scramble e l).1.length = l.length := by
  cases l <;> simp [scramble]

theorem rsEncode_length (d : List Byte) : (rsEncode e d).1.length = d.length + 16 := by
  simp [rsEncode]

theorem interleave_length (rs : List Byte) : (interleave e rs).1.length = rs.length := by
  simp [interleave_eq_thread]

theorem flattenPairs_length (l : List (Bool × Bool)) : (flattenPairs l).length = 2 * l.length := by
  induction l with
  | nil => rfl
  | cons p l ih =>
    simp only [flattenPairs, List.flatMap_cons, List.length_append, List.length_cons, List.length_nil] at ih ⊢
    omega

theorem ccByte_length (b : Byte) : (ccByte e b).1.length = 16 := by
  simp [ccByte, flattenPairs_length, byteBits]

theorem convEncode_length (il : List Byte) : (convEncode e il).1.length = 16 * il.length :=
  thread_flatten_length (fun _ => True) 16 (fun _ _ _ => trivial) (fun e b _ => ccByte_length e b) e il trivial

theorem dibits_length (l : List Bool) : (dibits l).length = l.length / 2 := by
  induction l using dibits.induct with
  | case1 b1 b0 rest ih => simp only [dibits, List.length_cons, ih]; omega
  | case2 b => simp [dibits]
  | case3 => rfl

theorem rrcShape_length (A : Arith Num) (pt : List Sample) : (rrcShape A e pt).1.length = e.cfg.u * pt.length :=
  thread_flatten_length (fun e' => e'.cfg = e.cfg) e.cfg.u (fun _ _ h => h) (fun _ _ h => by simp [h]) e pt rfl

theorem outerCode_length (ts : List Byte) : (outerCode e ts).1.length = ts.length + 16 := by
  simp only [outerCode, rsEncode_length, scramble_length]

theorem codePacket_length (ts : List Byte) : (codePacket e ts).1.length = 16 * (ts.length + 16) := by
  simp only [codePacket, convEncode_length, interleave_length, outerCode_length]

/-- PUSH_PACKET gives `1632·U` samples. -/
theorem pushPacket_length (f : Config.NumType) (ts : Packet 188) :
    (pushPacket f e ts.toList).1.length = 1632 * e.cfg.u := by
  have c : ChangesOnly [.pktIdx, .prbsPos, .rem, .fifo, .ccState] e (codePacket e ts.toList).2 :=
    codePacket_changesOnly e _ (by simp) (by simp) (by simp) (by simp) (by simp)
  rw [pushPacket_eq, rrcShape_length, c.cfg]
  simp only [qpskMap, List.length_map, dibits_length, codePacket_length, Vector.length_toList]
  ring

end Lengths

/-! ## The counters (10_state R42) -/

section Counters

variable (e : Encoder)

theorem thread_scrByte_prbsPos (l : List Byte) :
    (thread scrByte e l).2.prbsPos.val = (e.prbsPos.val + l.length) % 1503 := by
  induction l generalizing e with
  | nil => exact (Nat.mod_eq_of_lt e.prbsPos.isLt).symm
  | cons b l ih =>
    rw [thread_cons, ih, scrByte_snd, List.length_cons, Fin.val_add]
    simp only [Fin.val_one]
    omega

theorem scramble_pktIdx (l : List Byte) : (scramble e l).2.pktIdx = e.pktIdx + 1 := by
  cases l with
  | nil => rfl
  | cons b bs =>
    have c : ChangesOnly [.prbsPos] e (thread scrByte (scrByte0 e b).2 bs).2 :=
      (scrByte0_changesOnly e (by simp) b).trans (thread_changesOnly _ (fun e => scrByte_changesOnly e (by simp)) bs)
    simp only [scramble, scrNext_pktIdx, c.pktIdx (by simp)]

/-- A packet's first byte sets the cursor back at a superframe start, and each other byte moves it on (R151, R153). -/
theorem scramble_prbsPos (b : Byte) (bs : List Byte) :
    (scramble e (b :: bs)).2.prbsPos.val = ((if e.pktIdx = 0 then 0 else e.prbsPos.val) + bs.length) % 1503 := by
  simp only [scramble, scrNext_prbsPos, thread_scrByte_prbsPos]
  by_cases h : e.pktIdx = 0
  · rw [scrByte0_start e b (by simp [superframeStart, h])]; simp [h]
  · rw [scrByte0_inside e b (by simp [superframeStart, h])]; simp [h]

theorem Fifos.visit_cursor_self (f : Fifos) (i : Fin 12) (b : Byte) (h : i ≠ 0) :
    (f.visit i b).2.cursor i = (f.cursor i + 1) % (17 * i.val) := by
  fin_cases i
  · exact absurd rfl h
  all_goals rfl

/-- Each byte on branch `i` moves that branch's cursor on by one, and no other byte does (R192, R193). -/
theorem thread_ilElement_cursor (l : List (Byte × Nat)) (i : Fin 12) (h : i ≠ 0) :
    (thread ilElement e l).2.fifo.cursor i =
      (e.fifo.cursor i + (l.map Prod.snd).countP (branchOf · = i)) % (17 * i.val) := by
  induction l generalizing e with
  | nil => exact (Nat.mod_eq_of_lt (e.fifo.cursor_lt i h)).symm
  | cons x l ih =>
    rw [thread_cons, ih, List.map_cons, List.countP_cons]
    simp only [ilElement, ilByte_snd]
    by_cases hx : branchOf x.2 = i
    · rw [hx, Fifos.visit_cursor_self _ _ _ h]
      simp [Nat.add_assoc, Nat.add_comm 1]
    · rw [Fifos.visit_cursor_other _ _ _ _ (Ne.symm hx)]
      simp [hx]

/-- Of the 204 positions of a packet 17 are on each branch (R192). -/
theorem positions_on_branch (i : Fin 12) : (List.range 204).countP (branchOf · = i) = 17 := by
  revert i; decide +kernel

theorem interleave_cursor (rs : List Byte) (hl : rs.length = 204) (i : Fin 12) (h : i ≠ 0) :
    (interleave e rs).2.fifo.cursor i = (e.fifo.cursor i + 17) % (17 * i.val) := by
  rw [interleave_eq_thread, thread_ilElement_cursor e _ i h, List.zipIdx_map_snd, hl, ← List.range_eq_range',
    positions_on_branch]

theorem outerCode_fifo (ts : List Byte) : (outerCode e ts).2.fifo = e.fifo :=
  (outerCode_changesOnly (w := [.pktIdx, .prbsPos, .rem]) e ts (by simp) (by simp) (by simp)).fifo (by simp)

/-- The stages after the scrambler leave its registers alone. -/
theorem pushPacket_after_scramble (f : Config.NumType) (ts : List Byte) :
    ChangesOnly [.rem, .fifo, .ccState, .hist] (scramble e ts).2 (pushPacket f e ts).2 :=
  (((rsEncode_changesOnly _ (by simp) _).trans (interleave_changesOnly _ (by simp) _)).trans
    (convEncode_changesOnly _ (by simp) _)).trans (rrcShape_changesOnly _ _ (by simp) _)

/-- The stages after the interleaver leave its delay lines alone. -/
theorem pushPacket_fifo (f : Config.NumType) (ts : List Byte) :
    (pushPacket f e ts).2.fifo = (interleave (outerCode e ts).2 (outerCode e ts).1).2.fifo :=
  ((convEncode_changesOnly (w := [.ccState, .hist]) _ (by simp) _).trans
    (rrcShape_changesOnly _ (NumType.arith f) (by simp) _)).fifo (by simp)

theorem pushPacket_pktIdx (f : Config.NumType) (ts : List Byte) : (pushPacket f e ts).2.pktIdx = e.pktIdx + 1 := by
  rw [(pushPacket_after_scramble e f ts).pktIdx (by simp), scramble_pktIdx]

theorem pushPacket_prbsPos (f : Config.NumType) (ts : Packet 188) :
    (pushPacket f e ts.toList).2.prbsPos.val = ((if e.pktIdx = 0 then 0 else e.prbsPos.val) + 187) % 1503 := by
  obtain ⟨b, bs, hts⟩ := List.exists_cons_of_length_pos (l := ts.toList) (by simp)
  have hl : bs.length = 187 := by simpa [hts] using ts.length_toList
  rw [(pushPacket_after_scramble e f _).prbsPos (by simp), hts, scramble_prbsPos, hl]

theorem pushPacket_cursor (f : Config.NumType) (ts : Packet 188) (i : Fin 12) (h : i ≠ 0) :
    (pushPacket f e ts.toList).2.fifo.cursor i = (e.fifo.cursor i + 17) % (17 * i.val) := by
  rw [pushPacket_fifo, interleave_cursor _ _ (by simp [outerCode_length]) i h, outerCode_fifo]

variable {e} {n : Nat}

/-- One packet more (10_state R42). -/
theorem countersAfter_pushPacket (h : CountersAfter n e) (f : Config.NumType) (ts : Packet 188) :
    CountersAfter (n + 1) (pushPacket f e ts.toList).2 := by
  obtain ⟨hi, h0, hp, hc⟩ := h
  refine ⟨?_, fun k => absurd k n.succ_ne_zero, fun _ => ?_, fun i k => ?_⟩
  · rw [pushPacket_pktIdx, Fin.val_add, hi]
    simp
  · have start : e.pktIdx = 0 ↔ n % 8 = 0 := by rw [← hi, Fin.ext_iff]; rfl
    rw [pushPacket_prbsPos]
    split
    · rename_i s
      have := start.mp s
      omega
    · rename_i s
      have inside := start.not.mp s
      have place : (n - 1) % 8 + 1 = n % 8 := by omega
      rw [hp (by omega), place, Nat.add_sub_cancel]
      omega
  · rw [pushPacket_cursor _ f ts i k, hc i k, Nat.mod_add_mod]
    congr 1

theorem counters_of_streamStart (h : AtStreamStart e) : CountersAfter 0 e := by
  obtain ⟨-, hi, hp, hc⟩ := h
  exact ⟨by simp [hi], fun _ => by simp [hp], fun k => absurd rfl k, fun i _ => by simp [hc i]⟩

/-- The CORE of 10_state R43 is at the start of a stream. -/
theorem initial_atStreamStart (f : Config.NumType) (c : Cfg) : AtStreamStart (Encoder.initial f c) :=
  ⟨rfl, rfl, rfl, fifos_zero_cursor⟩

/-- The counters of R42 do not speak of the count of dropped blocks. -/
theorem countersAfter_withCount (h : CountersAfter n e) (drops : Nat) :
    CountersAfter n { e with syncLossCount := drops } := h

theorem exec_pushPacket (s : State) (ts : Packet 188) (h : s.enc.mode = .run) :
    exec (.pushPacket ts) s =
      .next (s.complete (pushPacket s.num s.enc ts.toList).2
        (.samples (pushPacket s.num s.enc ts.toList).1)) := whenRun_run h

/-- Packets in order, from any packet count. -/
theorem runOps_pushPackets (packets : List (Packet 188)) (s : State) (run : s.enc.mode = .run)
    (h : CountersAfter n s.enc) :
    ∃ (ls : List (List Sample)) (u : State),
      runOps (packets.map Instr.pushPacket) s = some (ls.map Result.samples, u) ∧
      ls.length = packets.length ∧ (∀ l ∈ ls, l.length = 1632 * s.enc.cfg.u) ∧
      u.enc.mode = .run ∧ u.bnd = s.bnd ∧ u.enc.syncLossCount = s.enc.syncLossCount ∧
      CountersAfter (n + packets.length) u.enc := by
  induction packets generalizing s n with
  | nil => exact ⟨[], s, rfl, rfl, by simp, run, rfl, rfl, h⟩
  | cons ts packets ih =>
    have c := pushPacket_changesOnly s.num s.enc ts ts.toList
    obtain ⟨ls, u, hu, hl, hs, hm, hb, hd, hc⟩ :=
      ih (s.complete (pushPacket s.num s.enc ts.toList).2
        (.samples (pushPacket s.num s.enc ts.toList).1)) (c.mode.trans run) (countersAfter_pushPacket h s.num ts)
    refine ⟨(pushPacket s.num s.enc ts.toList).1 :: ls, u, ?_, by simp [hl], ?_, hm, hb,
      hd.trans (c.syncLossCount (by simp [writes])), ?_⟩
    · simp [runOps, exec_pushPacket s ts run, hu]
    · rw [State.complete_enc, c.cfg] at hs
      exact List.forall_mem_cons.mpr ⟨pushPacket_length s.enc s.num ts, hs⟩
    · rw [List.length_cons, Nat.add_comm packets.length, ← Nat.add_assoc]
      exact hc

/-- Accepted packets, as a CORE takes them one after another. -/
theorem foldl_pushPacket_counters (f : Config.NumType) (packets : List (Packet 188)) (run : e.mode = .run)
    (h : CountersAfter n e) :
    (packets.foldl (fun e ts => (pushPacket f e ts.toList).2) e).mode = .run ∧
      CountersAfter (n + packets.length) (packets.foldl (fun e ts => (pushPacket f e ts.toList).2) e) := by
  induction packets generalizing e n with
  | nil => exact ⟨run, h⟩
  | cons ts packets ih =>
    rw [List.length_cons, Nat.add_comm packets.length, ← Nat.add_assoc]
    exact ih ((pushPacket_changesOnly f e ts ts.toList).mode.trans run) (countersAfter_pushPacket h f ts)

theorem counters_of_inService {f : Config.NumType} {packets : List (Packet 188)} (h : InService f packets e) :
    e.mode = .run ∧ CountersAfter packets.length e := by
  obtain ⟨-, a, start, drops, hs, rfl⟩ := h
  obtain ⟨-, -, rfl⟩ := initEncoder_eq_ok.mp hs
  have k := foldl_pushPacket_counters f packets rfl (counters_of_streamStart (initial_atStreamStart f (cfgOf a)))
  rw [Nat.zero_add] at k
  exact ⟨k.1, countersAfter_withCount k.2 drops⟩

end Counters

/-! ## The count of dropped blocks is read by no stage -/

section WithCount

variable (e : Encoder) (n : Nat)

/-- The CORE with another count of dropped blocks. -/
def Encoder.withCount (e : Encoder) (n : Nat) : Encoder := { e with syncLossCount := n }

theorem scrByte0_withCount (b : Byte) :
    scrByte0 (e.withCount n) b = ((scrByte0 e b).1, (scrByte0 e b).2.withCount n) := by
  cases h : superframeStart e.pktIdx
  · rw [scrByte0_inside e b h, scrByte0_inside (e.withCount n) b h]
  · rw [scrByte0_start e b h, scrByte0_start (e.withCount n) b h]
    rfl

theorem scramble_withCount (l : List Byte) :
    scramble (e.withCount n) l = ((scramble e l).1, (scramble e l).2.withCount n) := by
  cases l with
  | nil => rfl
  | cons b bs =>
    have t := thread_commute (f := scrByte) (·.withCount n) (fun _ _ => rfl) (scrByte0 e b).2 bs
    simp only [scramble, scrByte0_withCount, t]
    rfl

theorem rsStep_withCount (d : Byte) : rsStep (e.withCount n) d = (rsStep e d).withCount n := by
  cases h : feedbackNonzero (d ^^^ e.rem[0]) <;> simp [rsStep, Encoder.withCount, Encoder.gfMul, h]

theorem rsEncode_withCount (d : List Byte) :
    rsEncode (e.withCount n) d = ((rsEncode e d).1, (rsEncode e d).2.withCount n) := by
  have t : d.foldl rsStep ((rsClear e).withCount n) = (d.foldl rsStep (rsClear e)).withCount n :=
    List.foldl_hom (·.withCount n) fun e d => rsStep_withCount e n d
  have c : rsClear (e.withCount n) = (rsClear e).withCount n := rfl
  simp only [rsEncode, c, t]
  rfl

theorem interleave_withCount (rs : List Byte) :
    interleave (e.withCount n) rs = ((interleave e rs).1, (interleave e rs).2.withCount n) :=
  thread_commute (f := ilElement) (·.withCount n) (fun _ _ => rfl) e rs.zipIdx

theorem ccByte_withCount (b : Byte) :
    ccByte (e.withCount n) b = ((ccByte e b).1, (ccByte e b).2.withCount n) := by
  have t := thread_commute (f := ccBit) (·.withCount n) (fun _ _ => rfl) e (byteBits b)
  simp only [ccByte, t]

theorem convEncode_withCount (il : List Byte) :
    convEncode (e.withCount n) il = ((convEncode e il).1, (convEncode e il).2.withCount n) := by
  have t := thread_commute (f := ccByte) (·.withCount n) (fun e b => ccByte_withCount e n b) e il
  simp only [convEncode, t]

theorem rrcShape_withCount (A : Arith Num) (pt : List Sample) :
    rrcShape A (e.withCount n) pt = ((rrcShape A e pt).1, (rrcShape A e pt).2.withCount n) := by
  have t := thread_commute (f := rrcSymbol A) (·.withCount n) (fun _ _ => rfl) e pt
  simp only [rrcShape, t]

theorem pushPacket_withCount (f : Config.NumType) (ts : List Byte) :
    pushPacket f (e.withCount n) ts = ((pushPacket f e ts).1, (pushPacket f e ts).2.withCount n) := by
  simp only [pushPacket, scramble_withCount, rsEncode_withCount, interleave_withCount, convEncode_withCount,
    rrcShape_withCount]

/-- A CORE in service that takes one more accepted packet stays in service (70_reset_and_hazards R335). -/
theorem inService_pushPacket {f : Config.NumType} {packets : List (Packet 188)} {e : Encoder}
    (h : InService f packets e) {ts : Packet 188} (offered : ts[0] = 0x47#8) :
    InService f (packets ++ [ts]) (pushPacket f e ts.toList).2 := by
  obtain ⟨accepted, a, start, drops, hs, rfl⟩ := h
  refine ⟨?_, a, start, drops, hs, ?_⟩
  · intro p hp
    rcases List.mem_append.mp hp with hp | hp
    · exact accepted p hp
    · rw [List.mem_singleton.mp hp]; exact offered
  · rw [List.foldl_append, List.foldl_cons, List.foldl_nil]
    generalize packets.foldl _ start = e
    exact congrArg Prod.snd (pushPacket_withCount e drops f ts.toList)

end WithCount

/-- Settles O54: each packet moves the counters on by one packet, and reads nothing of the count of dropped blocks. -/
theorem countersFollowThePacketCount : Obligations.CountersFollowThePacketCount := by
  refine ⟨fun s packets start => ?_, fun f packets e => counters_of_inService, fun s packets ts premises service => ?_⟩
  · have k := runOps_pushPackets packets s start.1 (counters_of_streamStart start)
    rwa [Nat.zero_add] at k
  · have offered : ts[0] = 0x47#8 := by simpa [Instr.wf] using premises.offered
    exact ⟨_, exec_pushPacket s ts premises.running, inService_pushPacket service offered⟩

end Sys2Proof.Machine
end

section
/-! PROOFS. Requests as bytes: each reader undoes its writer (log entry 6), and so the decoder undoes the encoder; a byte
that is no id of 30_encoding R100 names no operation (R110). -/

namespace Sys2Proof.Machine

open Sys2Proof.Config

/-! ## Readers that read back what was written -/

/-- From bytes that begin with `bs` the reader takes exactly `bs` and answers `x`. -/
def Reads {α : Type} (p : Reader α) (bs : List Byte) (x : α) : Prop := ∀ rest, p (bs ++ rest) = .ok (x, rest)

section Reads

variable {α β γ : Type} {p : Reader α} {q : Reader β} {bs cs : List Byte} {x : α} {y : β}

theorem reads_done (x : α) : Reads (Reader.done x) [] x := fun _ => rfl

theorem Reads.andThen {f : α → Reader β} (hp : Reads p bs x) (hf : Reads (f x) cs y) :
    Reads (p.andThen f) (bs ++ cs) y := by
  intro rest
  rw [List.append_assoc, Reader.andThen_ok (hp (cs ++ rest)), hf rest]

theorem Reads.apply (hp : Reads p bs x) (f : α → β) : Reads (p.apply f) bs (f x) := fun rest =>
  Reader.apply_ok (hp rest)

/-- Two parts in order, put together by `f`. -/
theorem Reads.apply₂ {f : α → β → γ} (hp : Reads p bs x) (hq : Reads q cs y) :
    Reads (p.andThen fun x => q.apply (f x)) (bs ++ cs) (f x y) :=
  hp.andThen (hq.apply (f x))

theorem reads_byte (b : Byte) : Reads getByte [b] b := fun _ => rfl

theorem reads_bit (b : Bool) : Reads getBit (putBit b) b := by cases b <;> exact fun _ => rfl

theorem reads_dibit (d : Bool × Bool) : Reads getDibit (putBit d.1 ++ putBit d.2) d :=
  (reads_bit d.1).apply₂ (reads_bit d.2)

theorem reads_position (p : Fin 204) : Reads getPosition [BitVec.ofNat 8 p.val] p := by
  intro rest
  have hb : (BitVec.ofNat 8 p.val).toNat = p.val := by
    rw [BitVec.toNat_ofNat]; exact Nat.mod_eq_of_lt (by omega)
  simp [getPosition, hb]

theorem reads_packet {n : Nat} (v : Packet n) : Reads (getPacket n) v.toList v := by
  intro rest
  have taken : (v.toList ++ rest).take n = v.toList := List.take_left' v.length_toList
  have left : (v.toList ++ rest).drop n = rest := List.drop_left' v.length_toList
  simp only [getPacket, taken, left, v.length_toList, dif_pos]
  rfl

/-! ### Integers and rational numbers -/

/-- The last group of seven bits, bit 7 clear. -/
theorem getNat_last {n : Nat} (h : n < 128) : Reads getNat [BitVec.ofNat 8 n] n := by
  intro rest
  have hb : (BitVec.ofNat 8 n).toNat = n := by
    rw [BitVec.toNat_ofNat]; exact Nat.mod_eq_of_lt (by omega)
  simp only [List.singleton_append, getNat, hb, if_pos h]

/-- A group of seven bits with bit 7 set, before the groups of the rest. -/
theorem getNat_group {n : Nat} (h : Reads getNat bs (n / 128)) :
    Reads getNat (BitVec.ofNat 8 (n % 128 + 128) :: bs) n := by
  intro rest
  have hb : (BitVec.ofNat 8 (n % 128 + 128)).toNat = n % 128 + 128 := by
    rw [BitVec.toNat_ofNat]; exact Nat.mod_eq_of_lt (by omega)
  have big : ¬ n % 128 + 128 < 128 := by omega
  have whole : n % 128 + 128 - 128 + 128 * (n / 128) = n := by omega
  simp only [List.cons_append, getNat, hb, if_neg big, h rest, whole]

theorem reads_natGroups (fuel n : Nat) (h : n ≤ fuel) : Reads getNat (putNatGroups fuel n) n := by
  induction fuel generalizing n with
  | zero => exact getNat_last (by omega)
  | succ fuel ih =>
    unfold putNatGroups
    split
    · exact getNat_last ‹_›
    · exact getNat_group (ih _ (by omega))

theorem reads_nat (n : Nat) : Reads getNat (putNat n) n := reads_natGroups n n le_rfl

theorem intOfCode_codeOfInt (z : Int) : intOfCode (codeOfInt z) = z := by
  cases z with
  | ofNat n => simp [codeOfInt, intOfCode]
  | negSucc n =>
    have odd : (2 * n + 1) % 2 ≠ 0 := by omega
    have half : (2 * n + 1) / 2 = n := by omega
    simp only [codeOfInt, intOfCode, if_neg odd, half]

theorem reads_int (z : Int) : Reads getInt (putInt z) z := by
  have h := (reads_nat (codeOfInt z)).apply intOfCode
  rwa [intOfCode_codeOfInt] at h

theorem reads_rat (q : Rat) : Reads getRat (putRat q) q := by
  have h := (reads_int q.num).apply₂ (f := fun z d => mkRat z (d + 1)) (reads_nat (q.den - 1))
  rwa [Nat.sub_add_cancel q.den_pos, Rat.mkRat_self] at h

/-! ### Numbers -/

/-- One reader of numbers that takes the byte of the kind and then the parts. -/
theorem Reads.num {depth : Nat} {tag : Byte} {e : Num} (h : Reads (getNumParts (getNumWithin depth) tag) bs e) :
    Reads (getNumWithin (depth + 1)) (tag :: bs) e :=
  (reads_byte tag).andThen h

theorem putNum_ne_nil (e : Num) : putNum e ≠ [] := by cases e <;> exact List.cons_ne_nil _ _

/-- A number is no deeper than it has bytes. -/
theorem reads_numWithin (e : Num) : ∀ depth, (putNum e).length ≤ depth → Reads (getNumWithin depth) (putNum e) e
  | 0, h => absurd (List.length_eq_zero_iff.mp (Nat.le_zero.mp h)) (putNum_ne_nil e)
  | depth + 1, h => by
    cases e with
    | rat q => exact .num ((reads_rat q).apply _)
    | pi => exact .num (reads_done _)
    | named k => exact .num ((reads_nat k).apply _)
    | sinPi e => exact .num ((reads_numWithin e depth (Nat.le_of_succ_le_succ h)).apply _)
    | cosPi e => exact .num ((reads_numWithin e depth (Nat.le_of_succ_le_succ h)).apply _)
    | opp e => exact .num ((reads_numWithin e depth (Nat.le_of_succ_le_succ h)).apply _)
    | sum a b =>
      simp only [putNum, List.length_cons, List.length_append] at h
      exact .num ((reads_numWithin a depth (by omega)).apply₂ (reads_numWithin b depth (by omega)))
    | prod a b =>
      simp only [putNum, List.length_cons, List.length_append] at h
      exact .num ((reads_numWithin a depth (by omega)).apply₂ (reads_numWithin b depth (by omega)))
    | quot a b =>
      simp only [putNum, List.length_cons, List.length_append] at h
      exact .num ((reads_numWithin a depth (by omega)).apply₂ (reads_numWithin b depth (by omega)))

theorem reads_num (e : Num) : Reads getNum (putNum e) e := fun rest =>
  reads_numWithin e (putNum e ++ rest).length (by simp) rest

theorem reads_sample (x : Sample) : Reads getSample (putSample x) x :=
  (reads_num x.i).apply₂ (reads_num x.q)

/-! ### Sequences and the operand of INIT -/

theorem reads_many {put : α → List Byte} (hp : ∀ x, Reads p (put x) x) (xs : List α) :
    Reads (getMany p xs.length) (xs.flatMap put) xs := by
  induction xs with
  | nil => exact reads_done _
  | cons x xs ih => exact (hp x).andThen (ih.apply _)

theorem reads_seq {put : α → List Byte} (hp : ∀ x, Reads p (put x) x) (xs : List α) :
    Reads (getSeq p) (putSeq put xs) xs :=
  (reads_nat xs.length).andThen (reads_many hp xs)

theorem reads_prbs (src : PrbsSource) : Reads getPrbs (putPrbs src) src := by
  cases src with
  | recurrence => exact fun _ => rfl
  | table lut => exact (reads_packet lut).apply PrbsSource.table

theorem reads_initArg (a : InitArg) : Reads getInitArg (putInitArg a) a := by
  rw [putInitArg, List.append_assoc, List.append_assoc, List.append_assoc]
  refine Reads.andThen (reads_int a.symbolRate) ?_
  refine Reads.andThen (reads_int a.sampleRate) ?_
  refine Reads.andThen (reads_int a.taps) ?_
  exact (reads_num a.beta).apply₂ (reads_prbs a.prbs)

end Reads

/-! ## Requests -/

/-- The operand bytes of every operation give its operands back, under its own id (30_encoding R100). -/
theorem reads_operands (i : Instr) : Reads (decodeOperands i.opId) i.operandBytes i := by
  cases i with
  | init a => exact (reads_initArg a).apply _
  | pushPacket ts => exact (reads_packet ts).apply _
  | scramble ts => exact (reads_packet ts).apply _
  | rsEncode d => exact (reads_seq reads_byte d).apply _
  | interleave rs => exact (reads_packet rs).apply _
  | convEncode il => exact (reads_seq reads_byte il).apply _
  | qpskMap cb => exact (reads_seq reads_dibit cb).apply _
  | rrcShape pt => exact (reads_seq reads_sample pt).apply _
  | scrByte0 b => exact (reads_byte b).apply _
  | scrByte b => exact (reads_byte b).apply _
  | scrNext => exact reads_done _
  | rsClear => exact reads_done _
  | rsStep d => exact (reads_byte d).apply _
  | ilByte p b => exact (reads_position p).apply₂ (reads_byte b)
  | ccBit b => exact (reads_bit b).apply _
  | ccByte b => exact (reads_byte b).apply _
  | mapDibit b1 b0 => exact (reads_bit b1).apply₂ (reads_bit b0)
  | rrcSymbol x => exact (reads_sample x).apply _
  | gfBuild => exact reads_done _
  | gfMul a b => exact (reads_byte a).apply₂ (reads_byte b)
  | rsgenBuild => exact reads_done _
  | prbsBuild src => exact (reads_prbs src).apply _
  | rrcTapsBuild u n beta =>
    rw [Instr.operandBytes, List.append_assoc]
    exact (reads_int u).andThen (f := fun u => getInt.andThen fun n => getNum.apply (Instr.rrcTapsBuild u n))
      ((reads_int n).apply₂ (reads_num beta))
  | frameCheck blk => exact (reads_packet blk).apply _
  | quantise x => exact (reads_sample x).apply _
  | queuePush x => exact (reads_sample x).apply _
  | queuePop => exact reads_done _

/-- Settles O1: after the id, which selects the operands' reader, that reader reads back what was written. -/
theorem decodeUndoesEncode : Obligations.DecodeUndoesEncode := fun i rest => reads_operands i rest

/-- Settles O2: each byte string is what `encode` writes for its operation. -/
theorem writtenRequestsDecode : Obligations.WrittenRequestsDecode :=
  ⟨decodeUndoesEncode .scrNext [], decodeUndoesEncode (.rsStep 0x3B#8) [], decodeUndoesEncode (.ilByte 13 0xAB#8) [],
    decodeUndoesEncode (.ccBit true) [], decodeUndoesEncode (.mapDibit true false) [],
    decodeUndoesEncode (.gfMul 0x53#8 0xCA#8) [], decodeUndoesEncode .queuePop []⟩

/-! ## Ids that name no operation -/

/-- An operation for each id of R100, in the table's order. -/
def instrOfEachId : List Instr :=
  [.init defaultInit, .pushPacket (Vector.replicate 188 0), .scramble (Vector.replicate 188 0), .rsEncode [],
    .interleave (Vector.replicate 204 0), .convEncode [], .qpskMap [], .rrcShape [], .scrByte0 0, .scrByte 0, .scrNext,
    .rsClear, .rsStep 0, .ilByte 0 0, .ccBit false, .ccByte 0, .mapDibit false false, .rrcSymbol .zero, .gfBuild,
    .gfMul 0 0, .rsgenBuild, .prbsBuild .recurrence, .rrcTapsBuild 0 0 .pi, .frameCheck (Vector.replicate 188 0),
    .quantise .zero, .queuePush .zero, .queuePop]

theorem map_opId_instrOfEachId : instrOfEachId.map Instr.opId = Laws.tableIds := rfl

theorem exists_opId_eq {op : Byte} (h : op ∈ Laws.tableIds) : ∃ i : Instr, i.opId = op := by
  rw [← map_opId_instrOfEachId] at h
  obtain ⟨i, -, hi⟩ := List.mem_map.mp h
  exact ⟨i, hi⟩

theorem mem_tableIds_of_toNat {op : Byte} {k : Nat} (h : op.toNat = k) (hk : BitVec.ofNat 8 k ∈ Laws.tableIds) :
    op ∈ Laws.tableIds := by
  subst h
  rwa [BitVec.ofNat_toNat, BitVec.setWidth_eq] at hk

/-- The decoder's lines carry the ids of R100 only (R110). -/
theorem decodeOperands_of_not_mem {op : Byte} (h : op ∉ Laws.tableIds) :
    decodeOperands op = fun _ => .error (.unknownOp op) := by
  unfold decodeOperands
  split
  case h_28 => rfl
  all_goals exact absurd (mem_tableIds_of_toNat ‹_› (by decide)) h

/-- Settles O3: each id of R100 is an operation's, and the decoder has a line for no other byte. -/
theorem unlistedIdsNameNoOperation : Obligations.UnlistedIdsNameNoOperation := fun _ rest unlisted =>
  congrFun (decodeOperands_of_not_mem fun listed => (exists_opId_eq listed).elim unlisted) rest

end Sys2Proof.Machine
end

section
/-! PROOFS. Operations in sequence (30_encoding R105): a stage operation is its element operations in order (R106). -/

namespace Sys2Proof.Machine

open Sys2Proof.Safety

/-! ## Threading a list: another element, and no state -/

theorem thread_map {σ α β γ : Type} (f : σ → α → β × σ) (h : γ → α) (s : σ) (xs : List γ) :
    thread f s (xs.map h) = thread (fun s x => f s (h x)) s xs := by
  induction xs generalizing s with
  | nil => rfl
  | cons x xs ih => simp only [List.map_cons, thread_cons, ih]

theorem thread_stateless {σ α β : Type} (h : α → β) (s : σ) (xs : List α) :
    thread (fun s x => (h x, s)) s xs = (xs.map h, s) := by
  induction xs with
  | nil => rfl
  | cons x xs ih => simp only [List.map_cons, thread_cons, ih]

/-! ## Running operations in order -/

section RunOps

variable {s t u : State} {rs rs' : List Result}

theorem runOps_cons {i : Instr} {is : List Instr} (h : exec i s = .next t) (k : runOps is t = some (rs, u)) :
    runOps (i :: is) s = some (t.port.result :: rs, u) := by
  simp only [runOps, h, k, Option.map_some]

theorem runOps_append {is js : List Instr} (h : runOps is s = some (rs, t)) (k : runOps js t = some (rs', u)) :
    runOps (is ++ js) s = some (rs ++ rs', u) := by
  induction is generalizing s rs with
  | nil =>
    obtain ⟨rfl, rfl⟩ : [] = rs ∧ s = t := by simpa [runOps] using h
    exact k
  | cons i is ih =>
    unfold runOps at h
    split at h
    · rename_i v hv
      obtain ⟨⟨rs₁, w⟩, hw, he⟩ := Option.map_eq_some_iff.mp h
      obtain ⟨rfl, rfl⟩ := Prod.mk.inj he
      exact runOps_cons hv (ih hw)
    · cases h
    · cases h

end RunOps

/-- In RUN and in the numeric type `n` the operation `op x` completes as `f` says on the CORE, and RUN goes on. -/
structure RunsElement {α β : Type} (n : Config.NumType) (op : α → Instr) (f : Encoder → α → β × Encoder)
    (out : β → Result) : Prop where
  exec_eq : ∀ (s : State) (x : α), s.enc.mode = .run → s.num = n → exec (op x) s = .next (s.completeWith (f s.enc x) out)
  mode_eq : ∀ (e : Encoder) (x : α), (f e x).2.mode = e.mode

/-- One element operation for each value of a list is `f` threaded through the list, and changes the CORE only. -/
theorem RunsElement.runOps_map {α β : Type} {n : Config.NumType} {op : α → Instr} {f : Encoder → α → β × Encoder}
    {out : β → Result} (h : RunsElement n op f out) (xs : List α) (s : State) (run : s.enc.mode = .run) (hn : s.num = n) :
    ∃ u : State, runOps (xs.map op) s = some ((thread f s.enc xs).1.map out, u) ∧ u.enc = (thread f s.enc xs).2 ∧
      u.enc.mode = .run ∧ u.bnd = s.bnd ∧ u.num = s.num := by
  induction xs generalizing s with
  | nil => exact ⟨s, rfl, rfl, run, rfl, rfl⟩
  | cons x xs ih =>
    obtain ⟨u, hu, rest⟩ := ih (s.completeWith (f s.enc x) out) ((h.mode_eq s.enc x).trans run) hn
    exact ⟨u, runOps_cons (h.exec_eq s x run hn) hu, rest⟩

/-! ### The element operations -/

section Elements

variable (n : Config.NumType)

theorem runs_scrByte : RunsElement n Instr.scrByte scrByte .byte :=
  ⟨fun _ _ run _ => whenRun_run run, fun _ _ => rfl⟩

theorem runs_ilByte (rs : Packet 204) :
    RunsElement n (fun p : Fin 204 => .ilByte p rs[p]) (fun e p => ilByte e p.val rs[p]) .byte :=
  ⟨fun _ _ run _ => whenRun_run run, fun _ _ => rfl⟩

theorem runs_ccByte : RunsElement n Instr.ccByte ccByte .codeBits :=
  ⟨fun _ _ run _ => whenRun_run run, fun e b => (ccByte_changesOnly (w := [.ccState]) e (by simp) b).mode⟩

theorem runs_mapDibit :
    RunsElement n (fun d : Bool × Bool => .mapDibit d.1 d.2) (fun e d => (mapDibit (NumType.arith n) d.1 d.2, e)) .point :=
  ⟨fun _ _ run hn => hn ▸ whenRun_run run, fun _ _ => rfl⟩

end Elements

/-! ## The stage operations -/

theorem toList_eq_cons {n : Nat} (v : Packet (n + 1)) : v.toList = v[0] :: v.toList.tail := by
  have h : v.toList ≠ [] := List.ne_nil_of_length_pos (by simp)
  rw [← List.cons_head_tail h, List.head_eq_getElem]
  simp

/-- The bytes of a packet with their positions, as the loop of R190 takes them. -/
theorem zipIdx_toList {n : Nat} (v : Packet n) :
    v.toList.zipIdx = (List.finRange n).map fun p => (v[p], p.val) := by
  apply List.ext_getElem
  · simp
  · simp

section Stages

variable (s : State) (run : s.enc.mode = .run)
include run

/-- SCRAMBLE (R150). -/
theorem scramble_elements (ts : Packet 188) : ∃ (out : List Byte) (u : State),
    runOps (Instr.scrByte0 ts[0] :: (ts.toList.tail.map Instr.scrByte ++ [Instr.scrNext])) s =
      some (out.map Result.byte ++ [Result.none], u) ∧
    exec (.scramble ts) s = completes s u.enc (.bytes out) := by
  have first : exec (.scrByte0 ts[0]) s = .next (s.completeWith (scrByte0 s.enc ts[0]) .byte) := whenRun_run run
  have running : (scrByte0 s.enc ts[0]).2.mode = .run :=
    (scrByte0_changesOnly (w := [.prbsPos]) s.enc (by simp) ts[0]).mode.trans run
  obtain ⟨t, payload, core, stillRunning, -⟩ :=
    (runs_scrByte s.num).runOps_map ts.toList.tail (s.completeWith (scrByte0 s.enc ts[0]) .byte) running rfl
  have last : exec .scrNext t = .next (t.complete (scrNext t.enc) .none) := whenRun_run stillRunning
  have stage : exec (.scramble ts) s = .next (s.completeWith (scramble s.enc (ts[0] :: ts.toList.tail)) .bytes) := by
    rw [← toList_eq_cons ts]
    exact whenRun_run run
  refine ⟨(scramble s.enc (ts[0] :: ts.toList.tail)).1, _,
    runOps_cons first (runOps_append payload (runOps_cons last rfl)), stage.trans ?_⟩
  rw [State.complete_enc, core]
  rfl

/-- INTERLEAVE (R190). -/
theorem interleave_elements (rs : Packet 204) : ∃ (out : List Byte) (u : State),
    runOps ((List.finRange 204).map fun p => Instr.ilByte p rs[p]) s = some (out.map Result.byte, u) ∧
    exec (.interleave rs) s = completes s u.enc (.bytes out) := by
  obtain ⟨u, hu, he, -⟩ := (runs_ilByte s.num rs).runOps_map (List.finRange 204) s run rfl
  have whole : interleave s.enc rs.toList = thread (fun e p => ilByte e p.val rs[p]) s.enc (List.finRange 204) := by
    rw [interleave_eq_thread, zipIdx_toList, thread_map]
    rfl
  rw [← whole] at hu he
  exact ⟨_, u, hu, he ▸ whenRun_run run⟩

/-- CONV_ENCODE (R210). -/
theorem convEncode_elements (il : List Byte) : ∃ (out : List (List Bool)) (u : State),
    runOps (il.map Instr.ccByte) s = some (out.map Result.codeBits, u) ∧
    exec (.convEncode il) s = completes s u.enc (.codeBits out.flatten) := by
  obtain ⟨u, hu, he, -⟩ := (runs_ccByte s.num).runOps_map il s run rfl
  exact ⟨_, u, hu, he ▸ whenRun_run run⟩

/-- QPSK_MAP (R230). -/
theorem qpskMap_elements (cb : List (Bool × Bool)) : ∃ (out : List Sample) (u : State),
    runOps (cb.map fun d => Instr.mapDibit d.1 d.2) s = some (out.map Result.point, u) ∧
    exec (.qpskMap cb) s = completes s u.enc (.points out) := by
  obtain ⟨u, hu, he, -⟩ := (runs_mapDibit s.num).runOps_map cb s run rfl
  rw [thread_stateless] at hu he
  exact ⟨_, u, hu, he ▸ whenRun_run run⟩

end Stages

/-- Settles O15: in each stage the element operations thread the stage's own function through the operand. -/
theorem stageOperationsAreTheirElements : Obligations.StageOperationsAreTheirElements := fun s run =>
  ⟨scramble_elements s run, interleave_elements s run, convEncode_elements s run, qpskMap_elements s run⟩

end Sys2Proof.Machine
end

section
/-! PROOFS. The table builders of the field GF(2^8) (40_init_tables R121 to R127): the carry-less product is a field
product, GF_BUILD's tables are powers and logarithms, GF_MUL multiplies by them, RSGEN_BUILD's polynomial has the
roots it is made of. -/

namespace Sys2Proof.Machine

open Sys2Proof.Safety

/-! ## The carry-less product (R125)

A byte is a polynomial in `α`, so that Horner's rule writes it with two steps, multiplication by `α` and the addition
of 1. Every law of the product is an induction on these two steps. -/

/-- What R121 adds to the shifted byte, for the bit that the shift puts out. -/
def reduction (carry : Bool) : Byte := if carry then 0x1D#8 else 0x00#8

theorem timesAlpha_eq (v : Byte) : timesAlpha v = (v <<< 1) ^^^ reduction (v.getLsbD 7) := by
  revert v
  decide +kernel

theorem reduction_xor (c d : Bool) : reduction (c ^^ d) = reduction c ^^^ reduction d := by
  cases c <;> cases d <;> rfl

@[simp] theorem timesAlpha_xor (a b : Byte) : timesAlpha (a ^^^ b) = timesAlpha a ^^^ timesAlpha b := by
  simp only [timesAlpha_eq, BitVec.shiftLeft_xor_distrib, BitVec.getLsbD_xor, reduction_xor]
  ac_rfl

@[simp] theorem timesAlpha_zero : timesAlpha 0x00#8 = 0x00#8 := rfl

theorem timesAlpha_eq_zero {v : Byte} : timesAlpha v = 0x00#8 → v = 0x00#8 := by
  revert v
  decide +kernel

/-- One step of the loop of R125. -/
def shiftAdd (a r : Byte) (bit : Bool) : Byte := if bit then timesAlpha r ^^^ a else timesAlpha r

theorem clmulMod_eq_foldl (a b : Byte) : clmulMod a b = (byteBits b).foldl (shiftAdd a) 0x00#8 := rfl

@[simp] theorem one_clmulMod (b : Byte) : clmulMod 0x01#8 b = b := by
  revert b
  decide +kernel

/-- A byte is made of 0 by the steps `α·b` and `b + 1`, as Horner's rule makes it. -/
theorem byte_induction {P : Byte → Prop} (zero : P 0x00#8) (times : ∀ b, P b → P (timesAlpha b))
    (succ : ∀ b, P b → P (b ^^^ 0x01#8)) (b : Byte) : P b := by
  have steps : ∀ (bits : List Bool) (r : Byte), P r → P (bits.foldl (shiftAdd 0x01#8) r) := by
    intro bits
    induction bits with
    | nil => exact fun r h => h
    | cons bit bits ih =>
      intro r h
      refine ih _ ?_
      cases bit
      · exact times r h
      · exact succ _ (times r h)
  rw [← one_clmulMod b, clmulMod_eq_foldl]
  exact steps _ _ zero

theorem foldl_shiftAdd_xor (a a' : Byte) (bits : List Bool) (r r' : Byte) :
    bits.foldl (shiftAdd (a ^^^ a')) (r ^^^ r') = bits.foldl (shiftAdd a) r ^^^ bits.foldl (shiftAdd a') r' := by
  induction bits generalizing r r' with
  | nil => rfl
  | cons bit bits ih =>
    rw [List.foldl_cons, List.foldl_cons, List.foldl_cons, ← ih]
    congr 1
    cases bit
    · exact timesAlpha_xor r r'
    · simp only [shiftAdd, if_true, timesAlpha_xor]
      ac_rfl

theorem foldl_shiftAdd_timesAlpha (a : Byte) (bits : List Bool) (r : Byte) :
    bits.foldl (shiftAdd (timesAlpha a)) (timesAlpha r) = timesAlpha (bits.foldl (shiftAdd a) r) := by
  induction bits generalizing r with
  | nil => rfl
  | cons bit bits ih =>
    rw [List.foldl_cons, List.foldl_cons, ← ih]
    congr 1
    cases bit
    · rfl
    · exact (timesAlpha_xor _ _).symm

theorem xor_clmulMod (a a' b : Byte) : clmulMod (a ^^^ a') b = clmulMod a b ^^^ clmulMod a' b :=
  foldl_shiftAdd_xor a a' (byteBits b) 0x00#8 0x00#8

theorem timesAlpha_clmulMod (a b : Byte) : clmulMod (timesAlpha a) b = timesAlpha (clmulMod a b) :=
  foldl_shiftAdd_timesAlpha a (byteBits b) 0x00#8

@[simp] theorem zero_clmulMod (b : Byte) : clmulMod 0x00#8 b = 0x00#8 := by
  simpa using xor_clmulMod 0x01#8 0x01#8 b

theorem clmulMod_xor (a b c : Byte) : clmulMod a (b ^^^ c) = clmulMod a b ^^^ clmulMod a c := by
  induction a using byte_induction with
  | zero => simp
  | times a ih => simp only [timesAlpha_clmulMod, ih, timesAlpha_xor]
  | succ a ih => simp only [xor_clmulMod, one_clmulMod, ih]; ac_rfl

@[simp] theorem clmulMod_one (a : Byte) : clmulMod a 0x01#8 = a := by
  induction a using byte_induction with
  | zero => simp
  | times a ih => rw [timesAlpha_clmulMod, ih]
  | succ a ih => rw [xor_clmulMod, ih, one_clmulMod]

theorem clmulMod_timesAlpha (a b : Byte) : clmulMod a (timesAlpha b) = timesAlpha (clmulMod a b) := by
  induction a using byte_induction with
  | zero => simp
  | times a ih => simp only [timesAlpha_clmulMod, ih]
  | succ a ih => simp only [xor_clmulMod, one_clmulMod, ih, timesAlpha_xor]

@[simp] theorem clmulMod_zero (a : Byte) : clmulMod a 0x00#8 = 0x00#8 := by
  simpa using clmulMod_xor a 0x01#8 0x01#8

theorem clmulMod_comm (a b : Byte) : clmulMod a b = clmulMod b a := by
  induction a using byte_induction with
  | zero => simp
  | times a ih => rw [timesAlpha_clmulMod, clmulMod_timesAlpha, ih]
  | succ a ih => rw [xor_clmulMod, clmulMod_xor, ih, one_clmulMod, clmulMod_one]

theorem clmulMod_assoc (a b c : Byte) : clmulMod (clmulMod a b) c = clmulMod a (clmulMod b c) := by
  induction a using byte_induction with
  | zero => simp
  | times a ih => simp only [timesAlpha_clmulMod, ih]
  | succ a ih => simp only [xor_clmulMod, one_clmulMod, ih]

/-! ## The powers of `α` (R121) -/

@[simp] theorem clmulMod_two (a : Byte) : clmulMod a 0x02#8 = timesAlpha a := by
  rw [show (0x02#8 : Byte) = timesAlpha 0x01#8 from rfl, clmulMod_timesAlpha, clmulMod_one]

theorem alphaPow_succ (i : Nat) : alphaPow (i + 1) = timesAlpha (alphaPow i) := clmulMod_two _

/-- `α^i·α^j = α^(i+j)`. -/
theorem clmulMod_alphaPow (i j : Nat) : clmulMod (alphaPow i) (alphaPow j) = alphaPow (i + j) := by
  induction j with
  | zero => exact clmulMod_one _
  | succ j ih => rw [alphaPow_succ, clmulMod_timesAlpha, ih, ← Nat.add_assoc, alphaPow_succ]

theorem alphaPow_ne_zero (i : Nat) : alphaPow i ≠ 0x00#8 := by
  induction i with
  | zero => decide
  | succ i ih => exact fun h => ih (timesAlpha_eq_zero (alphaPow_succ i ▸ h))

@[simp] theorem getElem_vectorOfList {α : Type} {n : Nat} {l : List α} (h : l.length = n) (i : Nat) (hi : i < n) :
    (vectorOfList n l h)[i] = l[i] := rfl

theorem getElem_alphaPowers (n j i : Nat) (h : i < (alphaPowers n (alphaPow j)).length) :
    (alphaPowers n (alphaPow j))[i] = alphaPow (j + i) := by
  induction n generalizing i j with
  | zero => exact absurd h (Nat.not_lt_zero i)
  | succ n ih =>
    cases i with
    | zero => rfl
    | succ i =>
      simp only [alphaPowers, ← alphaPow_succ, List.getElem_cons_succ, ih]
      congr 1
      omega

theorem expCycle_length : expCycle.length = 255 := alphaPowers_length 255 _

theorem getElem_expCycle (i : Nat) (h : i < expCycle.length) : expCycle[i] = alphaPow i := by
  have := getElem_alphaPowers 255 0 i h
  rwa [Nat.zero_add] at this

theorem alphaPow_cycle : alphaPow 255 = 0x01#8 := by
  have last : timesAlpha (expCycle[254]'(by rw [expCycle_length]; decide)) = 0x01#8 := by decide +kernel
  rwa [getElem_expCycle, ← alphaPow_succ] at last

theorem alphaPow_mod (i : Nat) : alphaPow (i % 255) = alphaPow i := by
  have turn : ∀ k j, alphaPow (j + 255 * k) = alphaPow j := by
    intro k j
    induction k with
    | zero => rfl
    | succ k ih => rw [Nat.mul_succ, ← Nat.add_assoc, ← clmulMod_alphaPow, ih, alphaPow_cycle, clmulMod_one]
  rw [← turn (i / 255) (i % 255), Nat.mod_add_div]

/-- Every entry of GF_BUILD's first table is the power of its index. -/
theorem getElem_gfExpTable (i : Nat) (h : i < 511) : gfExpTable[i] = alphaPow i := by
  rw [← alphaPow_mod]
  simp only [gfExpTable, getElem_vectorOfList, List.getElem_append, List.length_append, expCycle_length,
    List.getElem_take, getElem_expCycle]
  split_ifs <;> exact congrArg alphaPow (by omega)

theorem tableRead_gfExpTable {i : Nat} (h : i < 511) : tableRead gfExpTable i = alphaPow i := by
  rw [← getElem_gfExpTable i h]
  simp [tableRead, h]

/-! ## Logarithms (R31) -/

theorem alphaPow_ne_one {d : Nat} (pos : 0 < d) (h : d < 255) : alphaPow d ≠ 0x01#8 := by
  have later : 0x01#8 ∉ expCycle.tail := by decide +kernel
  obtain ⟨k, rfl⟩ := Nat.exists_eq_add_of_lt pos
  have hk : k < expCycle.tail.length := by rw [List.length_tail, expCycle_length]; omega
  have entry := List.getElem_tail hk
  rw [getElem_expCycle] at entry
  rw [Nat.zero_add, ← entry]
  exact fun one => later (one ▸ List.getElem_mem hk)

theorem expCycle_nodup : expCycle.Nodup := by
  refine List.pairwise_iff_getElem.mpr fun i j hi hj lt same => ?_
  rw [getElem_expCycle, getElem_expCycle] at same
  rw [expCycle_length] at hj
  have shorter : alphaPow (i + (255 - j)) = 0x01#8 := by
    rw [← clmulMod_alphaPow, same, clmulMod_alphaPow, Nat.add_sub_cancel' hj.le, alphaPow_cycle]
  exact alphaPow_ne_one (by omega) (by omega) shorter

/-- `α` generates the field: its 255 powers are all the bytes but 0. -/
theorem mem_expCycle {x : Byte} (h : x ≠ 0x00#8) : x ∈ expCycle := by
  have nonzero : expCycle.toFinset ⊆ Finset.univ.erase 0x00#8 := by
    intro y hy
    obtain ⟨i, hi, rfl⟩ := List.getElem_of_mem (List.mem_toFinset.mp hy)
    rw [getElem_expCycle]
    simp [alphaPow_ne_zero]
  have count : (Finset.univ.erase (0x00#8 : Byte)).card ≤ expCycle.toFinset.card := by
    rw [List.toFinset_card_of_nodup expCycle_nodup, expCycle_length, Finset.card_erase_of_mem (Finset.mem_univ _),
      Finset.card_univ, ← FinEnum.card_eq_fintypeCard, FinEnum.card_bitVec]
    exact le_rfl
  rw [← List.mem_toFinset, Finset.eq_of_subset_of_card_le nonzero count]
  simpa using h

theorem discreteLog_val {x : Byte} (h : x ≠ 0x00#8) : (discreteLog x).val = expCycle.idxOf x := by
  have := List.idxOf_lt_length_of_mem (mem_expCycle h)
  exact Nat.mod_eq_of_lt (expCycle_length ▸ this)

/-- `α` to the logarithm of `x` is `x`. -/
theorem alphaPow_discreteLog {x : Byte} (h : x ≠ 0x00#8) : alphaPow (discreteLog x).val = x := by
  have at_index := List.getElem_idxOf (List.idxOf_lt_length_of_mem (mem_expCycle h))
  rwa [getElem_expCycle, ← discreteLog_val h] at at_index

theorem discreteLog_alphaPow (i : Fin 255) : discreteLog (alphaPow i.val) = i := by
  have hi : i.val < expCycle.length := by rw [expCycle_length]; exact i.isLt
  apply Fin.ext
  rw [discreteLog_val (alphaPow_ne_zero _), ← getElem_expCycle i.val hi]
  exact expCycle_nodup.idxOf_getElem i.val hi

theorem getElem_gfLogTable (k : Nat) (h : k < 255) : gfLogTable[k] = discreteLog (BitVec.ofNat 8 (k + 1)) := by
  rw [gfLogTable, getElem_vectorOfList, List.getElem_map, List.getElem_range]

/-- The entry of the byte `x`. -/
theorem getElem_gfLogTable_pred {x : Byte} (h : x ≠ 0x00#8) :
    gfLogTable[x.toNat - 1]'(by have := x.isLt; omega) = discreteLog x := by
  have pos : x.toNat ≠ 0 := fun e => h (BitVec.eq_of_toNat_eq e)
  rw [getElem_gfLogTable, Nat.sub_add_cancel (by omega), BitVec.ofNat_toNat, BitVec.setWidth_eq]

theorem logRead_gfLogTable {x : Byte} (h : x ≠ 0x00#8) : logRead gfLogTable x h = discreteLog x := by
  have bound : x.toNat - 1 < 255 := by have := x.isLt; omega
  rw [← getElem_gfLogTable_pred h]
  simp [logRead, tableRead, bound]

/-! ## The product by tables (R122) -/

theorem gfMulWith_zero {exp : Vector Byte 511} {log : Vector (Fin 255) 255} {a b : Byte}
    (h : a = 0x00#8 ∨ b = 0x00#8) : gfMulWith exp log a b = 0x00#8 := dif_pos h

theorem gfMulWith_nonzero {exp : Vector Byte 511} {log : Vector (Fin 255) 255} {a b : Byte} (ha : a ≠ 0x00#8)
    (hb : b ≠ 0x00#8) :
    gfMulWith exp log a b = tableRead exp ((logRead log a ha).val + (logRead log b hb).val) :=
  dif_neg (not_or.mpr ⟨ha, hb⟩)

/-- The product by GF_BUILD's tables is the carry-less one. -/
theorem gfMulWith_tables (a b : Byte) : gfMulWith gfExpTable gfLogTable a b = clmulMod a b := by
  by_cases h : a = 0x00#8 ∨ b = 0x00#8
  · rw [gfMulWith_zero h]
    rcases h with rfl | rfl <;> simp
  · obtain ⟨ha, hb⟩ := not_or.mp h
    rw [gfMulWith_nonzero ha hb, logRead_gfLogTable, logRead_gfLogTable, tableRead_gfExpTable (by omega),
      ← clmulMod_alphaPow, alphaPow_discreteLog ha, alphaPow_discreteLog hb]

theorem clmulMod_eq_zero {a b : Byte} (h : clmulMod a b = 0x00#8) : a = 0x00#8 ∨ b = 0x00#8 := by
  by_contra nonzero
  obtain ⟨ha, hb⟩ := not_or.mp nonzero
  rw [← alphaPow_discreteLog ha, ← alphaPow_discreteLog hb, clmulMod_alphaPow] at h
  exact alphaPow_ne_zero _ h

/-- Settles O28: the laws of the product, each by Horner's rule, and the logarithms of what is not 0. -/
theorem gfMulIsTheFieldProduct : Obligations.GfMulIsTheFieldProduct := fun a b c =>
  ⟨gfMulWith_tables a b, clmulMod_comm a b, clmulMod_assoc a b c, clmulMod_xor a b c, clmulMod_one a, clmulMod_zero a,
    clmulMod_eq_zero⟩

/-- Settles O26: the two tables are the powers of `α` and the index of each among the first 255. -/
theorem gfBuildGivesPowersAndLogs : Obligations.GfBuildGivesPowersAndLogs := by
  refine fun s => ⟨gfExpTable, gfLogTable, rfl, rfl, fun i h => ?_, fun e h => ?_, fun k h => ?_, fun i => ?_⟩
  · rw [getElem_gfExpTable, getElem_gfExpTable]
    rfl
  · rw [getElem_gfExpTable, getElem_gfExpTable, alphaPow_mod]
  · have nonzero : BitVec.ofNat 8 (k + 1) ≠ 0x00#8 := fun e => by
      have := congrArg BitVec.toNat e
      simp at this
      omega
    rw [getElem_gfExpTable, getElem_gfLogTable, alphaPow_discreteLog nonzero]
  · have entry := getElem_gfExpTable i.val (by omega)
    have nonzero : gfExpTable[i.val] ≠ 0x00#8 := entry ▸ alphaPow_ne_zero _
    rw [getElem_gfLogTable_pred nonzero, entry, discreteLog_alphaPow]

/-- Settles O27: in RUN the tables are read as R122 says, outside it they are GF_BUILD's. -/
theorem gfMulAddsTheLogs : Obligations.GfMulAddsTheLogs := by
  intro a b s
  have exec_eq : exec (.gfMul a b) s = completes s s.enc (.byte (gfMulOn s.enc a b)) := rfl
  rw [exec_eq]
  refine ⟨fun zero => ?_, fun ha hb run => ?_, fun notRun => ?_⟩
  · simp [gfMulOn, Encoder.gfMul, gfMulWith_zero zero]
  · rw [gfMulOn, if_pos run, Encoder.gfMul, gfMulWith_nonzero ha hb]
    rfl
  · rw [gfMulOn, if_neg notRun, gfMulWith_tables]

/-! ## The generator polynomial (R126, R127) -/

/-- One step of Horner's rule at `x`. -/
def hornerStep (x y c : Byte) : Byte := clmulMod y x ^^^ c

theorem hornerAt_eq_foldl (p : List Byte) (x : Byte) : hornerAt p x = p.foldl (hornerStep x) 0x00#8 := rfl

theorem hornerAt_append (p q : List Byte) (x : Byte) : hornerAt (p ++ q) x = q.foldl (hornerStep x) (hornerAt p x) :=
  List.foldl_append

/-- Horner's rule is linear in the coefficients. -/
theorem foldl_horner_xor (x : Byte) (p q : List Byte) (y z : Byte) (h : p.length = q.length) :
    (List.zipWith (· ^^^ ·) p q).foldl (hornerStep x) (y ^^^ z) =
      p.foldl (hornerStep x) y ^^^ q.foldl (hornerStep x) z := by
  induction p generalizing q y z with
  | nil =>
    obtain rfl := List.length_eq_zero_iff.mp h.symm
    rfl
  | cons a p ih =>
    cases q with
    | nil => cases h
    | cons b q =>
      simp only [List.zipWith_cons_cons, List.foldl_cons]
      rw [← ih q _ _ (Nat.succ.inj h)]
      congr 1
      simp only [hornerStep, xor_clmulMod]
      ac_rfl

theorem hornerAt_xor {p q : List Byte} (x : Byte) (h : p.length = q.length) :
    hornerAt (List.zipWith (· ^^^ ·) p q) x = hornerAt p x ^^^ hornerAt q x := foldl_horner_xor x p q 0x00#8 0x00#8 h

/-- A factor of every coefficient is a factor of the value. -/
theorem hornerAt_map_clmulMod (p : List Byte) (a x : Byte) :
    hornerAt (p.map fun c => clmulMod c a) x = clmulMod (hornerAt p x) a := by
  induction p using List.reverseRecOn with
  | nil => exact (zero_clmulMod a).symm
  | append_singleton p c ih =>
    simp only [List.map_append, List.map_singleton, hornerAt_append, List.foldl_cons, List.foldl_nil, hornerStep, ih,
      xor_clmulMod, clmulMod_assoc, clmulMod_comm a x]

/-- The inner loop of R126 multiplies the polynomial by `x + a`. -/
theorem hornerAt_timesRoot (poly : List Byte) (a x : Byte) :
    hornerAt (timesRoot gfExpTable gfLogTable poly a) x = clmulMod (hornerAt poly x) (x ^^^ a) := by
  have shifted : hornerAt (poly ++ [0x00#8]) x = clmulMod (hornerAt poly x) x := by
    rw [hornerAt_append]
    exact BitVec.xor_zero
  have scaled : hornerAt (0x00#8 :: poly.map fun c => clmulMod c a) x = clmulMod (hornerAt poly x) a := by
    rw [← hornerAt_map_clmulMod, hornerAt_eq_foldl, List.foldl_cons, hornerStep, zero_clmulMod]
    rfl
  simp only [timesRoot, gfMulWith_tables]
  rw [hornerAt_xor x (by simp), shifted, scaled, ← clmulMod_xor]

/-- A zero of the polynomial, and each root a factor is put in for, is a zero of the product. -/
theorem hornerAt_foldl_timesRoot {roots poly : List Byte} {x : Byte} (h : hornerAt poly x = 0x00#8 ∨ x ∈ roots) :
    hornerAt (roots.foldl (timesRoot gfExpTable gfLogTable) poly) x = 0x00#8 := by
  induction roots generalizing poly with
  | nil => simpa using h
  | cons a roots ih =>
    refine ih ?_
    rw [hornerAt_timesRoot]
    rcases or_congr_right List.mem_cons |>.mp h with zero | rfl | later
    · simp [zero]
    · simp
    · exact .inr later

/-- The product with monic factors keeps the first coefficient. -/
theorem foldl_timesRoot_head (exp : Vector Byte 511) (log : Vector (Fin 255) 255) (roots poly : List Byte) (c : Byte) :
    (roots.foldl (timesRoot exp log) (c :: poly)).head? = some c := by
  induction roots generalizing poly with
  | nil => rfl
  | cons a roots ih =>
    have head : timesRoot exp log (c :: poly) a = c :: (timesRoot exp log (c :: poly) a).tail := by
      simp [timesRoot]
    rw [List.foldl_cons, head]
    exact ih _

theorem alphaPow_mem_genRoots {i : Nat} (h : i < 16) : alphaPow i ∈ genRoots gfExpTable := by
  have hi : i < gfExpTable.toList.length := by simp; omega
  rw [genRoots, List.mem_take_iff_getElem]
  refine ⟨i, by simp; omega, ?_⟩
  rw [Vector.getElem_toList, getElem_gfExpTable]

/-- Settles O29: the polynomial is the product of `x + α^i` for the sixteen roots. -/
theorem generatorHasTheSixteenRoots : Obligations.GeneratorHasTheSixteenRoots := by
  refine fun s => ⟨genTable gfExpTable gfLogTable, rfl, ?_, fun i h => ?_⟩
  · have head := foldl_timesRoot_head gfExpTable gfLogTable (genRoots gfExpTable) [] 0x01#8
    rw [List.head?_eq_getElem?, List.getElem?_eq_some_iff] at head
    exact head.2
  · exact hornerAt_foldl_timesRoot (.inr (alphaPow_mem_genRoots h))

end Sys2Proof.Machine
end

section
/-! PROOFS. PRBS_BUILD (40_init_tables R131 to R133): bit `n` of table A is the feedback of the register after `n`
clocks, and the register holds the last fifteen of them. -/

namespace Sys2Proof.Machine

open Sys2Proof.Safety

/-! ## The bits of a table (20_memory R64) -/

section Bits

variable (out : BitVec 15 → Bool)

@[simp] theorem prbsBits_register (n : Nat) (acc : Byte) (r : BitVec 15) :
    (prbsBits out n acc r).2 = prbsClock^[n] r := by
  induction n generalizing acc r with
  | zero => rfl
  | succ n ih => exact ih _ _

/-- One more output bit goes in at the low end. -/
theorem getLsbD_shiftIn (acc : Byte) (b : Bool) (j : Nat) (h : j < 8) :
    ((acc <<< 1) ||| (BitVec.ofBool b).setWidth 8).getLsbD j = if j = 0 then b else acc.getLsbD (j - 1) := by
  cases j with
  | zero => simp
  | succ j =>
    have : j < 8 := by omega
    simp [h, BitVec.getLsbD_eq_getElem this]

/-- The packed bits, the earliest in the highest place. -/
theorem getLsbD_prbsBits (n : Nat) (acc : Byte) (r : BitVec 15) (j : Nat) (h : j < 8) :
    (prbsBits out n acc r).1.getLsbD j = if j < n then out (prbsClock^[n - 1 - j] r) else acc.getLsbD (j - n) := by
  induction n generalizing acc r with
  | zero => rfl
  | succ n ih =>
    rw [prbsBits, ih, getLsbD_shiftIn _ _ _ (by omega)]
    rcases Nat.lt_trichotomy j n with lt | rfl | gt
    · rw [if_pos lt, if_pos (by omega), ← Function.iterate_succ_apply, show (n - 1 - j).succ = n + 1 - 1 - j by omega]
    · simp
    · rw [if_neg (by omega), if_neg (by omega), if_neg (by omega), Nat.sub_sub]

theorem getElem_prbsBytes (n : Nat) (r : BitVec 15) (k : Nat) (h : k < (prbsBytes out n r).length) :
    (prbsBytes out n r)[k] = (prbsBits out 8 0#8 (prbsClock^[8 * k] r)).1 := by
  induction n generalizing r k with
  | zero => exact absurd h (Nat.not_lt_zero k)
  | succ n ih =>
    cases k with
    | zero => rfl
    | succ k =>
      simp only [prbsBytes, List.getElem_cons_succ, ih, prbsBits_register]
      rw [← Function.iterate_add_apply, Nat.mul_succ]

end Bits

/-- Bit `n` of table A is what the register feeds back after `n` clocks (R133). -/
theorem prbsBitAt_tableA {n : Nat} (h : n < 12024) :
    prbsBitAt prbsTableA n = prbsFeedback (prbsClock^[n] prbsInitial) := by
  have hk : n / 8 < (prbsBytes prbsFeedback 1503 prbsInitial).length := by rw [prbsBytes_length]; omega
  have byte : prbsTableA.toList.getD (n / 8) 0#8 =
      (prbsBits prbsFeedback 8 0#8 (prbsClock^[8 * (n / 8)] prbsInitial)).1 := by
    rw [← getElem_prbsBytes prbsFeedback 1503 prbsInitial (n / 8) hk]
    exact List.getD_eq_getElem _ _ hk
  rw [prbsBitAt, byte, getLsbD_prbsBits _ _ _ _ _ (by omega), if_pos (by omega), ← Function.iterate_add_apply,
    show 8 - 1 - (7 - n % 8) + 8 * (n / 8) = n by omega]

/-! ## The register (R132) -/

theorem prbsClock_last (r : BitVec 15) : (prbsClock r).getLsbD 14 = prbsFeedback r := by simp [prbsClock]

theorem getLsbD_prbsClock (r : BitVec 15) (j : Nat) (h : j < 14) : (prbsClock r).getLsbD j = r.getLsbD (j + 1) := by
  simp [prbsClock, h, Nat.add_comm]

/-- A stage passes its bit on, one stage a clock. -/
theorem getLsbD_prbsClock_iterate (r : BitVec 15) (k j : Nat) (h : j + k < 15) :
    (prbsClock^[k] r).getLsbD j = r.getLsbD (j + k) := by
  induction k generalizing j with
  | zero => rfl
  | succ k ih =>
    rw [Function.iterate_succ_apply', getLsbD_prbsClock _ _ (by omega), ih _ (by omega), Nat.add_assoc, Nat.add_comm 1]

/-- A bit fed back at clock `m` stands in stage `k` after `k` clocks more. -/
theorem getLsbD_after_feedback (r : BitVec 15) (m k : Nat) (h : k < 15) :
    (prbsClock^[m + 1 + k] r).getLsbD (14 - k) = prbsFeedback (prbsClock^[m] r) := by
  rw [Nat.add_comm, Function.iterate_add_apply, getLsbD_prbsClock_iterate _ _ _ (by omega),
    Nat.sub_add_cancel (by omega), Function.iterate_succ_apply', prbsClock_last]

/-- `b_n = b_(n−14) XOR b_(n−15)`. -/
theorem prbsFeedback_recurrence (r : BitVec 15) (m : Nat) :
    prbsFeedback (prbsClock^[m + 15] r) = (prbsFeedback (prbsClock^[m + 1] r) ^^ prbsFeedback (prbsClock^[m] r)) := by
  have stage14 : (prbsClock^[m + 15] r).getLsbD 1 = prbsFeedback (prbsClock^[m + 1] r) :=
    getLsbD_after_feedback r (m + 1) 13 (by omega)
  have stage15 : (prbsClock^[m + 15] r).getLsbD 0 = prbsFeedback (prbsClock^[m] r) :=
    getLsbD_after_feedback r m 14 (by omega)
  rw [← stage14, ← stage15]
  rfl

/-- Settles O30: table A is read off the register bit by bit. -/
theorem prbsBuildFollowsTheRecurrence : Obligations.PrbsBuildFollowsTheRecurrence := by
  refine fun src s => ⟨prbsTable src, rfl, fun given h => h ▸ rfl, fun h => ?_⟩
  subst h
  rw [show prbsTable .recurrence = prbsTableA from rfl]
  refine ⟨?_, fun n lo hi => ?_⟩
  · have register : (List.range 15).map (prbsBitAt prbsTableA) =
        (List.range 15).map fun n => prbsFeedback (prbsClock^[n] prbsInitial) :=
      List.map_congr_left fun n hn => prbsBitAt_tableA (by have := List.mem_range.mp hn; omega)
    rw [register]
    decide
  · obtain ⟨m, rfl⟩ := Nat.exists_eq_add_of_le' lo
    rw [prbsBitAt_tableA hi, prbsFeedback_recurrence, show m + 15 - 14 = m + 1 by omega, Nat.add_sub_cancel,
      prbsBitAt_tableA (by omega), prbsBitAt_tableA (by omega)]

end Sys2Proof.Machine
end

section
/-! PROOFS. The real arithmetic behind the taps (log entry 5): every enclosure holds the number it is of, and so each
answer about a number is that of the real one. -/

namespace Sys2Proof.Machine

open Sys2Proof.Safety

/-! ## Intervals -/

/-- The real number `x` lies in the interval. -/
def Interval.Holds (a : Interval) (x : ℝ) : Prop := (a.lo : ℝ) ≤ x ∧ x ≤ (a.hi : ℝ)

def Interval.width (a : Interval) : ℚ := a.hi - a.lo

/-- The distance of neighbouring numbers of `p` bits. -/
def grain (p : Nat) : ℚ := 1 / (2 ^ p : Nat)

theorem grain_pos (p : Nat) : 0 < grain p := by unfold grain; positivity

theorem grain_anti {p q : Nat} (h : p ≤ q) : grain q ≤ grain p := by
  have : (2 ^ p : Nat) ≤ 2 ^ q := Nat.pow_le_pow_right (by decide) h
  unfold grain
  gcongr

section Interval

variable {a b c : Interval} {x y : ℝ} {p : Nat}

theorem holds_point (q : ℚ) : (Interval.mk q q).Holds (q : ℝ) := ⟨le_rfl, le_rfl⟩

theorem roundDown_eq (p : Nat) (q : ℚ) : roundDown p q = ⌊q * (2 ^ p : Nat)⌋ / (2 ^ p : Nat) := by
  rw [roundDown, Rat.mkRat_eq_div]
  rfl

theorem roundDown_le (p : Nat) (q : ℚ) : roundDown p q ≤ q := by
  rw [roundDown_eq, div_le_iff₀ (by positivity)]
  exact Int.floor_le _

theorem lt_roundDown_add (p : Nat) (q : ℚ) : q < roundDown p q + grain p := by
  rw [roundDown_eq, grain, ← add_div, lt_div_iff₀ (by positivity)]
  exact Int.lt_floor_add_one _

theorem le_roundUp (p : Nat) (q : ℚ) : q ≤ roundUp p q := by
  have := roundDown_le p (-q)
  unfold roundUp
  linarith

theorem roundUp_lt (p : Nat) (q : ℚ) : roundUp p q < q + grain p := by
  have := lt_roundDown_add p (-q)
  unfold roundUp
  linarith

theorem abs_roundDown_sub (p : Nat) (q : ℚ) : |roundDown p q - q| ≤ grain p :=
  abs_le.mpr ⟨by linarith [lt_roundDown_add p q], by linarith [roundDown_le p q, grain_pos p]⟩

theorem Interval.Holds.mono (h : a.Holds x) (lo : b.lo ≤ a.lo) (hi : a.hi ≤ b.hi) : b.Holds x :=
  ⟨(Rat.cast_le.mpr lo).trans h.1, h.2.trans (Rat.cast_le.mpr hi)⟩

theorem Interval.Holds.outward (h : a.Holds x) (p : Nat) : (a.outward p).Holds x :=
  h.mono (roundDown_le p a.lo) (le_roundUp p a.hi)

theorem width_outward (p : Nat) (a : Interval) : (a.outward p).width ≤ a.width + 2 * grain p := by
  have := lt_roundDown_add p a.lo
  have := roundUp_lt p a.hi
  simp only [Interval.width, Interval.outward]
  linarith

theorem holds_around {c r : ℚ} (h : |x - c| ≤ (r : ℝ)) : (Interval.around c r).Holds x := by
  obtain ⟨lo, hi⟩ := abs_le.mp h
  constructor <;> simp only [Interval.around] <;> push_cast <;> linarith

theorem Interval.Holds.width_nonneg (h : a.Holds x) : (0 : ℝ) ≤ a.width := by
  have := h.1.trans h.2
  rw [Interval.width, Rat.cast_sub]
  linarith

theorem width_around (c r : ℚ) : (Interval.around c r).width = 2 * r := by
  simp only [Interval.width, Interval.around]
  ring

theorem Interval.Holds.neg (h : a.Holds x) : a.neg.Holds (-x) := by
  obtain ⟨lo, hi⟩ := h
  constructor <;> simp only [Interval.neg] <;> push_cast <;> linarith

theorem width_neg (a : Interval) : a.neg.width = a.width := by
  simp only [Interval.width, Interval.neg]
  ring

theorem Interval.Holds.add (hx : a.Holds x) (hy : b.Holds y) : (a.add b).Holds (x + y) := by
  obtain ⟨xlo, xhi⟩ := hx
  obtain ⟨ylo, yhi⟩ := hy
  constructor <;> simp only [Interval.add] <;> push_cast <;> linarith

/-- A multiple of a number between two lies between their multiples. -/
theorem mul_between {l h x : ℝ} (lo : l ≤ x) (hi : x ≤ h) (c : ℝ) :
    min (c * l) (c * h) ≤ c * x ∧ c * x ≤ max (c * l) (c * h) := by
  rcases le_total 0 c with pos | neg
  · exact ⟨min_le_of_left_le (mul_le_mul_of_nonneg_left lo pos), le_max_of_le_right (mul_le_mul_of_nonneg_left hi pos)⟩
  · exact ⟨min_le_of_right_le (mul_le_mul_of_nonpos_left hi neg), le_max_of_le_left (mul_le_mul_of_nonpos_left lo neg)⟩

theorem Interval.Holds.mul (hx : a.Holds x) (hy : b.Holds y) : (a.mul b).Holds (x * y) := by
  obtain ⟨lower, upper⟩ := mul_between hx.1 hx.2 y
  obtain ⟨lo_lower, lo_upper⟩ := mul_between hy.1 hy.2 a.lo
  obtain ⟨hi_lower, hi_upper⟩ := mul_between hy.1 hy.2 a.hi
  rw [mul_comm y, mul_comm y, mul_comm y] at lower upper
  constructor <;> simp only [Interval.mul, Rat.cast_min, Rat.cast_max, Rat.cast_mul]
  · exact (min_le_min lo_lower hi_lower).trans lower
  · exact upper.trans (max_le_max lo_upper hi_upper)

theorem Interval.Holds.inv (h : b.Holds y) (s : 0 < b.lo ∨ b.hi < 0) :
    (Interval.mk (1 / b.hi) (1 / b.lo)).Holds (1 / y) := by
  obtain ⟨lo, hi⟩ := h
  rcases s with pos | neg
  · have pos : (0 : ℝ) < b.lo := by exact_mod_cast pos
    constructor <;> push_cast
    · exact one_div_le_one_div_of_le (pos.trans_le lo) hi
    · exact one_div_le_one_div_of_le pos lo
  · have neg : (b.hi : ℝ) < 0 := by exact_mod_cast neg
    constructor <;> push_cast
    · exact one_div_le_one_div_of_neg_of_le neg hi
    · exact one_div_le_one_div_of_neg_of_le (hi.trans_lt neg) lo

theorem Interval.Holds.div (hx : a.Holds x) (hy : b.Holds y) (hc : a.div b = some c) : c.Holds (x / y) := by
  unfold Interval.div at hc
  split_ifs at hc with apart zero
  · obtain rfl := Option.some.inj hc
    rw [div_eq_mul_one_div x y]
    exact hx.mul (hy.inv apart)
  · obtain rfl := Option.some.inj hc
    obtain ⟨lo, hi⟩ := hy
    rw [zero.1, Rat.cast_zero] at lo
    rw [zero.2, Rat.cast_zero] at hi
    rw [le_antisymm hi lo, div_zero]
    exact_mod_cast holds_point 0

end Interval

/-! ## Alternating series -/

/-- What is left out of an alternating series whose terms fall is at most the first term left out. -/
theorem alternating_error {f : Nat → ℝ} {s : ℝ} (sum : HasSum (fun i => (-1) ^ i * f i) s) (fall : Antitone f)
    (nonneg : ∀ i, 0 ≤ f i) (n : Nat) : |s - ∑ i ∈ Finset.range n, (-1) ^ i * f i| ≤ f n := by
  have summable : Summable f := by
    refine sum.summable.abs.congr fun i => ?_
    rw [abs_mul, abs_neg_one_pow, one_mul, abs_of_nonneg (nonneg i)]
  rw [← sum.tsum_eq]
  exact alternating_series_error_bound f fall summable n

/-! ### `π` by Machin's formula -/

theorem arctanSeries_eq_sum (q : ℚ) (n m : Nat) :
    arctanSeries q n m = ∑ i ∈ Finset.range n, (-1) ^ i * (q ^ i / (m + 2 * i : Nat)) := by
  induction n generalizing m with
  | zero => rfl
  | succ n ih =>
    rw [arctanSeries, ih, Finset.sum_range_succ', Finset.mul_sum, sub_eq_add_neg, add_comm, ← Finset.sum_neg_distrib]
    congr 1
    · refine Finset.sum_congr rfl fun i _ => ?_
      rw [show m + 2 + 2 * i = m + 2 * (i + 1) by ring, pow_succ, pow_succ]
      ring
    · simp

/-- `x·arctanSeries x²` is `arctan x` but for the terms left out. -/
theorem arctanSeries_error {x : ℚ} (pos : 0 ≤ x) (lt : x < 1) (n : Nat) :
    |Real.arctan x - ((x * arctanSeries (x * x) n 1 : ℚ) : ℝ)| ≤ (x : ℝ) ^ (2 * n + 1) := by
  have pos' : (0 : ℝ) ≤ x := by exact_mod_cast pos
  have lt' : (x : ℝ) < 1 := by exact_mod_cast lt
  have sum := Real.hasSum_arctan (x := x) (by rwa [Real.norm_of_nonneg pos'])
  simp only [mul_div_assoc] at sum
  have fall : Antitone fun i : Nat => (x : ℝ) ^ (2 * i + 1) / ((2 * i + 1 : Nat) : ℝ) := by
    intro i j le
    exact div_le_div₀ (by positivity) (pow_le_pow_of_le_one pos' lt'.le (by omega)) (by positivity)
      (by exact_mod_cast (by omega : 2 * i + 1 ≤ 2 * j + 1))
  have series : ((x * arctanSeries (x * x) n 1 : ℚ) : ℝ) =
      ∑ i ∈ Finset.range n, (-1) ^ i * ((x : ℝ) ^ (2 * i + 1) / ((2 * i + 1 : Nat) : ℝ)) := by
    rw [arctanSeries_eq_sum, Finset.mul_sum]
    push_cast
    refine Finset.sum_congr rfl fun i _ => ?_
    rw [← pow_two, ← pow_mul, pow_succ, add_comm (1 : ℝ)]
    ring
  rw [series]
  refine (alternating_error sum fall (fun i => by positivity) n).trans (div_le_self (by positivity) ?_)
  exact_mod_cast (by omega : 1 ≤ 2 * n + 1)

/-- How far Machin's formula, cut to the terms of `p` bits, is from `π`. -/
theorem machin_error (n : Nat) :
    |Real.pi - ((16 / 5 * arctanSeries (1 / 25) n 1 - 4 / 239 * arctanSeries (1 / 57121) n 1 : ℚ) : ℝ)| ≤
      ((20 / (5 ^ (2 * n + 1) : Nat) : ℚ) : ℝ) := by
  have fifth := arctanSeries_error (x := 1 / 5) (by norm_num) (by norm_num) n
  have other := arctanSeries_error (x := 1 / 239) (by norm_num) (by norm_num) n
  have smaller : ((1 / 239 : ℚ) : ℝ) ^ (2 * n + 1) ≤ ((1 / 5 : ℚ) : ℝ) ^ (2 * n + 1) := by
    gcongr
    norm_num
  have machin := Real.four_mul_arctan_inv_5_sub_arctan_inv_239
  have radius : ((20 / (5 ^ (2 * n + 1) : Nat) : ℚ) : ℝ) = 20 * ((1 / 5 : ℚ) : ℝ) ^ (2 * n + 1) := by
    push_cast
    rw [div_pow, one_pow]
    ring
  rw [radius]
  norm_num at fifth other machin smaller ⊢
  obtain ⟨fifth_lo, fifth_hi⟩ := abs_le.mp fifth
  obtain ⟨other_lo, other_hi⟩ := abs_le.mp other
  exact abs_le.mpr ⟨by linarith, by linarith⟩

theorem piInterval_holds (p : Nat) : (piInterval p).Holds Real.pi := (holds_around (machin_error _)).outward p

theorem piInterval_width (p : Nat) : (piInterval p).width ≤ 3 * grain p := by
  have bits : (2 : ℚ) ^ (p + 6) ≤ 5 ^ (2 * piTerms p + 1) := by
    calc (2 : ℚ) ^ (p + 6) ≤ 2 ^ (2 * (2 * piTerms p + 1)) := by
          gcongr
          · norm_num
          · unfold piTerms; omega
      _ = 4 ^ (2 * piTerms p + 1) := by rw [pow_mul]; norm_num
      _ ≤ 5 ^ (2 * piTerms p + 1) := by gcongr; norm_num
  have radius : 20 / ((5 ^ (2 * piTerms p + 1) : Nat) : ℚ) ≤ grain p / 2 := by
    rw [grain, div_div, div_le_div_iff₀ (by positivity) (by positivity)]
    push_cast
    rw [pow_add] at bits
    linarith [show (0 : ℚ) < 2 ^ p by positivity]
  have := width_outward p (Interval.around
    (16 / 5 * arctanSeries (1 / 25) (piTerms p) 1 - 4 / 239 * arctanSeries (1 / 57121) (piTerms p) 1)
    (20 / (5 ^ (2 * piTerms p + 1) : Nat)))
  rw [width_around] at this
  unfold piInterval
  linarith

/-! ### Sine and cosine -/

/-- What `powerSeries` is without its cuts: the first `n` terms of `Σ (-1)^i·y^(2i)·m!/(m+2i)!`. -/
def trigSeries (ySq : ℚ) (n m : Nat) : ℚ :=
  ∑ i ∈ Finset.range n, (-1) ^ i * (ySq ^ i * m.factorial / (m + 2 * i).factorial)

theorem trigSeries_succ (ySq : ℚ) (n m : Nat) :
    trigSeries ySq (n + 1) m = 1 - ySq / ((m + 1) * (m + 2) : Nat) * trigSeries ySq n (m + 2) := by
  rw [trigSeries, trigSeries, Finset.sum_range_succ', Finset.mul_sum, sub_eq_add_neg, add_comm,
    ← Finset.sum_neg_distrib]
  congr 1
  · simp [Nat.factorial_ne_zero]
  · refine Finset.sum_congr rfl fun i _ => ?_
    rw [show m + 2 * (i + 1) = m + 2 + 2 * i by ring, Nat.factorial_succ (m + 1), Nat.factorial_succ m]
    push_cast
    field_simp
    ring

/-- The cuts of all the steps together. -/
theorem powerSeries_error {ySq : ℚ} (nonneg : 0 ≤ ySq) (le_one : ySq ≤ 1) (p n m : Nat) :
    |powerSeries p ySq n m - trigSeries ySq n m| ≤ 2 * grain p := by
  induction n generalizing m with
  | zero => simpa [powerSeries, trigSeries] using (grain_pos p).le
  | succ n ih =>
    have small : |ySq / ((m + 1) * (m + 2) : Nat)| ≤ 1 / 2 := by
      rw [abs_of_nonneg (by positivity), div_le_iff₀ (by positivity)]
      have : (2 : ℚ) ≤ ((m + 1) * (m + 2) : Nat) := by exact_mod_cast (by nlinarith : 2 ≤ (m + 1) * (m + 2))
      linarith
    have earlier : |ySq / ((m + 1) * (m + 2) : Nat) * (powerSeries p ySq n (m + 2) - trigSeries ySq n (m + 2))| ≤
        1 / 2 * (2 * grain p) := by
      rw [abs_mul]
      exact mul_le_mul small (ih (m + 2)) (abs_nonneg _) (by norm_num)
    have cut := abs_roundDown_sub p (1 - ySq / ((m + 1) * (m + 2) : Nat) * powerSeries p ySq n (m + 2))
    rw [powerSeries, trigSeries_succ]
    rw [abs_le] at earlier cut ⊢
    constructor <;> linarith

theorem antitone_pow_div_factorial {y : ℝ} (nonneg : 0 ≤ y) (le_one : y ≤ 1) (m : Nat) :
    Antitone fun i : Nat => y ^ (2 * i + m) / (2 * i + m).factorial := by
  intro i j le
  exact div_le_div₀ (by positivity) (pow_le_pow_of_le_one nonneg le_one (by omega)) (by positivity)
    (by exact_mod_cast Nat.factorial_le (by omega))

/-- The cosine but for the terms left out. -/
theorem cos_error {y : ℚ} (le_one : |y| ≤ 1) (n : Nat) :
    |Real.cos y - (trigSeries (y * y) n 0 : ℝ)| ≤ 1 / (2 * n).factorial := by
  have le_one' : |(y : ℝ)| ≤ 1 := by exact_mod_cast le_one
  have sum : HasSum (fun i : Nat => (-1) ^ i * (|(y : ℝ)| ^ (2 * i + 0) / (2 * i + 0).factorial)) (Real.cos y) := by
    rw [← Real.cos_abs]
    simpa only [mul_div_assoc, add_zero] using Real.hasSum_cos |(y : ℝ)|
  have series : (trigSeries (y * y) n 0 : ℝ) =
      ∑ i ∈ Finset.range n, (-1) ^ i * (|(y : ℝ)| ^ (2 * i + 0) / (2 * i + 0).factorial) := by
    rw [trigSeries]
    push_cast
    refine Finset.sum_congr rfl fun i _ => ?_
    rw [add_zero, pow_mul, sq_abs]
    simp [pow_two]
  rw [series]
  refine (alternating_error sum (antitone_pow_div_factorial (abs_nonneg _) le_one' 0) (fun i => by positivity) n).trans ?_
  rw [add_zero]
  gcongr
  exact pow_le_one₀ (abs_nonneg _) le_one'

/-- The sine but for the terms left out, for an angle that is not negative. -/
theorem sin_error_of_nonneg {y : ℚ} (nonneg : 0 ≤ y) (le_one : y ≤ 1) (n : Nat) :
    |Real.sin y - ((y * trigSeries (y * y) n 1 : ℚ) : ℝ)| ≤ 1 / (2 * n).factorial := by
  have nonneg' : (0 : ℝ) ≤ y := by exact_mod_cast nonneg
  have le_one' : (y : ℝ) ≤ 1 := by exact_mod_cast le_one
  have sum : HasSum (fun i : Nat => (-1) ^ i * ((y : ℝ) ^ (2 * i + 1) / (2 * i + 1).factorial)) (Real.sin y) := by
    simpa only [mul_div_assoc] using Real.hasSum_sin (y : ℝ)
  have series : ((y * trigSeries (y * y) n 1 : ℚ) : ℝ) =
      ∑ i ∈ Finset.range n, (-1) ^ i * ((y : ℝ) ^ (2 * i + 1) / (2 * i + 1).factorial) := by
    rw [trigSeries, Finset.mul_sum]
    push_cast
    refine Finset.sum_congr rfl fun i _ => ?_
    rw [pow_succ, pow_mul, add_comm 1]
    simp only [Nat.factorial_one, Nat.cast_one]
    ring
  rw [series]
  refine (alternating_error sum (antitone_pow_div_factorial nonneg' le_one' 1) (fun i => by positivity) n).trans ?_
  exact div_le_div₀ (by norm_num) (pow_le_one₀ nonneg' le_one') (by positivity)
    (by exact_mod_cast Nat.factorial_le (by omega))

/-- The sine but for the terms left out. -/
theorem sin_error {y : ℚ} (le_one : |y| ≤ 1) (n : Nat) :
    |Real.sin y - ((y * trigSeries (y * y) n 1 : ℚ) : ℝ)| ≤ 1 / (2 * n).factorial := by
  obtain ⟨lo, hi⟩ := abs_le.mp le_one
  rcases le_total 0 y with nonneg | neg
  · exact sin_error_of_nonneg nonneg hi n
  · have mirrored := sin_error_of_nonneg (neg_nonneg.mpr neg) (by linarith) n
    rw [neg_mul_neg, neg_mul, Rat.cast_neg, Rat.cast_neg, Real.sin_neg, ← abs_neg] at mirrored
    rwa [show Real.sin y - ((y * trigSeries (y * y) n 1 : ℚ) : ℝ) =
      -(-Real.sin y - -((y * trigSeries (y * y) n 1 : ℚ) : ℝ)) by ring]

/-- `1/(2n)!` is within the terms that `trigRadius` allows. -/
theorem tail_le (n : Nat) (pos : 0 < n) :
    1 / ((2 * n).factorial : ℝ) ≤ (((2 * n + 1 : Nat) : ℚ) / ((2 * n).factorial * (2 * n) : Nat) : ℚ) := by
  push_cast
  rw [div_le_div_iff₀ (by positivity) (by positivity)]
  nlinarith [show (0 : ℝ) < (2 * n).factorial by positivity]

/-- An enclosure of `π` that is fine enough for `p` bits. -/
structure EnclosesPi (p : Nat) (pi : Interval) : Prop where
  holds : pi.Holds Real.pi
  width : pi.width ≤ 3 * grain p
  bits : 8 ≤ p

theorem piInterval_enclosesPi {p : Nat} (h : 8 ≤ p) : EnclosesPi p (piInterval p) :=
  ⟨piInterval_holds p, piInterval_width p, h⟩

theorem turn_bounds (q : ℚ) : 0 ≤ turn q ∧ turn q < 2 := by
  have lo : ((q / 2).floor : ℚ) ≤ q / 2 := Int.floor_le _
  have hi : q / 2 < ((q / 2).floor : ℚ) + 1 := Int.lt_floor_add_one _
  unfold turn
  constructor <;> linarith

section Trig

variable {p : Nat} {pi : Interval}

theorem trigRadius_eq (p : Nat) (pi : Interval) :
    trigRadius p pi = ((2 * trigTerms p + 1 : Nat) : ℚ) / ((2 * trigTerms p).factorial * (2 * trigTerms p) : Nat) +
      4 * grain p + pi.width := by
  simp only [trigRadius, grain, Interval.width]
  ring

theorem tail_le_trigRadius (p : Nat) (pi : Interval) :
    1 / ((2 * trigTerms p).factorial : ℝ) + 4 * (grain p : ℝ) + (pi.width : ℝ) ≤ (trigRadius p pi : ℝ) := by
  have tail := tail_le (trigTerms p) (by unfold trigTerms; omega)
  rw [trigRadius_eq, Rat.cast_add, Rat.cast_add, Rat.cast_mul, Rat.cast_ofNat]
  linarith

theorem abs_cast_le_quarter {t : ℚ} (h : |t| ≤ 1 / 4) : |(t : ℝ)| ≤ 1 / 4 := by
  have := (Rat.cast_le (K := ℝ)).mpr h
  push_cast at this
  exact this

/-- The angle that the series are taken at. -/
def angleAt (p : Nat) (pi : Interval) (t : ℚ) : ℚ := roundDown p (pi.lo * t)

theorem cosSmall_eq (p : Nat) (pi : Interval) (t : ℚ) :
    cosSmall p pi t = (Interval.around (powerSeries p (angleAt p pi t * angleAt p pi t) (trigTerms p) 0)
      (trigRadius p pi)).outward p := rfl

theorem sinSmall_eq (p : Nat) (pi : Interval) (t : ℚ) :
    sinSmall p pi t =
      (Interval.around (angleAt p pi t * powerSeries p (angleAt p pi t * angleAt p pi t) (trigTerms p) 1)
        (trigRadius p pi)).outward p := rfl

variable (fine : EnclosesPi p pi) {t : ℚ} (ht : |t| ≤ 1 / 4)
include fine

theorem grain_le_of_enclosesPi : (grain p : ℝ) ≤ 1 / 256 := by
  have := (Rat.cast_le (K := ℝ)).mpr (grain_anti fine.bits)
  norm_num [grain] at this ⊢
  exact this

include ht

/-- It is near `π·t`. -/
theorem angleAt_near : |Real.pi * t - angleAt p pi t| ≤ (grain p : ℝ) + (pi.width : ℝ) / 4 := by
  have ht' := abs_cast_le_quarter ht
  obtain ⟨lo, hi⟩ := fine.holds
  have cut : |((pi.lo * t : ℚ) : ℝ) - angleAt p pi t| ≤ (grain p : ℝ) := by
    have := abs_roundDown_sub p (pi.lo * t)
    rw [abs_sub_comm] at this
    exact_mod_cast this
  have slope : |(Real.pi - pi.lo) * t| ≤ (pi.width : ℝ) / 4 := by
    have : |Real.pi - pi.lo| ≤ (pi.width : ℝ) := by
      rw [abs_of_nonneg (by linarith), Interval.width, Rat.cast_sub]
      linarith
    rw [abs_mul]
    calc |Real.pi - pi.lo| * |(t : ℝ)| ≤ (pi.width : ℝ) * (1 / 4) :=
          mul_le_mul this ht' (abs_nonneg _) ((abs_nonneg _).trans this)
      _ = (pi.width : ℝ) / 4 := by ring
  calc |Real.pi * t - angleAt p pi t|
      = |(((pi.lo * t : ℚ) : ℝ) - angleAt p pi t) + (Real.pi - pi.lo) * t| := by push_cast; ring_nf
    _ ≤ (grain p : ℝ) + (pi.width : ℝ) / 4 := (abs_add_le _ _).trans (add_le_add cut slope)

/-- It is an angle for which the series fall. -/
theorem abs_angleAt_le_one : |angleAt p pi t| ≤ 1 := by
  have ht' := abs_cast_le_quarter ht
  have near := angleAt_near fine ht
  have small := grain_le_of_enclosesPi fine
  have width : (pi.width : ℝ) ≤ 3 * (grain p : ℝ) := by exact_mod_cast fine.width
  have angle : |Real.pi * t| ≤ 4 / 5 := by
    rw [abs_mul, abs_of_pos Real.pi_pos]
    nlinarith [Real.pi_lt_d2, Real.pi_pos, abs_nonneg (t : ℝ)]
  have : |(angleAt p pi t : ℝ)| ≤ 1 := by
    rw [abs_le] at near angle ⊢
    constructor <;> linarith
  exact_mod_cast this

theorem angleAt_powerSeries_error (m : Nat) :
    |((trigSeries (angleAt p pi t * angleAt p pi t) (trigTerms p) m : ℚ) : ℝ) -
      (powerSeries p (angleAt p pi t * angleAt p pi t) (trigTerms p) m : ℚ)| ≤ 2 * (grain p : ℝ) := by
  have square : angleAt p pi t * angleAt p pi t ≤ 1 := by
    rw [← abs_mul_abs_self]
    exact mul_le_one₀ (abs_angleAt_le_one fine ht) (abs_nonneg _) (abs_angleAt_le_one fine ht)
  have error := powerSeries_error (mul_self_nonneg _) square p (trigTerms p) m
  rw [abs_sub_comm] at error
  exact_mod_cast error

theorem cosSmall_holds : (cosSmall p pi t).Holds (Real.cos (Real.pi * t)) := by
  have turned := (Real.abs_cos_sub_cos_le (Real.pi * t) (angleAt p pi t)).trans (angleAt_near fine ht)
  have series := cos_error (abs_angleAt_le_one fine ht) (trigTerms p)
  have cuts := angleAt_powerSeries_error fine ht 0
  have radius := tail_le_trigRadius p pi
  have width := fine.holds.width_nonneg
  have near : |Real.cos (Real.pi * t) - (powerSeries p (angleAt p pi t * angleAt p pi t) (trigTerms p) 0 : ℚ)| ≤
      (trigRadius p pi : ℝ) := by
    rw [abs_le] at turned series cuts ⊢
    constructor <;> linarith
  rw [cosSmall_eq]
  exact (holds_around near).outward p

theorem sinSmall_holds : (sinSmall p pi t).Holds (Real.sin (Real.pi * t)) := by
  have le_one : |(angleAt p pi t : ℝ)| ≤ 1 := by exact_mod_cast abs_angleAt_le_one fine ht
  have turned := (Real.abs_sin_sub_sin_le (Real.pi * t) (angleAt p pi t)).trans (angleAt_near fine ht)
  have series := sin_error (abs_angleAt_le_one fine ht) (trigTerms p)
  have cuts := mul_le_mul le_one (angleAt_powerSeries_error fine ht 1) (abs_nonneg _) zero_le_one
  rw [← abs_mul, mul_sub, ← Rat.cast_mul, ← Rat.cast_mul, one_mul] at cuts
  have radius := tail_le_trigRadius p pi
  have width := fine.holds.width_nonneg
  have near : |Real.sin (Real.pi * t) -
      (angleAt p pi t * powerSeries p (angleAt p pi t * angleAt p pi t) (trigTerms p) 1 : ℚ)| ≤
      (trigRadius p pi : ℝ) := by
    rw [abs_le] at turned series cuts ⊢
    constructor <;> linarith
  rw [sinSmall_eq]
  exact (holds_around near).outward p

omit ht in
theorem sinAt_holds (t : ℚ) : (sinAt p pi t).Holds (Real.sin (Real.pi * t)) := by
  obtain ⟨lo, hi⟩ := turn_bounds t
  rw [sin_turn]
  unfold sinAt
  simp only
  split_ifs with h1 h2 h3 h4
  · exact sinSmall_holds fine (abs_le.mpr ⟨by linarith, h1⟩)
  · have := cosSmall_holds fine (t := 1 / 2 - turn t) (abs_le.mpr ⟨by linarith, by linarith⟩)
    rwa [show Real.pi * ((1 / 2 - turn t : ℚ) : ℝ) = Real.pi / 2 - Real.pi * turn t by push_cast; ring,
      Real.cos_pi_div_two_sub] at this
  · have := sinSmall_holds fine (t := 1 - turn t) (abs_le.mpr ⟨by linarith, by linarith⟩)
    rwa [show Real.pi * ((1 - turn t : ℚ) : ℝ) = Real.pi - Real.pi * turn t by push_cast; ring, Real.sin_pi_sub] at this
  · have := (cosSmall_holds fine (t := 3 / 2 - turn t) (abs_le.mpr ⟨by linarith, by linarith⟩)).neg
    rwa [show Real.pi * ((3 / 2 - turn t : ℚ) : ℝ) = Real.pi / 2 - Real.pi * turn t + Real.pi by push_cast; ring,
      Real.cos_add_pi, neg_neg, Real.cos_pi_div_two_sub] at this
  · have := sinSmall_holds fine (t := turn t - 2) (abs_le.mpr ⟨by linarith, by linarith⟩)
    rwa [show Real.pi * ((turn t - 2 : ℚ) : ℝ) = Real.pi * turn t - 2 * Real.pi by push_cast; ring,
      Real.sin_sub_two_pi] at this

end Trig

/-- A sine for every angle of an interval: the slope is at most `π < 4`. -/
theorem sinOver_holds {p : Nat} {pi a : Interval} {x : ℝ} (fine : EnclosesPi p pi) (h : a.Holds x) :
    (sinOver p pi a).Holds (Real.sin (Real.pi * x)) := by
  obtain ⟨lo, hi⟩ := h
  obtain ⟨sin_lo, sin_hi⟩ := sinAt_holds fine ((a.lo + a.hi) / 2)
  have slope := Real.abs_sin_sub_sin_le (Real.pi * x) (Real.pi * ((a.lo + a.hi) / 2 : ℚ))
  have middle : |x - ((a.lo + a.hi) / 2 : ℚ)| ≤ ((a.hi : ℝ) - a.lo) / 2 := by
    push_cast
    exact abs_le.mpr ⟨by linarith, by linarith⟩
  rw [← mul_sub, abs_mul, abs_of_pos Real.pi_pos] at slope
  have near : |Real.sin (Real.pi * x) - Real.sin (Real.pi * ((a.lo + a.hi) / 2 : ℚ))| ≤ 2 * ((a.hi : ℝ) - a.lo) := by
    calc _ ≤ Real.pi * |x - ((a.lo + a.hi) / 2 : ℚ)| := slope
      _ ≤ 4 * (((a.hi : ℝ) - a.lo) / 2) := mul_le_mul Real.pi_le_four middle (abs_nonneg _) (by norm_num)
      _ = _ := by ring
  obtain ⟨near_lo, near_hi⟩ := abs_le.mp near
  constructor <;> simp only [sinOver] <;> push_cast <;> linarith

/-- Every enclosure holds the number it is of. -/
theorem encloseTo_holds {p : Nat} {pi : Interval} (fine : EnclosesPi p pi) {e : Num} {a : Interval}
    (h : encloseTo p pi e = some a) : a.Holds (realValue e) := by
  induction e generalizing a with
  | rat q =>
    obtain rfl := Option.some.inj h
    exact holds_point q
  | pi =>
    obtain rfl := Option.some.inj h
    exact fine.holds
  | named k => cases h
  | sinPi e ih =>
    obtain ⟨t, ht, rfl⟩ := Option.map_eq_some_iff.mp h
    exact sinOver_holds fine (ih ht)
  | cosPi e ih =>
    obtain ⟨t, ht, rfl⟩ := Option.map_eq_some_iff.mp h
    obtain ⟨lo, hi⟩ := ih ht
    have shifted : (Interval.mk (t.lo + 1 / 2) (t.hi + 1 / 2)).Holds (realValue e + 1 / 2) := by
      constructor <;> push_cast <;> linarith
    have sine := sinOver_holds fine shifted
    rwa [show Real.pi * (realValue e + 1 / 2) = Real.pi * realValue e + Real.pi / 2 by ring,
      Real.sin_add_pi_div_two] at sine
  | opp e ih =>
    obtain ⟨t, ht, rfl⟩ := Option.map_eq_some_iff.mp h
    exact (ih ht).neg
  | sum x y ihx ihy =>
    unfold encloseTo at h
    split at h
    · obtain rfl := Option.some.inj h
      exact (ihx ‹_›).add (ihy ‹_›)
    · cases h
  | prod x y ihx ihy =>
    unfold encloseTo at h
    split at h
    · obtain rfl := Option.some.inj h
      exact ((ihx ‹_›).mul (ihy ‹_›)).outward p
    · cases h
  | quot x y ihx ihy =>
    unfold encloseTo at h
    split at h
    · obtain ⟨c, hc, rfl⟩ := Option.map_eq_some_iff.mp h
      exact ((ihx ‹_›).div (ihy ‹_›) hc).outward p
    · cases h

theorem precisionFor_bits (e : Num) : 96 ≤ precisionFor e := Nat.le_add_right 96 _

theorem enclosesPi_precisionFor (e : Num) : EnclosesPi (precisionFor e) (piInterval (precisionFor e)) :=
  piInterval_enclosesPi ((by decide : 8 ≤ 96).trans (precisionFor_bits e))

theorem enclosure_holds (e : Num) (a : Interval) (h : enclosure e = some a) :
    (a.lo : ℝ) ≤ realValue e ∧ realValue e ≤ (a.hi : ℝ) := encloseTo_holds (enclosesPi_precisionFor e) h

/-! ### How narrow the enclosure of a sine is -/

theorem sinSmall_width (p : Nat) (pi : Interval) (t : ℚ) :
    (sinSmall p pi t).width ≤ 2 * trigRadius p pi + 2 * grain p := by
  rw [sinSmall_eq, ← width_around]
  exact width_outward p _

theorem cosSmall_width (p : Nat) (pi : Interval) (t : ℚ) :
    (cosSmall p pi t).width ≤ 2 * trigRadius p pi + 2 * grain p := by
  rw [cosSmall_eq, ← width_around]
  exact width_outward p _

theorem sinAt_width (p : Nat) (pi : Interval) (t : ℚ) : (sinAt p pi t).width ≤ 2 * trigRadius p pi + 2 * grain p := by
  unfold sinAt
  simp only
  split_ifs
  · exact sinSmall_width p pi _
  · exact cosSmall_width p pi _
  · exact sinSmall_width p pi _
  · exact (width_neg _).trans_le (cosSmall_width p pi _)
  · exact sinSmall_width p pi _

theorem grain_small {p : Nat} (h : 96 ≤ p) : grain p ≤ 1 / 10 ^ 28 :=
  (grain_anti h).trans (by norm_num [grain])

theorem tail_small {p : Nat} (h : 96 ≤ p) :
    ((2 * trigTerms p + 1 : Nat) : ℚ) / ((2 * trigTerms p).factorial * (2 * trigTerms p) : Nat) ≤ 1 / 10 ^ 28 := by
  have terms : 20 ≤ trigTerms p := by unfold trigTerms; omega
  have large : (2 * 10 ^ 28 : ℚ) ≤ (2 * trigTerms p).factorial := by
    have : 2 * 10 ^ 28 ≤ (40).factorial := by decide
    exact_mod_cast this.trans (Nat.factorial_le (by omega : 40 ≤ 2 * trigTerms p))
  have terms' : (20 : ℚ) ≤ trigTerms p := by exact_mod_cast terms
  rw [div_le_div_iff₀ (by positivity) (by positivity)]
  push_cast
  nlinarith

theorem trigRadius_small {p : Nat} {pi : Interval} (fine : EnclosesPi p pi) (h : 96 ≤ p) :
    trigRadius p pi ≤ 8 / 10 ^ 28 := by
  rw [trigRadius_eq]
  linarith [tail_small h, fine.width, grain_small h]

theorem sine_enclosure_narrow (q : ℚ) :
    ∃ a : Interval, enclosure (.sinPi (.rat q)) = some a ∧ a.hi - a.lo ≤ 1 / 10 ^ 18 := by
  refine ⟨_, rfl, ?_⟩
  have bits := precisionFor_bits (.sinPi (.rat q))
  have width := sinAt_width (precisionFor (.sinPi (.rat q))) (piInterval (precisionFor (.sinPi (.rat q)))) ((q + q) / 2)
  have radius := trigRadius_small (enclosesPi_precisionFor (.sinPi (.rat q))) bits
  have cut := grain_small bits
  rw [Interval.width] at width
  simp only [sinOver]
  linarith

/-! ## The answers about a number -/

/-- The sign of a real number. -/
noncomputable def realSign (x : ℝ) : Ordering := if x < 0 then .lt else if x = 0 then .eq else .gt

theorem realSign_eq (x : ℝ) :
    (realSign x = .lt ↔ x < 0) ∧ (realSign x = .eq ↔ x = 0) ∧ (realSign x = .gt ↔ 0 < x) := by
  unfold realSign
  rcases lt_trichotomy x 0 with lt | rfl | gt
  · simp [lt, lt.ne, lt.le]
  · simp
  · simp [gt, gt.ne', gt.le]

theorem realSign_rat (q : ℚ) : realSign q = signOf q := by
  simp [realSign, signOf]

/-- Near a number that is not 0 every rational number has its sign. -/
theorem signOf_near {x : ℝ} {q : ℚ} (h : |(q : ℝ) - x| < |x|) : signOf q = realSign x := by
  rw [← realSign_rat]
  obtain ⟨lo, hi⟩ := abs_lt.mp h
  rcases lt_trichotomy x 0 with lt | rfl | gt
  · rw [abs_of_neg lt] at hi
    rw [(realSign_eq x).1.mpr lt, (realSign_eq q).1]
    linarith
  · rw [abs_zero] at h
    exact absurd h (not_lt.mpr (abs_nonneg _))
  · rw [abs_of_pos gt] at lo
    rw [(realSign_eq x).2.2.mpr gt, (realSign_eq q).2.2]
    linarith

theorem atReal_signOf {x : ℝ} {o : Ordering} : AtReal signOf x o ↔ o = realSign x := by
  by_cases rational : ∃ q : ℚ, (q : ℝ) = x
  · obtain ⟨q, rfl⟩ := rational
    rw [atReal_rat, realSign_rat, eq_comm]
  · have nonzero : 0 < |x| := abs_pos.mpr fun h => rational ⟨0, by simp [h]⟩
    constructor
    · rintro (⟨q, hq, -⟩ | ⟨-, d, pos, near⟩)
      · exact absurd ⟨q, hq⟩ rational
      · obtain ⟨q, hq⟩ := exists_rat_near x (lt_min pos nonzero)
        rw [abs_sub_comm, lt_min_iff] at hq
        rw [← near q hq.1, signOf_near hq.2]
    · rintro rfl
      exact .inr ⟨rational, |x|, nonzero, fun q hq => signOf_near hq⟩

/-- The model's sign of a number is that of the real number. -/
theorem sign_eq_realSign (e : Num) : sign e = realSign (realValue e) :=
  atReal_signOf.mp (ask_spec signOf_convex (enclosure_holds e) ⟨_, atReal_signOf.mpr rfl⟩)

theorem sign_spec (e : Num) :
    (sign e = .lt ↔ realValue e < 0) ∧ (sign e = .eq ↔ realValue e = 0) ∧ (sign e = .gt ↔ 0 < realValue e) := by
  rw [sign_eq_realSign]
  exact realSign_eq _

theorem isZero_iff (e : Num) : isZero e = true ↔ realValue e = 0 := by
  rw [isZero, beq_iff_eq]
  exact (sign_spec e).2.1

theorem lessThan_iff (a b : Num) : lessThan a b = true ↔ realValue a < realValue b := by
  rw [lessThan, beq_iff_eq, (sign_spec _).2.2, realValue_exactSub, sub_pos]

end Sys2Proof.Machine
end

section
/-! PROOFS. RRC_TAPS_BUILD (40_init_tables R138 to R144): the raw taps over the reals, their symmetry, and the checks of
R143 on real numbers. -/

namespace Sys2Proof.Machine

open Sys2Proof.Safety

/-! ## The raw taps (R138, R139) -/

/-- `T·h` at `x`, the three cases of R138 in order, for a roll-off of either sign. -/
noncomputable def tapAt (b x : ℝ) : ℝ :=
  if x = 0 then 1 - b + 4 * b / Real.pi
  else if |4 * |x| * b - 1| < 1 / 10 ^ 9 then
    b / Real.sqrt 2 *
      ((1 + 2 / Real.pi) * Real.sin (Real.pi / (4 * b)) + (1 - 2 / Real.pi) * Real.cos (Real.pi / (4 * b)))
  else
    (Real.sin (Real.pi * x * (1 - b)) + 4 * b * x * Real.cos (Real.pi * x * (1 + b))) /
      (Real.pi * x * (1 - (4 * b * x) ^ 2))

/-- The test of R139 is that of the real number. -/
theorem nearSingular_iff (z : Num) : nearSingular z = true ↔ |realValue z - 1| < 1 / 10 ^ 9 := by
  rw [nearSingular, Bool.and_eq_true, lessThan_iff, lessThan_iff, abs_lt, realValue_rat, realValue_rat]
  push_cast
  constructor <;> rintro ⟨lo, hi⟩ <;> constructor <;> linarith

theorem realValue_centreTap (beta : Num) :
    realValue (centreTap beta) = 1 - realValue beta + 4 * realValue beta / Real.pi := by simp [centreTap]

theorem realValue_singularTap (beta : Num) :
    realValue (singularTap beta) = realValue beta / Real.sqrt 2 *
      ((1 + 2 / Real.pi) * Real.sin (Real.pi / (4 * realValue beta)) +
        (1 - 2 / Real.pi) * Real.cos (Real.pi / (4 * realValue beta))) := by
  have half : Real.sqrt 2 / 2 = 1 / Real.sqrt 2 := Real.sqrt_div_self'
  simp [singularTap, realValue_rootHalf, half, div_eq_mul_inv]

theorem realValue_generalTap (beta : Num) (x : ℚ) :
    realValue (generalTap beta x) =
      (Real.sin (Real.pi * x * (1 - realValue beta)) +
          4 * realValue beta * x * Real.cos (Real.pi * x * (1 + realValue beta))) /
        (Real.pi * x * (1 - (4 * realValue beta * x) ^ 2)) := by
  simp only [generalTap, realValue_exactDiv, realValue_exactAdd, realValue_exactSinPi, realValue_exactMul,
    realValue_exactSub, realValue_exactCosPi, realValue_rat, realValue_pi]
  push_cast
  ring_nf

/-- The model's raw tap is R138's formula over the reals. -/
theorem realValue_rawTapFormula (beta : Num) (x : ℚ) :
    realValue (rawTapFormula beta x) = tapAt (realValue beta) x := by
  have centre : x = 0 ↔ (x : ℝ) = 0 := Rat.cast_eq_zero.symm
  have singular : nearSingular (exactMul (.rat (4 * |x|)) beta) = true ↔
      |4 * |(x : ℝ)| * realValue beta - 1| < 1 / 10 ^ 9 := by
    rw [nearSingular_iff, realValue_exactMul, realValue_rat]
    push_cast
    rfl
  unfold rawTapFormula tapAt
  simp only [← centre, ← singular]
  split_ifs
  · exact realValue_centreTap beta
  · exact realValue_singularTap beta
  · exact realValue_generalTap beta x

/-- The formula is even in `x` (R140). -/
theorem tapAt_neg (b x : ℝ) : tapAt b (-x) = tapAt b x := by
  have sine : Real.sin (Real.pi * -x * (1 - b)) = -Real.sin (Real.pi * x * (1 - b)) := by
    rw [← Real.sin_neg]
    ring_nf
  have cosine : Real.cos (Real.pi * -x * (1 + b)) = Real.cos (Real.pi * x * (1 + b)) := by
    rw [← Real.cos_neg]
    ring_nf
  have numerator : Real.sin (Real.pi * -x * (1 - b)) + 4 * b * -x * Real.cos (Real.pi * -x * (1 + b)) =
      -(Real.sin (Real.pi * x * (1 - b)) + 4 * b * x * Real.cos (Real.pi * x * (1 + b))) := by
    rw [sine, cosine]
    ring
  have denominator : Real.pi * -x * (1 - (4 * b * -x) ^ 2) = -(Real.pi * x * (1 - (4 * b * x) ^ 2)) := by ring
  rw [tapAt, tapAt, numerator, denominator, neg_div_neg_eq, abs_neg]
  simp only [neg_eq_zero]

theorem getD_rawTaps (u n : Nat) (beta : Num) {i : Nat} (h : i < n) :
    (rawTaps u n beta).getD i (.rat 0) = rawTapFormula beta (tapTime u n i) := by
  simp [rawTaps, List.getD_eq_getElem?_getD, h]

theorem realValue_rawTap (u n : Nat) (beta : Num) {i : Nat} (h : i < n) :
    realValue ((rawTaps u n beta).getD i (.rat 0)) = tapAt (realValue beta) (tapTime u n i) := by
  rw [getD_rawTaps u n beta h, realValue_rawTapFormula]

theorem tapTime_mirrored (u : Nat) {n i : Nat} (odd : n % 2 = 1) (h : i < n) :
    tapTime u n (n - 1 - i) = -tapTime u n i := by
  obtain ⟨m, rfl⟩ : ∃ m, n = 2 * m + 1 := ⟨n / 2, by omega⟩
  have middle : (2 * m + 1 - 1) / 2 = m := by omega
  rw [tapTime, tapTime, middle, Nat.cast_sub (by omega), Nat.add_sub_cancel]
  push_cast
  ring

/-- Settles O32: mirrored taps have opposite times, and the formula is even. -/
theorem rawTapsAreSymmetric : Obligations.RawTapsAreSymmetric := by
  intro u n beta i odd h
  rw [realValue_rawTap u n beta h, realValue_rawTap u n beta (by omega), tapTime_mirrored u odd h, Rat.cast_neg,
    tapAt_neg]

theorem cast_tapTime (u i : Nat) {n : Nat} (odd : n % 2 = 1) :
    ((tapTime u n i : ℚ) : ℝ) = ((i : ℝ) - ((n : ℝ) - 1) / 2) / u := by
  obtain ⟨m, rfl⟩ : ∃ m, n = 2 * m + 1 := ⟨n / 2, by omega⟩
  have middle : (2 * m + 1 - 1) / 2 = m := by omega
  rw [tapTime, middle]
  push_cast
  ring

/-- For a roll-off that is not negative R138 reads as the formula above. -/
theorem realTap_eq_tapAt (u n i : Nat) {b : ℝ} (h : 0 ≤ b) :
    realTap u n b i = tapAt b (((i : ℝ) - ((n : ℝ) - 1) / 2) / u) := by
  have test : ∀ x : ℝ, |4 * b * x| = 4 * |x| * b := fun x => by
    rw [abs_mul, abs_of_nonneg (by positivity)]
    ring
  simp only [realTap, tapAt, test]

/-- Settles O33: the enclosures are sound, so the answers are the real ones, and the formula built is R138's. -/
theorem sineIsAccurate : Obligations.SineIsAccurate := by
  refine ⟨enclosure_holds, sine_enclosure_narrow, sign_spec, lessThan_iff, fun u n beta i _ odd nonneg h => ?_⟩
  rw [realValue_rawTap u n beta h, realTap_eq_tapAt u n i nonneg, cast_tapTime u i odd]

/-! ## The checks of RRC_TAPS_BUILD (R143) -/

theorem betaOutside_iff (beta : Num) : betaOutside beta = true ↔ realValue beta < 0 ∨ 1 < realValue beta := by
  rw [betaOutside, Bool.or_eq_true, lessThan_iff, lessThan_iff, realValue_rat, realValue_rat, Rat.cast_zero, Rat.cast_one]

section Build

variable {u n : Int} {beta : Num} {s : State}

theorem exec_rrcTapsBuild_error {c : Nat} (h : rrcTapsBuild s.num u n beta = .error c) :
    exec (.rrcTapsBuild u n beta) s = raisesOnly s (.configError c) := by
  change execRrcTapsBuild u n beta s = _
  rw [execRrcTapsBuild, h]
  rfl

theorem filterCheck_badTaps (h : n < 1 ∨ n % 2 = 0) : filterCheck n beta = some 3 := if_pos h

theorem filterCheck_badBeta (pos : 1 ≤ n) (odd : n % 2 = 1) (h : realValue beta < 0 ∨ 1 < realValue beta) :
    filterCheck n beta = some 4 := by
  rw [filterCheck, if_neg (by omega), if_pos ((betaOutside_iff beta).mpr h)]

theorem filterCheck_legal (pos : 1 ≤ n) (odd : n % 2 = 1) (lo : 0 ≤ realValue beta) (hi : realValue beta ≤ 1) :
    filterCheck n beta = none := by
  have inside : ¬betaOutside beta = true := (betaOutside_iff beta).not.mpr (by simp [lo, hi])
  exact filterCheck_eq_none.mpr ⟨pos, odd, Bool.eq_false_of_not_eq_true inside⟩

theorem rrcTapsBuild_badFilter {f : Config.NumType} {c : Nat} (hu : 1 ≤ u) (h : filterCheck n beta = some c) :
    rrcTapsBuild f u n beta = .error c := by
  rw [rrcTapsBuild, if_neg (by omega), h]

theorem rrcTapsBuild_zeroSum {f : Config.NumType} (hu : 1 ≤ u) (h : filterCheck n beta = none)
    (zero : realValue (tapSum u.toNat n.toNat beta) = 0) : rrcTapsBuild f u n beta = .error 5 := by
  rw [rrcTapsBuild, if_neg (by omega), h]
  exact if_pos ((isZero_iff _).mpr zero)

theorem normalisable_iff (u n : Nat) (beta : Num) : Normalisable u n beta ↔ realValue (tapSum u n beta) ≠ 0 := by
  rw [Normalisable, ← Bool.not_eq_true, isZero_iff]

end Build

/-- Settles O31: each check is that of the real numbers, and the table of R144 passes none of them. -/
theorem rrcTapsBuildChecksThenBuilds : Obligations.RrcTapsBuildChecksThenBuilds := by
  intro u n beta s
  refine ⟨fun hu => ?_, fun hu bad => ?_, fun hu pos odd bad => ?_, fun hu pos odd lo hi zero => ?_,
    fun hu pos odd lo hi nonzero => ?_⟩
  · exact exec_rrcTapsBuild_error (if_pos hu)
  · exact exec_rrcTapsBuild_error (rrcTapsBuild_badFilter hu (filterCheck_badTaps bad))
  · exact exec_rrcTapsBuild_error (rrcTapsBuild_badFilter hu (filterCheck_badBeta pos odd bad))
  · exact exec_rrcTapsBuild_error (rrcTapsBuild_zeroSum hu (filterCheck_legal pos odd lo hi) zero)
  · exact ⟨_, exec_rrcTapsBuild hu (filterCheck_legal pos odd lo hi) ((normalisable_iff _ _ beta).mpr nonzero),
      tapTable_acceptable s.num u.toNat n.toNat beta⟩

end Sys2Proof.Machine
end

section
/-! PROOFS. The scrambler (41_scrambler): a packet is XORed with a mask of `pkt_idx`, `prbs_pos` and the table (R156),
and from a superframe start the mask is that of the closed form (R155). -/

namespace Sys2Proof.Machine

open Sys2Proof.Safety

/-! ## The element operations (R151, R153, R154) -/

theorem superframeStart_iff (k : Fin 8) : superframeStart k = true ↔ k = 0 := by simp [superframeStart]

/-- Settles O16: a superframe start is `pkt_idx = 0`. -/
theorem scrByte0InvertsAtASuperframeStart : Obligations.ScrByte0InvertsAtASuperframeStart := by
  intro b s run
  have answer : exec (.scrByte0 b) s = .next (s.completeWith (scrByte0 s.enc b) .byte) := whenRun_run run
  refine ⟨fun start => ?_, fun inside => ?_⟩
  · rw [answer, scrByte0_start s.enc b ((superframeStart_iff _).mpr start)]
    rfl
  · rw [answer, scrByte0_inside s.enc b (Bool.eq_false_of_not_eq_true ((superframeStart_iff _).not.mpr inside))]
    rfl

/-- Settles O17: the cursor is always inside the table. -/
theorem scrByteXorsTheTableByte : Obligations.ScrByteXorsTheTableByte := by
  intro b s run
  have answer : exec (.scrByte b) s = .next (s.completeWith (scrByte s.enc b) .byte) := whenRun_run run
  have entry : tableRead s.enc.prbsLut s.enc.prbsPos.val = s.enc.prbsLut[s.enc.prbsPos] :=
    tableRead_of_lt _ _ s.enc.prbsPos.isLt
  rw [answer, State.completeWith_eq, scrByte_fst, scrByte_snd, entry]
  rfl

/-- Settles O18: SCR_NEXT is admitted in RUN, and adds on the numbers modulo 8. -/
theorem scrNextAdvancesTheSuperframe : Obligations.ScrNextAdvancesTheSuperframe := fun _ run => whenRun_run run

/-! ## The mask (R156) -/

section Mask

variable (e : Encoder)

/-- SCRAMBLE on a whole packet, the element of a stream. -/
def scramblePacket (ts : Packet 188) : List Byte × Encoder := scramble e ts.toList

/-- The cursor after byte 0 of a packet (R151, R152). -/
def payloadStart : Fin 1503 := if e.pktIdx = 0 then 0 else e.prbsPos

/-- What byte `k` of a packet is XORed with: byte 0 with the sync inversion or with nothing, the others with the table
from the cursor on. -/
def maskByte : Nat → Byte
  | 0 => if e.pktIdx = 0 then 0xFF#8 else 0x00#8
  | k + 1 => tableRead e.prbsLut (((payloadStart e).val + k) % 1503)

/-- The mask of a packet. -/
def scrambleMask : Packet 188 := Vector.ofFn fun k => maskByte e k.val

theorem scrByte0_eq (b : Byte) : scrByte0 e b = (b ^^^ maskByte e 0, { e with prbsPos := payloadStart e }) := by
  by_cases start : e.pktIdx = 0
  · rw [scrByte0_start e b ((superframeStart_iff _).mpr start)]
    simp only [maskByte, payloadStart, if_pos start]
  · rw [scrByte0_inside e b (Bool.eq_false_of_not_eq_true ((superframeStart_iff _).not.mpr start))]
    simp only [maskByte, payloadStart, if_neg start, BitVec.xor_zero]

/-- Payload bytes in order meet the table bytes from the cursor on. -/
theorem thread_scrByte_fst (l : List Byte) :
    (thread scrByte e l).1 = l.mapIdx fun k b => b ^^^ tableRead e.prbsLut ((e.prbsPos.val + k) % 1503) := by
  induction l generalizing e with
  | nil => rfl
  | cons b l ih =>
    have here : e.prbsPos.val = (e.prbsPos.val + 0) % 1503 := (Nat.mod_eq_of_lt e.prbsPos.isLt).symm
    have next (k : Nat) : ((e.prbsPos + 1).val + k) % 1503 = (e.prbsPos.val + (k + 1)) % 1503 := by
      rw [Fin.val_add, Fin.val_one]
      omega
    rw [thread_cons, ih, List.mapIdx_cons, scrByte_fst, scrByte_snd, ← here]
    simp only [next]

/-- SCRAMBLE is XOR with the mask. -/
theorem scramble_fst (l : List Byte) : (scramble e l).1 = l.mapIdx fun k b => b ^^^ maskByte e k := by
  cases l with
  | nil => rfl
  | cons b bs =>
    rw [scramble, scrByte0_eq, thread_scrByte_fst, List.mapIdx_cons]
    rfl

theorem scramblePacket_changesOnly (ts : Packet 188) :
    ChangesOnly [.pktIdx, .prbsPos] e (scramblePacket e ts).2 :=
  scramble_changesOnly e (by simp) (by simp) ts.toList

theorem scramblePacket_fst (ts : Packet 188) :
    (scramblePacket e ts).1 = xorBytes ts.toList (scrambleMask e).toList := by
  rw [scramblePacket, scramble_fst]
  apply List.ext_getElem
  · simp [xorBytes]
  · intro k _ _
    simp [xorBytes, scrambleMask]

theorem scramblePacket_pktIdx (ts : Packet 188) : (scramblePacket e ts).2.pktIdx = e.pktIdx + 1 :=
  scramble_pktIdx e ts.toList

theorem scramblePacket_prbsPos (ts : Packet 188) :
    (scramblePacket e ts).2.prbsPos.val = ((payloadStart e).val + 187) % 1503 := by
  rw [scramblePacket, toList_eq_cons ts, scramble_prbsPos, payloadStart, apply_ite Fin.val]
  simp

theorem scrambleMask_zero : (scrambleMask e)[0] = 0xFF#8 ∨ (scrambleMask e)[0] = 0x00#8 := by
  have first : (scrambleMask e)[0] = if e.pktIdx = 0 then 0xFF#8 else 0x00#8 := by simp [scrambleMask, maskByte]
  rw [first]
  exact ite_eq_or_eq ..

theorem scrambleMask_mem {k : Nat} (h : k < 188) (pos : k ≠ 0) : (scrambleMask e)[k] ∈ e.prbsLut.toList := by
  obtain ⟨j, rfl⟩ := Nat.exists_eq_succ_of_ne_zero pos
  have inside : ((payloadStart e).val + j) % 1503 < 1503 := Nat.mod_lt _ (by decide)
  have entry : (scrambleMask e)[j + 1] = e.prbsLut[((payloadStart e).val + j) % 1503] := by
    rw [← tableRead_of_lt _ _ inside]
    simp [scrambleMask, maskByte]
  rw [entry]
  simp

end Mask

/-! ## Scrambling twice (R156) -/

section Twice

variable {e e' : Encoder}

theorem payloadStart_agrees (h : ScramblerAgrees e e') : payloadStart e = payloadStart e' := by
  obtain ⟨hi, hp, -⟩ := h
  simp only [payloadStart, hi, hp]

theorem maskByte_agrees (h : ScramblerAgrees e e') (k : Nat) : maskByte e k = maskByte e' k := by
  have start := payloadStart_agrees h
  obtain ⟨hi, -, hl⟩ := h
  cases k with
  | zero => simp only [maskByte, hi]
  | succ k => simp only [maskByte, start, hl]

/-- The same mask twice is no mask. -/
theorem scramble_scramble_fst (h : ScramblerAgrees e e') (l : List Byte) :
    (scramble e' (scramble e l).1).1 = l := by
  have cancel (k : Nat) (b : Byte) : b ^^^ maskByte e k ^^^ maskByte e' k = b := by
    rw [maskByte_agrees h, BitVec.xor_assoc, BitVec.xor_self, BitVec.xor_zero]
  rw [scramble_fst, scramble_fst]
  exact List.ext_getElem (by simp) fun k _ _ => by simp [cancel]

/-- The scrambler's state after a packet does not depend on the packet's bytes. -/
theorem scramblePacket_snd_agrees (h : ScramblerAgrees e e') (ts ts' : Packet 188) :
    ScramblerAgrees (scramblePacket e ts).2 (scramblePacket e' ts').2 := by
  have start := payloadStart_agrees h
  obtain ⟨hi, -, hl⟩ := h
  refine ⟨?_, ?_, ?_⟩
  · rw [scramblePacket_pktIdx, scramblePacket_pktIdx, hi]
  · rw [Fin.ext_iff, scramblePacket_prbsPos, scramblePacket_prbsPos, start]
  · rw [(scramblePacket_changesOnly e ts).prbsLut, (scramblePacket_changesOnly e' ts').prbsLut, hl]

end Twice

/-! ## A stream of packets -/

theorem runs_scramble (n : Config.NumType) : RunsElement n Instr.scramble scramblePacket .bytes :=
  ⟨fun _ _ run _ => whenRun_run run, fun e ts => (scramblePacket_changesOnly e ts).mode⟩

/-- A second scrambler in the same state gives back the stream that the first was fed, and ends in the same state. -/
theorem thread_scramblePacket_twice {e e' : Encoder} {packets outs : List (Packet 188)} (h : ScramblerAgrees e e')
    (first : (thread scramblePacket e packets).1 = outs.map (·.toList)) :
    (thread scramblePacket e' outs).1 = packets.map (·.toList) ∧
      ScramblerAgrees (thread scramblePacket e packets).2 (thread scramblePacket e' outs).2 := by
  induction packets generalizing e e' outs with
  | nil =>
    obtain rfl : outs = [] := List.map_eq_nil_iff.mp first.symm
    exact ⟨rfl, h⟩
  | cons p packets ih =>
    obtain ⟨o, outs, rfl, ho, hos⟩ := List.map_eq_cons_iff.mp first.symm
    obtain ⟨back, agree⟩ := ih (scramblePacket_snd_agrees h p o) hos.symm
    have packet : (scramblePacket e' o).1 = p.toList := by
      rw [scramblePacket, ho]
      exact scramble_scramble_fst h p.toList
    exact ⟨by rw [thread_cons, packet, back, List.map_cons], agree⟩

/-- Settles O20: both scramblers have one mask, and the mask of every later packet is again the same for both. -/
theorem scramblingIsAnInvolution : Obligations.ScramblingIsAnInvolution := by
  intro s t runS runT hi hp hl
  have agrees : ScramblerAgrees s.enc t.enc := ⟨hi, hp, hl⟩
  refine ⟨⟨scrambleMask s.enc, scrambleMask_zero _, fun k h pos => scrambleMask_mem _ h pos, fun ts => ?_⟩,
    fun packets outs u run => ?_⟩
  · have masked := congrArg Result.bytes (scramblePacket_fst s.enc ts)
    have same := congrArg Result.bytes (scramble_agrees ts.toList agrees).1
    exact ⟨_, _, whenRun_run runS, whenRun_run runT, masked, same.symm.trans masked⟩
  · obtain ⟨u', hu, core, -⟩ := (runs_scramble s.num).runOps_map packets s runS rfl
    obtain ⟨hr, rfl⟩ := Prod.mk.inj (Option.some.inj (hu.symm.trans run))
    have first : (thread scramblePacket s.enc packets).1 = outs.map (·.toList) := by
      apply List.map_injective_iff.mpr (fun _ _ => Result.bytes.inj)
      rw [hr, List.map_map]
      rfl
    obtain ⟨back, ends⟩ := thread_scramblePacket_twice agrees first
    obtain ⟨v, hv, core', -⟩ := (runs_scramble t.num).runOps_map outs t runT rfl
    rw [← core, ← core'] at ends
    refine ⟨v, ?_, ends.1.symm, ends.2.1.symm⟩
    rw [hv, back, List.map_map]
    rfl

/-! ## The closed form (R155) -/

/-- The scrambler's registers after `n` packets since a superframe start (R154, R157). -/
structure SuperframeAfter (n : Nat) (e : Encoder) : Prop where
  pktIdx : e.pktIdx.val = n % 8
  prbsPos : n ≠ 0 → e.prbsPos.val = 187 * ((n - 1) % 8 + 1)

section ClosedForm

variable {n : Nat} {e : Encoder}

theorem superframeAfter_zero (h : e.pktIdx = 0) : SuperframeAfter 0 e := ⟨congrArg Fin.val h, fun k => absurd rfl k⟩

theorem SuperframeAfter.pktIdx_eq_zero (h : SuperframeAfter n e) : e.pktIdx = 0 ↔ n % 8 = 0 := by
  rw [← h.pktIdx, Fin.ext_iff]
  rfl

/-- The table index of the first payload byte. -/
theorem SuperframeAfter.payloadStart_val (h : SuperframeAfter n e) : (payloadStart e).val = 187 * (n % 8) := by
  by_cases start : n % 8 = 0
  · rw [payloadStart, if_pos (h.pktIdx_eq_zero.mpr start), start]
    rfl
  · rw [payloadStart, if_neg (h.pktIdx_eq_zero.not.mpr start), h.prbsPos (by omega)]
    omega

theorem SuperframeAfter.scramblePacket_snd (h : SuperframeAfter n e) (ts : Packet 188) :
    SuperframeAfter (n + 1) (scramblePacket e ts).2 where
  pktIdx := by
    rw [scramblePacket_pktIdx, Fin.val_add, h.pktIdx]
    simp
  prbsPos _ := by
    rw [scramblePacket_prbsPos, h.payloadStart_val, Nat.add_sub_cancel]
    omega

theorem SuperframeAfter.maskByte_zero (h : SuperframeAfter n e) :
    maskByte e 0 = if n % 8 = 0 then 0xFF#8 else 0x00#8 := by
  simp only [maskByte, h.pktIdx_eq_zero]

theorem SuperframeAfter.maskByte_succ (h : SuperframeAfter n e) {k : Nat} (hk : k < 187) :
    maskByte e (k + 1) = e.prbsLut[187 * (n % 8) + k]'(by omega) := by
  have index : ((payloadStart e).val + k) % 1503 = 187 * (n % 8) + k := by
    rw [h.payloadStart_val]
    omega
  rw [maskByte, index, tableRead_of_lt]

theorem SuperframeAfter.scrambledByte_eq (h : SuperframeAfter n e) (ts : Packet 188) (i : Fin 188) :
    scrambledByte e.prbsLut n ts i = ts[i] ^^^ maskByte e i.val := by
  obtain ⟨k, hk⟩ := i
  cases k with
  | zero =>
    rw [scrambledByte, h.maskByte_zero, if_pos rfl]
    split
    · rfl
    · exact (BitVec.xor_zero).symm
  | succ k =>
    rw [scrambledByte, h.maskByte_succ (by omega), if_neg (Nat.succ_ne_zero k)]
    rfl

theorem SuperframeAfter.scramblePacket_fst (h : SuperframeAfter n e) (ts : Packet 188) :
    (scramblePacket e ts).1 = scrambledPacket e.prbsLut n ts := by
  rw [scramblePacket, scramble_fst]
  apply List.ext_getElem
  · simp [scrambledPacket]
  · intro k _ _
    simp [scrambledPacket, h.scrambledByte_eq]

/-- The closed form of a stream, from any packet count. -/
theorem SuperframeAfter.thread_scramblePacket (h : SuperframeAfter n e) (packets : List (Packet 188)) :
    (thread scramblePacket e packets).1 = (packets.zipIdx n).map (fun p => scrambledPacket e.prbsLut p.2 p.1) ∧
      SuperframeAfter (n + packets.length) (thread scramblePacket e packets).2 := by
  induction packets generalizing n e with
  | nil => exact ⟨rfl, h⟩
  | cons p packets ih =>
    obtain ⟨stream, after⟩ := ih (h.scramblePacket_snd p)
    rw [(scramblePacket_changesOnly e p).prbsLut] at stream
    rw [Nat.add_right_comm] at after
    exact ⟨by rw [thread_cons, h.scramblePacket_fst, stream, List.zipIdx_cons, List.map_cons], after⟩

end ClosedForm

/-- Where only the scrambler's registers may change, the rest of the CORE is as before. -/
theorem ChangesOnly.eq_scrambler {e e' : Encoder} (h : ChangesOnly [.pktIdx, .prbsPos] e e') :
    e' = { e with pktIdx := e'.pktIdx, prbsPos := e'.prbsPos } := by
  obtain ⟨h1, h2, h3, h4, h5, h6, h7, -, -, r3, r4, r5, r6, r7⟩ := h
  cases e; cases e'
  simp_all

/-- Settles O19: a superframe start is a packet count of 0, and the count runs through the stream. -/
theorem scramblerClosedForm : Obligations.ScramblerClosedForm := by
  intro s packets run start
  obtain ⟨u, hu, core, -, bnd, -⟩ := (runs_scramble s.num).runOps_map packets s run rfl
  obtain ⟨stream, after⟩ := (superframeAfter_zero start).thread_scramblePacket packets
  have frame := thread_changesOnly s.enc scramblePacket_changesOnly packets
  rw [← core] at after frame
  rw [Nat.zero_add] at after
  refine ⟨u, ?_, frame.eq_scrambler, bnd, after.pktIdx, fun empty => ?_, fun nonempty => after.prbsPos (by simpa using nonempty)⟩
  · rw [hu, stream, List.map_map]
    rfl
  · rw [core, empty, thread_nil]

end Sys2Proof.Machine
end

section
/-! PROOFS. The convolutional interleaver (43_interleaver): a branch is a queue of `17·i` bytes (R191, R193), so what
leaves it is what entered, one lap later (R196), and a packet moves its cursor on by 17 (R197). -/

namespace Sys2Proof.Machine

open Sys2Proof.Safety

/-! ## The slots of the bank (R193) -/

theorem Fifos.visit_zero (f : Fifos) (b : Byte) : f.visit 0 b = (b, f) := rfl

/-- The slot at the cursor takes the byte written, and the branch's other slots stay. -/
theorem Fifos.visit_cells_self (f : Fifos) (i : Fin 12) (b : Byte) :
    (f.visit i b).2.cells i = (f.cells i).set (f.cursor i) b := by
  fin_cases i
  · rfl
  all_goals exact Vector.toList_set (Fin.isLt _)

theorem Fifos.cursor_lt_cells (f : Fifos) {i : Fin 12} (h : i ≠ 0) : f.cursor i < (f.cells i).length := by
  rw [f.cells_length]
  exact f.cursor_lt i h

/-- The byte returned is the one in the slot at the cursor. -/
theorem Fifos.visit_fst_self (f : Fifos) (i : Fin 12) (b : Byte) (h : i ≠ 0) :
    (f.cells i)[f.cursor i]? = some (f.visit i b).1 := by
  fin_cases i
  · exact absurd rfl h
  all_goals exact List.getElem?_eq_getElem _

/-- A visit to branch `i` leaves the cursor of every other branch and all slots but the one it exchanges alone. -/
theorem Fifos.visit_slot_other (f : Fifos) (i j : Fin 12) (b : Byte) (idx : Nat)
    (h : ¬(i ≠ 0 ∧ j = i ∧ idx = f.cursor i)) : ((f.visit i b).2.cells j)[idx]? = (f.cells j)[idx]? := by
  by_cases branch : j = i
  · subst branch
    by_cases empty : j = 0
    · rw [empty, visit_zero]
    · have slot : f.cursor j ≠ idx := fun at_cursor => h ⟨empty, rfl, at_cursor.symm⟩
      rw [visit_cells_self, List.getElem?_set_ne slot]
  · rw [visit_cells_other f i j b branch]

/-- Settles O34: one visit to the branch, read through the rules of the bank. -/
theorem ilByteExchangesOneSlot : Obligations.IlByteExchangesOneSlot := by
  intro p b i s run position
  obtain rfl : i = branchOf p.val := Fin.ext position
  refine ⟨(s.enc.fifo.visit (branchOf p.val) b).1, (s.enc.fifo.visit (branchOf p.val) b).2, whenRun_run run,
    fun passes => ?_, fun stored => ⟨?_, ?_, ?_⟩, fun j other => ?_, fun space idx other => ?_⟩
  · rw [passes, Fifos.visit_zero]
    exact ⟨rfl, rfl⟩
  · exact s.enc.fifo.visit_fst_self _ b stored
  · simp only [Encoder.memRead, Fifos.visit_cells_self]
    exact List.getElem?_set_self (s.enc.fifo.cursor_lt_cells stored)
  · exact s.enc.fifo.visit_cursor_self _ b stored
  · exact s.enc.fifo.visit_cursor_other _ j b other
  · cases space with
    | fifo j =>
      refine s.enc.fifo.visit_slot_other _ j b idx fun ⟨stored, same, slot⟩ => ?_
      exact other ⟨stored, congrArg Space.fifo same, slot⟩
    | prbsLut | gfExp | gfLog | g | rem => rfl

/-! ## A branch as a queue -/

/-- The bytes a branch holds, the one its next visit returns first. -/
def Fifos.line (f : Fifos) (i : Fin 12) : List Byte := (f.cells i).rotate (f.cursor i)

section Line

variable (f : Fifos) (i : Fin 12)

theorem Fifos.line_length : (f.line i).length = 17 * i.val := by rw [line, List.length_rotate, f.cells_length]

theorem Fifos.zero_line : Fifos.zero.line i = List.replicate (17 * i.val) 0x00#8 := by
  rw [line, fifos_zero_cells, fifos_zero_cursor, List.rotate_zero]

/-- Overwriting the element that is first in a rotation, and rotating on, puts the new element last. -/
theorem rotate_append_eq_cons {α : Type} (l : List α) (c : Nat) (x : α) (h : c < l.length) :
    l.rotate c ++ [x] = l[c] :: (l.set c x).rotate (c + 1) := by
  have inside : c + 1 ≤ (l.set c x).length := by rwa [List.length_set]
  rw [List.rotate_eq_drop_append_take h.le, List.rotate_eq_drop_append_take inside, List.drop_set_of_lt c.lt_succ_self,
    List.take_succ_eq_append_getElem inside, List.take_set_of_le c.le_refl, List.getElem_set_self,
    List.drop_eq_getElem_cons h, List.cons_append, List.cons_append, List.append_assoc]

/-- THE QUEUE LAW. A visit appends a byte to the queue and returns the byte at its head; branch 0 is the empty queue. -/
theorem Fifos.visit_line (b : Byte) : (f.visit i b).1 :: (f.visit i b).2.line i = f.line i ++ [b] := by
  by_cases h : i = 0
  · subst h; rfl
  · have inside := f.cursor_lt_cells h
    have returned : (f.cells i)[f.cursor i] = (f.visit i b).1 := by
      rw [← Option.some_inj, ← List.getElem?_eq_getElem inside, f.visit_fst_self i b h]
    have wrap : ((f.cells i).set (f.cursor i) b).length = 17 * i.val := by rw [List.length_set, f.cells_length]
    rw [line, line, rotate_append_eq_cons _ _ b inside, returned, f.visit_cells_self, f.visit_cursor_self i b h,
      ← wrap, List.rotate_mod]

theorem Fifos.visit_line_other (j : Fin 12) (b : Byte) (h : j ≠ i) : (f.visit i b).2.line j = f.line j := by
  rw [line, line, f.visit_cells_other i j b h, f.visit_cursor_other i j b h]

end Line

/-! ## Visits in order -/

/-- Of bytes with their positions, the bytes on branch `i`, in order. -/
def branchBytes (i : Fin 12) (l : List (Byte × Nat)) : List Byte := (l.filter (branchOf ·.2 = i)).map Prod.fst

section Visits

variable {i : Fin 12} {p : Nat}

theorem branchBytes_cons_self (b : Byte) (l : List (Byte × Nat)) (h : branchOf p = i) :
    branchBytes i ((b, p) :: l) = b :: branchBytes i l := by simp [branchBytes, h]

theorem branchBytes_cons_other (b : Byte) (l : List (Byte × Nat)) (h : branchOf p ≠ i) :
    branchBytes i ((b, p) :: l) = branchBytes i l := by simp [branchBytes, h]

theorem branchBytes_length (i : Fin 12) (l : List (Byte × Nat)) :
    (branchBytes i l).length = (l.map Prod.snd).countP (branchOf · = i) := by
  rw [branchBytes, List.length_map, ← List.countP_eq_length_filter, List.countP_map]
  rfl

/-- CONSERVATION. What leaves branch `i`, followed by what it holds in the end, is what it held, followed by what
entered, whatever goes to the other branches. -/
theorem thread_ilElement_line (e : Encoder) (i : Fin 12) (l : List (Byte × Nat)) :
    branchBytes i ((thread ilElement e l).1.zip (l.map Prod.snd)) ++ (thread ilElement e l).2.fifo.line i =
      e.fifo.line i ++ branchBytes i l := by
  induction l generalizing e with
  | nil => exact (List.append_nil _).symm
  | cons x l ih =>
    obtain ⟨b, p⟩ := x
    rw [thread_cons, List.map_cons, List.zip_cons_cons]
    by_cases h : branchOf p = i
    · have visit : (ilElement e (b, p)).1 :: (ilElement e (b, p)).2.fifo.line i = e.fifo.line i ++ [b] :=
        h ▸ e.fifo.visit_line (branchOf p) b
      rw [branchBytes_cons_self _ _ h, branchBytes_cons_self _ _ h, List.cons_append, ih, ← List.cons_append, visit,
        List.append_assoc, List.singleton_append]
    · have visit : (ilElement e (b, p)).2.fifo.line i = e.fifo.line i :=
        e.fifo.visit_line_other (branchOf p) i b (Ne.symm h)
      rw [branchBytes_cons_other _ _ h, branchBytes_cons_other _ _ h, ih, visit]

/-- As many visits to branch `i` as it has slots replace all it holds. -/
theorem thread_ilElement_lap (e : Encoder) (l : List (Byte × Nat)) (h : (branchBytes i l).length = 17 * i.val) :
    (thread ilElement e l).2.fifo.line i = branchBytes i l := by
  have lengths : (branchBytes i ((thread ilElement e l).1.zip (l.map Prod.snd))).length = (e.fifo.line i).length := by
    rw [branchBytes_length, List.map_snd_zip (by simp), ← branchBytes_length, h, Fifos.line_length]
  exact (List.append_inj (thread_ilElement_line e i l) lengths).2

end Visits

/-! ### IL_BYTE operations in order -/

/-- The operand of an IL_BYTE as an element of INTERLEAVE. -/
def byteAt (v : Fin 204 × Byte) : Byte × Nat := (v.2, v.1.val)

theorem runs_byteAt (n : Config.NumType) :
    RunsElement n (fun v : Fin 204 × Byte => .ilByte v.1 v.2) (fun e v => ilElement e (byteAt v)) .byte :=
  ⟨fun _ _ run _ => whenRun_run run, fun _ _ => rfl⟩

theorem branchBytes_byteAt_length (i : Fin 12) (l : List (Fin 204 × Byte)) :
    (branchBytes i (l.map byteAt)).length = (l.filter fun v => v.1.val % 12 == i.val).length := by
  rw [branchBytes_length, List.map_map, List.countP_map, ← List.countP_eq_length_filter]
  refine List.countP_congr fun v _ => ?_
  rw [beq_iff_eq]
  exact decide_eq_true_iff.trans Fin.ext_iff

/-- Settles O35: after one lap of visits the queue holds what they wrote, with `b` at its head. -/
theorem ilByteReturnsOneLapLater : Obligations.IlByteReturnsOneLapLater := by
  intro s p q b c between run _ sameBranch lap
  obtain ⟨u, ops, -⟩ := (runs_byteAt s.num).runOps_map ((p, b) :: between ++ [(q, c)]) s run rfl
  rw [← thread_map, List.map_append (f := byteAt), thread_append] at ops
  have first : branchBytes (branchOf p) (((p, b) :: between).map byteAt) =
      b :: branchBytes (branchOf p) (between.map byteAt) := branchBytes_cons_self b _ rfl
  have held := thread_ilElement_lap s.enc (i := branchOf p) (((p, b) :: between).map byteAt) (by
    rw [first, List.length_cons, branchBytes_byteAt_length]
    exact lap)
  generalize thread ilElement s.enc (((p, b) :: between).map byteAt) = visited at ops held
  have branch : branchOf q = branchOf p := Fin.ext sameBranch
  have returned := visited.2.fifo.visit_line (branchOf p) c
  rw [held, first, ← branch] at returned
  have out : (visited.2.fifo.visit (branchOf q) c).1 = b := (List.cons.inj returned).1
  refine ⟨visited.1.map .byte, u, ?_⟩
  simpa [thread_cons, ilElement, byteAt, out] using ops

/-! ## A stream of packets -/

/-- INTERLEAVE on a packet, as a function on the CORE. -/
def interleavePacket (e : Encoder) (rs : Packet 204) : List Byte × Encoder := interleave e rs.toList

theorem interleavePacket_changesOnly (e : Encoder) (rs : Packet 204) :
    ChangesOnly [.fifo] e (interleavePacket e rs).2 :=
  interleave_changesOnly e (by simp) rs.toList

theorem runs_interleave (n : Config.NumType) : RunsElement n Instr.interleave interleavePacket .bytes :=
  ⟨fun _ _ run _ => whenRun_run run, fun e rs => (interleavePacket_changesOnly e rs).mode⟩

/-- Where only the delay lines may change, the rest of the CORE is as before. -/
theorem ChangesOnly.eq_interleaver {e e' : Encoder} (h : ChangesOnly [.fifo] e e') :
    e' = { e with fifo := e'.fifo } := by
  obtain ⟨h1, h2, h3, h4, h5, h6, h7, r1, r2, r3, -, r5, r6, r7⟩ := h
  cases e; cases e'
  simp_all

/-! ### The cursors (R197) -/

theorem thread_interleavePacket_cursor (e : Encoder) (packets : List (Packet 204)) (i : Fin 12) (h : i ≠ 0) :
    (thread interleavePacket e packets).2.fifo.cursor i = (e.fifo.cursor i + 17 * packets.length) % (17 * i.val) := by
  induction packets generalizing e with
  | nil => exact (Nat.mod_eq_of_lt (e.fifo.cursor_lt i h)).symm
  | cons rs packets ih =>
    rw [thread_cons, ih, interleavePacket, interleave_cursor e _ rs.length_toList i h, Nat.mod_add_mod,
      List.length_cons, Nat.mul_succ, Nat.add_assoc, Nat.add_comm 17]

/-- 27720 is the least common multiple of the branch numbers 1 to 11. -/
theorem branch_dvd_27720 (i : Fin 12) (h : i ≠ 0) : i.val ∣ 27720 := by
  revert i; decide

/-- Settles O37: each packet moves each cursor on by 17. -/
theorem cursorsFollowThePacketCount : Obligations.CursorsFollowThePacketCount := by
  intro s packets run start
  obtain ⟨u, ops, core, -⟩ := (runs_interleave s.num).runOps_map packets s run rfl
  refine ⟨_, u, ops, fun i h => ?_⟩
  have law : u.enc.fifo.cursor i = (17 * packets.length) % (17 * i.val) := by
    rw [core, thread_interleavePacket_cursor s.enc packets i h, start, Nat.zero_add]
  have cycle : u.enc.fifo.cursor i = 17 * (packets.length % i.val) := by rw [law, Nat.mul_mod_mul_left]
  refine ⟨law, cycle, fun whole => ?_⟩
  have laps : i.val ∣ packets.length := (branch_dvd_27720 i h).trans (Nat.dvd_of_mod_eq_zero whole)
  rw [cycle, Nat.mod_eq_zero_of_dvd laps, Nat.mul_zero]

/-! ### The delay (R196) -/

/-- The positions of a packet on branch `i`, in order (R192). -/
def positionsOn (i : Fin 12) : List Nat := (List.range 204).filter (branchOf · = i)

/-- The bytes of a packet on branch `i`, in order. -/
def onBranch (i : Fin 12) (bs : List Byte) : List Byte := (positionsOn i).map (bs.getD · 0x00#8)

theorem onBranch_length (i : Fin 12) (bs : List Byte) : (onBranch i bs).length = 17 := by
  rw [onBranch, List.length_map, positionsOn, ← List.countP_eq_length_filter, positions_on_branch]

/-- Packets with the same bytes on a branch agree at each of its positions. -/
theorem getD_eq_of_onBranch_eq {as bs : List Byte} {p : Nat} (h : p < 204)
    (same : onBranch (branchOf p) as = onBranch (branchOf p) bs) : as.getD p 0x00#8 = bs.getD p 0x00#8 :=
  List.map_inj_left.mp same p (by simp [positionsOn, h])

theorem branchBytes_zipIdx (i : Fin 12) {bs : List Byte} (h : bs.length = 204) :
    branchBytes i bs.zipIdx = onBranch i bs := by
  have indexed : bs.zipIdx = (List.range 204).map fun p => (bs.getD p 0x00#8, p) := by
    apply List.ext_getElem
    · simp [h]
    · intro k inside _
      simp only [List.length_zipIdx] at inside
      simp [inside]
  rw [branchBytes, indexed, List.filter_map, List.map_map]
  rfl

theorem interleavePacket_length (e : Encoder) (rs : Packet 204) : (interleavePacket e rs).1.length = 204 := by
  rw [interleavePacket, interleave_length, rs.length_toList]

/-- Conservation for a packet: what leaves branch `i` and what it holds in the end. -/
theorem interleavePacket_line (e : Encoder) (rs : Packet 204) (i : Fin 12) :
    onBranch i (interleavePacket e rs).1 ++ (interleavePacket e rs).2.fifo.line i =
      e.fifo.line i ++ onBranch i rs.toList := by
  have positions : (interleavePacket e rs).1.zip (rs.toList.zipIdx.map Prod.snd) =
      (interleavePacket e rs).1.zipIdx := by
    rw [List.zipIdx_map_snd, rs.length_toList, ← interleavePacket_length e rs, ← List.zipIdx_eq_zip_range']
  have law := thread_ilElement_line e i rs.toList.zipIdx
  rw [← interleave_eq_thread] at law
  rw [← branchBytes_zipIdx i (interleavePacket_length e rs), ← branchBytes_zipIdx i rs.length_toList, ← positions]
  exact law

/-- A branch that holds the bytes of the packets `window` returns those of each packet in turn, and then those of the
packets that entered after them. -/
theorem thread_interleavePacket_onBranch (e : Encoder) (i : Fin 12) (window packets : List (Packet 204))
    (h : e.fifo.line i = window.flatMap fun rs => onBranch i rs.toList) :
    (thread interleavePacket e packets).1.map (onBranch i) =
      ((window ++ packets).take packets.length).map fun rs => onBranch i rs.toList := by
  induction packets generalizing e window with
  | nil => simp
  | cons rs packets ih =>
    obtain ⟨head, window', shift⟩ : ∃ head window', window ++ [rs] = head :: window' :=
      List.exists_cons_of_ne_nil (by simp)
    have law : onBranch i (interleavePacket e rs).1 ++ (interleavePacket e rs).2.fifo.line i =
        onBranch i head.toList ++ window'.flatMap fun rs => onBranch i rs.toList := by
      rw [interleavePacket_line, h, ← List.flatMap_cons (f := fun rs : Packet 204 => onBranch i rs.toList), ← shift,
        List.flatMap_append, List.flatMap_singleton]
    obtain ⟨out, held⟩ := List.append_inj law (by rw [onBranch_length, onBranch_length])
    have stream : window ++ rs :: packets = head :: (window' ++ packets) := by
      rw [← List.cons_append, ← shift, List.append_assoc, List.singleton_append]
    rw [thread_cons, List.map_cons, out, ih _ window' held, stream]
    rfl

/-- What empty delay lines show in place of a packet before the first of the stream (R198). -/
def blankPacket : Packet 204 := Vector.replicate 204 0x00#8

/-- The packets whose bytes branch `i` returns, in order: first `i` blank ones (R196, R198). -/
def delayed (i : Fin 12) (packets : List (Packet 204)) : List (Packet 204) :=
  List.replicate i.val blankPacket ++ packets

theorem blankPacket_getD (p : Nat) : blankPacket.toList.getD p 0x00#8 = 0x00#8 := by
  rw [blankPacket, Vector.toList_replicate, List.getD_eq_getElem?_getD, List.getElem?_getD_replicate_default_eq]

theorem onBranch_blank (i : Fin 12) : onBranch i blankPacket.toList = List.replicate 17 0x00#8 := by
  rw [← onBranch_length i blankPacket.toList, List.eq_replicate_iff]
  refine ⟨rfl, fun b mem => ?_⟩
  obtain ⟨p, -, rfl⟩ := List.mem_map.mp mem
  exact blankPacket_getD p

/-- Empty delay lines hold `i` blank packets on branch `i`. -/
theorem zero_line_eq_blank (i : Fin 12) :
    Fifos.zero.line i = (List.replicate i.val blankPacket).flatMap fun rs => onBranch i rs.toList := by
  rw [Fifos.zero_line, List.flatMap_replicate, onBranch_blank, List.flatten_replicate_replicate, Nat.mul_comm]

theorem getD_delayed (i : Fin 12) (packets : List (Packet 204)) (n : Nat) :
    (delayed i packets).getD n blankPacket =
      if i.val ≤ n then packets.getD (n - i.val) blankPacket else blankPacket := by
  split
  · rename_i h
    rw [delayed, List.getD_append_right _ _ _ _ (by simpa using h), List.length_replicate]
  · rename_i h
    rw [delayed, List.getD_append _ _ _ _ (by simpa using h), List.getD_replicate _ (by omega)]

theorem interleavedPacket_getD (packets : List (Packet 204)) (n : Nat) {p : Nat} (h : p < 204) :
    (interleavedPacket packets n).getD p 0x00#8 =
      ((delayed (branchOf p) packets).getD n blankPacket).toList.getD p 0x00#8 := by
  have element : (interleavedPacket packets n).getD p 0x00#8 =
      if p % 12 ≤ n then (packets.getD (n - p % 12) blankPacket)[p] else 0x00#8 := by
    rw [interleavedPacket, List.getD_eq_getElem _ _ (by simpa using h), List.getElem_map, List.getElem_finRange]
    rfl
  have delay : (branchOf p).val = p % 12 := rfl
  rw [element, getD_delayed, delay]
  by_cases entered : p % 12 ≤ n
  · rw [if_pos entered, if_pos entered, List.getD_eq_getElem (Vector.toList _) _ (by simpa using h),
      Vector.getElem_toList]
  · rw [if_neg entered, if_neg entered, blankPacket_getD]

theorem thread_interleavePacket_length (e : Encoder) (packets : List (Packet 204)) :
    ∀ out ∈ (thread interleavePacket e packets).1, out.length = 204 := by
  induction packets generalizing e with
  | nil => simp
  | cons rs packets ih =>
    rw [thread_cons, List.forall_mem_cons]
    exact ⟨interleavePacket_length e rs, ih _⟩

/-- From empty delay lines branch `i` returns the bytes of the packet `i` packets back. -/
theorem onBranch_interleaved (e : Encoder) (packets : List (Packet 204)) (empty : e.fifo = Fifos.zero) (i : Fin 12)
    {n : Nat} (h : n < (thread interleavePacket e packets).1.length) :
    onBranch i (thread interleavePacket e packets).1[n] =
      onBranch i ((delayed i packets).getD n blankPacket).toList := by
  have stream := thread_interleavePacket_onBranch e i _ packets (empty ▸ zero_line_eq_blank i)
  have packet := List.getElem_of_eq stream (i := n) (by simpa using h)
  rw [List.getElem_map, List.getElem_map, List.getElem_take] at packet
  rw [packet, delayed, List.getD_eq_getElem]

/-- Branch by branch, the stream is that of the delay law. -/
theorem thread_interleavePacket_fst (e : Encoder) (packets : List (Packet 204)) (empty : e.fifo = Fifos.zero) :
    (thread interleavePacket e packets).1 = (List.range packets.length).map (interleavedPacket packets) := by
  refine List.ext_getElem (by simp) fun n hn _ => ?_
  have length := thread_interleavePacket_length e packets _ (List.getElem_mem hn)
  rw [List.getElem_map, List.getElem_range]
  refine List.ext_getElem (by simp [length, interleavedPacket]) fun p hp hp' => ?_
  have inside : p < 204 := length ▸ hp
  rw [← List.getD_eq_getElem _ 0x00#8 hp, ← List.getD_eq_getElem _ 0x00#8 hp',
    interleavedPacket_getD packets n inside]
  exact getD_eq_of_onBranch_eq inside (onBranch_interleaved e packets empty _ hn)

/-- Settles O36: the stream of the delay law, by the queue of each branch, which holds blank packets at first. -/
theorem interleaverDelaysByBranch : Obligations.InterleaverDelaysByBranch := by
  intro s packets run empty
  obtain ⟨u, ops, core, -, bnd, -⟩ := (runs_interleave s.num).runOps_map packets s run rfl
  have frame := thread_changesOnly s.enc interleavePacket_changesOnly packets
  rw [← core] at frame
  refine ⟨u, ?_, frame.eq_interleaver, bnd⟩
  rw [ops, thread_interleavePacket_fst s.enc packets empty, List.map_map]
  rfl

end Sys2Proof.Machine
end

section
/-! PROOFS. The convolutional encoder (44_conv_encoder): CC_BIT is one shift and two sums of the register (R211, R212),
and the other operations are CC_BIT over the bits in order (R213): their laws are laws of the shift and of the sums. -/

namespace Sys2Proof.Machine

open Sys2Proof.Safety

/-! ## The register and its sums (R211, R212) -/

section Register

variable (st : BitVec 7) (b : Bool)

theorem ccShift_eq : ccShift st b = (st <<< 1) ||| (if b then 1#7 else 0#7) := by cases b <;> rfl

/-- The bit shifted in is the newest. -/
theorem ccShift_newest : (ccShift st b).getLsbD 0 = b := by simp [ccShift]

/-- The bits held are one step older. -/
theorem ccShift_older {k : Nat} (h : k < 6) : (ccShift st b).getLsbD (k + 1) = st.getLsbD k := by
  have inside : k + 1 < 7 := by omega
  simp [ccShift, inside, BitVec.getLsbD_eq_getElem (show k < 7 by omega)]

/-- The masks select the terms of the two sums. -/
theorem ccOutputs_eq : ccOutputs st =
    (st.getLsbD 0 ^^ st.getLsbD 1 ^^ st.getLsbD 2 ^^ st.getLsbD 3 ^^ st.getLsbD 6,
      st.getLsbD 0 ^^ st.getLsbD 2 ^^ st.getLsbD 3 ^^ st.getLsbD 5 ^^ st.getLsbD 6) := by
  simp [ccOutputs, parity, ccMask1, ccMask2]

/-- The code bits of a step, read from the register before it. -/
theorem ccOutputs_ccShift : ccOutputs (ccShift st b) =
    (b ^^ st.getLsbD 0 ^^ st.getLsbD 1 ^^ st.getLsbD 2 ^^ st.getLsbD 5,
      b ^^ st.getLsbD 1 ^^ st.getLsbD 2 ^^ st.getLsbD 4 ^^ st.getLsbD 5) := by
  simp only [ccOutputs_eq, ccShift_newest, ccShift_older, Nat.reduceLT]

end Register

/-- Settles O38: the outputs are sums of the new register, whose bits are `b` and the old ones a step older. -/
theorem ccBitShiftsThenSums : Obligations.CcBitShiftsThenSums := by
  intro b s run
  have step : exec (.ccBit b) s = completes s { s.enc with ccState := ccShift s.enc.ccState b }
      (.dibit (ccOutputs (ccShift s.enc.ccState b)).1 (ccOutputs (ccShift s.enc.ccState b)).2) := whenRun_run run
  rw [step, ccOutputs_ccShift, ccShift_eq]

/-! ### The register the other way round (R218) -/

theorem reversed_getLsbD (st : BitVec 7) {k : Nat} (h : k < 7) : (reversed st).getLsbD k = st.getLsbD (6 - k) := by
  rw [reversed, BitVec.getLsbD_ofBoolListBE]
  interval_cases k <;> rfl

theorem reversed_and (x y : BitVec 7) : reversed (x &&& y) = reversed x &&& reversed y := by
  refine BitVec.eq_of_getLsbD_eq fun k h => ?_
  rw [BitVec.getLsbD_and, reversed_getLsbD _ h, reversed_getLsbD _ h, reversed_getLsbD _ h, BitVec.getLsbD_and]

theorem parity_reversed (x : BitVec 7) : parity (reversed x) = parity x := by
  simp only [parity, reversed_getLsbD, Nat.reduceLT, Nat.reduceSub, Bool.xor_comm, Bool.xor_assoc]

/-- A parity under a mask is that of the reversed register under the reversed mask. -/
theorem parity_and_reversed (x mask : BitVec 7) : parity (reversed x &&& reversed mask) = parity (x &&& mask) := by
  rw [← reversed_and, parity_reversed]

theorem reversed_ccMask1 : reversed ccMask1 = 0x79#7 := rfl

theorem reversed_ccMask2 : reversed ccMask2 = 0x5B#7 := rfl

/-- Reversed, the register shifts right and takes the new bit at the top. -/
theorem reversed_ccShift (st : BitVec 7) (b : Bool) :
    reversed (ccShift st b) = (reversed st >>> 1) ||| (if b then 0x40#7 else 0x00#7) := by
  refine BitVec.eq_of_getLsbD_eq fun k h => ?_
  have top : (if b then 0x40#7 else 0x00#7).getLsbD k = (decide (k = 6) && b) := by
    cases b <;> interval_cases k <;> rfl
  rw [reversed_getLsbD _ h, BitVec.getLsbD_or, BitVec.getLsbD_ushiftRight, top]
  by_cases newest : k = 6
  · rw [newest, ccShift_newest, BitVec.getLsbD_of_ge _ _ (by omega)]
    rfl
  · have place : 6 - k = 6 - (1 + k) + 1 := by omega
    rw [reversed_getLsbD _ (by omega), place, ccShift_older st b (by omega), decide_eq_false newest, Bool.false_and,
      Bool.or_false]

/-- Settles O42: reversing the register reverses its shift and both masks, and keeps the parities. -/
theorem reversedRegisterGivesTheSameBits : Obligations.ReversedRegisterGivesTheSameBits := by
  intro b s run
  refine ⟨ccShift s.enc.ccState b, reversed_ccShift _ b, ?_⟩
  rw [← reversed_ccMask1, ← reversed_ccMask2, parity_and_reversed, parity_and_reversed]
  exact whenRun_run run

/-! ## The bits of a byte sequence in order (R210, R213) -/

section Stream

variable (e : Encoder)

/-- CC_BIT on every bit in order: the code bits, and the CORE after them. -/
def ccBits (bits : List Bool) : List Bool × Encoder :=
  (flattenPairs (thread ccBit e bits).1, (thread ccBit e bits).2)

theorem ccBits_cons (b : Bool) (bits : List Bool) : (ccBits e (b :: bits)).1 =
    (ccOutputs (ccShift e.ccState b)).1 :: (ccOutputs (ccShift e.ccState b)).2 :: (ccBits (ccBit e b).2 bits).1 := rfl

theorem ccBits_append (bits bits' : List Bool) : ccBits e (bits ++ bits') =
    ((ccBits e bits).1 ++ (ccBits (ccBits e bits).2 bits').1, (ccBits (ccBits e bits).2 bits').2) := by
  simp only [ccBits, thread_append, flattenPairs, List.flatMap_append]

theorem ccBits_snd (bits : List Bool) : (ccBits e bits).2 = { e with ccState := bits.foldl ccShift e.ccState } := by
  induction bits generalizing e with
  | nil => rfl
  | cons b bits ih => exact ih (ccBit e b).2

theorem ccByte_eq_ccBits (b : Byte) : ccByte e b = ccBits e (bitsOfByte b) := rfl

/-- CONV_ENCODE takes the bits of all its bytes as one sequence. -/
theorem convEncode_eq_ccBits (il : List Byte) : convEncode e il = ccBits e (il.flatMap bitsOfByte) := by
  induction il generalizing e with
  | nil => rfl
  | cons b il ih =>
    rw [List.flatMap_cons, ccBits_append, ← ccByte_eq_ccBits, ← ih]
    rfl

end Stream

section Exec

variable {s : State} (run : s.enc.mode = .run)
include run

theorem exec_ccByte (b : Byte) :
    exec (.ccByte b) s = completes s (ccByte s.enc b).2 (.codeBits (ccByte s.enc b).1) := whenRun_run run

theorem exec_convEncode (il : List Byte) :
    exec (.convEncode il) s = completes s (convEncode s.enc il).2 (.codeBits (convEncode s.enc il).1) := whenRun_run run

end Exec

/-! ## The generator sums (R211, R213) -/

/-- The register holds the latest seven of the input bits `past`, which stand latest first. -/
def Remembers (st : BitVec 7) (past : List Bool) : Prop := ∀ k < 7, past.getD k false = st.getLsbD k

theorem remembers_pastBits (st : BitVec 7) : Remembers st (pastBits st) := by
  intro k h
  simp [pastBits, h]

theorem Remembers.ccShift {st : BitVec 7} {past : List Bool} (h : Remembers st past) (b : Bool) :
    Remembers (ccShift st b) (b :: past)
  | 0, _ => (ccShift_newest st b).symm
  | k + 1, inside => (h k (by omega)).trans (ccShift_older st b (by omega)).symm

/-- Bits shifted in go before the past ones. -/
theorem Remembers.foldl_ccShift (bits : List Bool) {st : BitVec 7} {past : List Bool} (h : Remembers st past) :
    Remembers (bits.foldl Machine.ccShift st) (bits.reverse ++ past) := by
  induction bits generalizing st past with
  | nil => exact h
  | cons b bits ih => simpa using ih (h.ccShift b)

/-- A register that holds the past bits gives the sums over them. -/
theorem ccBits_eq_generatorSums (bits : List Bool) {e : Encoder} {past : List Bool} (h : Remembers e.ccState past) :
    (ccBits e bits).1 = generatorSums past bits := by
  induction bits generalizing e past with
  | nil => rfl
  | cons b bits ih =>
    rw [ccBits_cons, ccOutputs_ccShift, ih (h.ccShift b), generatorSums, h 0 (by omega), h 1 (by omega),
      h 2 (by omega), h 4 (by omega), h 5 (by omega)]

/-- Eight shifts leave nothing of the old register: it holds the low seven bits of the byte. -/
theorem foldl_ccShift_byte (st : BitVec 7) (b : Byte) : (bitsOfByte b).foldl ccShift st = b.setWidth 7 := by
  refine BitVec.eq_of_getLsbD_eq fun k h => ?_
  have latest : (bitsOfByte b).reverse = (List.range 8).map b.getLsbD := rfl
  have inside : k < 8 := by omega
  rw [← (remembers_pastBits st).foldl_ccShift (bitsOfByte b) k h, latest,
    List.getD_append _ _ _ _ (by simpa using inside)]
  simp [h, inside]

theorem foldl_ccShift_bytes (st : BitVec 7) (il : List Byte) :
    (il.flatMap bitsOfByte).foldl ccShift st = (il.getLast?.map fun b => b.setWidth 7).getD st := by
  induction il using List.reverseRecOn with
  | nil => rfl
  | append_singleton il b _ =>
    rw [List.flatMap_append, List.flatMap_singleton, List.foldl_append, foldl_ccShift_byte, List.getLast?_concat]
    rfl

/-- Settles O39: both operations are CC_BIT over the bits in order, from a register that holds the past bits. -/
theorem convEncodeIsTheGeneratorSums : Obligations.ConvEncodeIsTheGeneratorSums := by
  intro s run
  have sums (bits : List Bool) : (ccBits s.enc bits).1 = generatorSums (pastBits s.enc.ccState) bits :=
    ccBits_eq_generatorSums bits (remembers_pastBits _)
  refine ⟨fun b => ?_, fun il => ?_⟩
  · rw [exec_ccByte run, ccByte_eq_ccBits, ccBits_snd, foldl_ccShift_byte, sums]
  · rw [exec_convEncode run, convEncode_eq_ccBits, ccBits_snd, foldl_ccShift_bytes, sums]

/-! ## Continuity (R214) -/

theorem convEncode_append (e : Encoder) (a b : List Byte) : convEncode e (a ++ b) =
    ((convEncode e a).1 ++ (convEncode (convEncode e a).2 b).1, (convEncode (convEncode e a).2 b).2) := by
  simp only [convEncode, thread_append, List.flatten_append]

/-- Settles O41: RUN goes on after the first packet, and the second starts from the register the first left. -/
theorem convEncodeIsContinuous : Obligations.ConvEncodeIsContinuous := by
  intro a b s run
  have running : (convEncode s.enc a).2.mode = .run :=
    (convEncode_changesOnly (w := [.ccState]) s.enc (by simp) a).mode.trans run
  have both := convEncode_append s.enc a b
  exact ⟨_, _, _, _, _, exec_convEncode run a, rfl, exec_convEncode running b, rfl, exec_convEncode run (a ++ b),
    congrArg (Result.codeBits ·.1) both, congrArg (·.2) both⟩

/-! ## Linearity (R216) -/

theorem ccShift_xor (st st' : BitVec 7) (b b' : Bool) :
    ccShift (st ^^^ st') (b ^^ b') = ccShift st b ^^^ ccShift st' b' := by
  refine BitVec.eq_of_getLsbD_eq fun k h => ?_
  cases k with
  | zero => rw [BitVec.getLsbD_xor, ccShift_newest, ccShift_newest, ccShift_newest]
  | succ k =>
    have older (st : BitVec 7) (b : Bool) := ccShift_older st b (show k < 6 by omega)
    rw [BitVec.getLsbD_xor, older, older, older, BitVec.getLsbD_xor]

theorem ccOutputs_xor (st st' : BitVec 7) : ccOutputs (st ^^^ st') =
    ((ccOutputs st).1 ^^ (ccOutputs st').1, (ccOutputs st).2 ^^ (ccOutputs st').2) := by
  simp only [ccOutputs_eq, BitVec.getLsbD_xor, Prod.mk.injEq]
  simp only [Bool.xor_assoc, Bool.xor_left_comm, and_self]

/-- The code of a sum of bit sequences, from a sum of registers. -/
theorem ccBits_xor {e e' e'' : Encoder} (h : e''.ccState = e.ccState ^^^ e'.ccState) (x y : List Bool) :
    (ccBits e'' (List.zipWith Bool.xor x y)).1 = List.zipWith Bool.xor (ccBits e x).1 (ccBits e' y).1 := by
  induction x generalizing e e' e'' y with
  | nil => rfl
  | cons b x ih =>
    cases y with
    | nil => exact List.zipWith_nil_right.symm
    | cons b' y =>
      have shift : ccShift e''.ccState (b ^^ b') = ccShift e.ccState b ^^^ ccShift e'.ccState b' := by
        rw [h, ccShift_xor]
      have rest := ih (e := (ccBit e b).2) (e' := (ccBit e' b').2) (e'' := (ccBit e'' (b ^^ b')).2) shift y
      simp only [List.zipWith_cons_cons, ccBits_cons, shift, ccOutputs_xor, rest]

theorem bitsOfByte_xor (b b' : Byte) :
    bitsOfByte (b ^^^ b') = List.zipWith Bool.xor (bitsOfByte b) (bitsOfByte b') := by
  simp only [bitsOfByte, List.zipWith_map, List.zipWith_self, BitVec.getLsbD_xor]

theorem flatMap_bitsOfByte_xor (a b : List Byte) : (xorBytes a b).flatMap bitsOfByte =
    List.zipWith Bool.xor (a.flatMap bitsOfByte) (b.flatMap bitsOfByte) := by
  induction a generalizing b with
  | nil => rfl
  | cons x a ih =>
    cases b with
    | nil => exact List.zipWith_nil_right.symm
    | cons y b =>
      rw [List.flatMap_cons, List.flatMap_cons, List.zipWith_append (by rfl), ← bitsOfByte_xor, ← ih]
      rfl

/-- CONV_ENCODE of a XOR, from a start register that is a XOR. -/
theorem convEncode_xor {e e' e'' : Encoder} (h : e''.ccState = e.ccState ^^^ e'.ccState) (a b : List Byte) :
    (convEncode e'' (xorBytes a b)).1 = List.zipWith Bool.xor (convEncode e a).1 (convEncode e' b).1 := by
  simp only [convEncode_eq_ccBits, flatMap_bitsOfByte_xor, ccBits_xor h]

/-- Settles O40: the start register is its own XOR with 0. -/
theorem convEncodeIsLinear : Obligations.ConvEncodeIsLinear := by
  intro a b s z runS runZ zero _
  have start : s.enc.ccState = s.enc.ccState ^^^ z.enc.ccState := by rw [zero, BitVec.xor_zero]
  exact ⟨_, _, _, _, _, exec_convEncode runS a, rfl, exec_convEncode runZ b, rfl, exec_convEncode runS (xorBytes a b),
    congrArg Result.codeBits (convEncode_xor start a b)⟩

end Sys2Proof.Machine
end

section
/-! PROOFS. The QPSK mapper (45_qpsk_mapper): the constellation table is two signs (R231), and the amplitude is a value
near `1/√2` that rounding to binary floating point moves by at most one part in `2^p` (R233). -/

namespace Sys2Proof.Machine

open Sys2Proof.Safety

/-! ## The signs (R230, R231) -/

/-- The four rows of the table. -/
theorem mapDibit_eq (f : Config.NumType) (b1 b0 : Bool) :
    mapDibit (NumType.arith f) b1 b0 = ⟨signed b1 (ampIn f), signed b0 (ampIn f)⟩ := by
  cases b1 <;> cases b0 <;> rfl

theorem realValue_signed (b : Bool) (a : Num) : realValue (signed b a) = (if b then -1 else 1) * realValue a := by
  cases b <;> simp [signed]

/-- Settles O43: both operations complete with the rows of the table, which are the two signs. -/
theorem mapperSignsFollowTheBits : Obligations.MapperSignsFollowTheBits := by
  intro s run
  refine ⟨fun b1 b0 => ?_, fun cb => ?_, fun b => realValue_signed b _⟩
  · rw [← mapDibit_eq]
    exact whenRun_run run
  · simp only [← mapDibit_eq]
    exact whenRun_run run

/-! ## Rounding to binary floating point (R8, log entry 1) -/

theorem powerOfTwo_eq_zpow (n : Int) : powerOfTwo n = (2 : Rat) ^ n := by
  cases n with
  | ofNat n => simp [powerOfTwo]
  | negSucc n => simp [powerOfTwo, zpow_negSucc, Rat.mkRat_eq_div]

theorem powerOfTwo_pos (n : Int) : 0 < powerOfTwo n := by
  rw [powerOfTwo_eq_zpow]
  positivity

theorem powerOfTwo_one : powerOfTwo 1 = 2 := rfl

theorem powerOfTwo_add (m n : Int) : powerOfTwo (m + n) = powerOfTwo m * powerOfTwo n := by
  simp only [powerOfTwo_eq_zpow, zpow_add₀ (two_ne_zero' Rat)]

/-- The lengths of the numerator and of the denominator bound a number from below. -/
theorem powerOfTwo_log2_sub_le {x : Rat} (pos : 0 < x) :
    powerOfTwo ((x.num.natAbs.log2 : Int) - x.den.log2 - 1) ≤ x := by
  have numPos : 0 < x.num := Rat.num_pos.mpr pos
  have num : (2 : Rat) ^ x.num.natAbs.log2 ≤ x.num := by
    have least : 2 ^ x.num.natAbs.log2 ≤ x.num.natAbs := Nat.log2_self_le (by omega)
    have cast : ((x.num.natAbs : Int) : Rat) = x.num := by rw [Int.natAbs_of_nonneg numPos.le]
    rw [← cast]
    exact_mod_cast least
  have den : (x.den : Rat) ≤ 2 ^ (x.den.log2 + 1) := by exact_mod_cast Nat.lt_log2_self.le
  calc powerOfTwo ((x.num.natAbs.log2 : Int) - x.den.log2 - 1)
      = 2 ^ x.num.natAbs.log2 / 2 ^ (x.den.log2 + 1) := by
        rw [powerOfTwo_eq_zpow, sub_sub, zpow_sub₀ (two_ne_zero' Rat)]
        norm_cast
    _ ≤ x.num / x.den := by gcongr
    _ = x := Rat.num_div_den x

theorem powerOfTwo_floorLogTwo_le {x : Rat} (pos : 0 < x) : powerOfTwo (floorLogTwo x) ≤ x := by
  unfold floorLogTwo
  dsimp only
  split
  · exact powerOfTwo_log2_sub_le pos
  · next above => exact not_lt.mp above

/-- Rounding to nearest moves a number by at most a half, whichever neighbour a tie goes to. -/
theorem abs_roundNearest_sub_le (even : Bool) (v : Rat) : |(roundNearest even v : Rat) - v| ≤ 1 / 2 := by
  have below : (v.floor : Rat) ≤ v := Rat.floor_le v
  have above : v < v.floor + 1 := mod_cast Rat.lt_floor_add_one v
  unfold roundNearest
  dsimp only
  rw [abs_le]
  split_ifs <;> push_cast <;> constructor <;> linarith

/-- Half a step of `p` significant digits is at most `2^(-p)` of the number, or of the least normal number below which
the steps shrink no more. -/
theorem abs_roundBinary_sub_le (p : Nat) (low : Int) (x : Rat) :
    |roundBinary p low x - x| ≤ max |x| (powerOfTwo low) * powerOfTwo (-p) := by
  unfold roundBinary
  split
  · next zero =>
    have scale := (powerOfTwo_pos low).le
    have step := (powerOfTwo_pos (-p)).le
    simp only [zero, sub_self, abs_zero]
    positivity
  · next nonzero =>
    dsimp only
    set exponent := max (floorLogTwo |x|) low with exponent_def
    set unit := powerOfTwo (exponent - ((p : Int) - 1)) with unit_def
    have unitPos : 0 < unit := powerOfTwo_pos _
    have scale : powerOfTwo exponent ≤ max |x| (powerOfTwo low) := by
      rcases max_choice (floorLogTwo |x|) low with own | least
      · rw [exponent_def, own]
        exact le_max_of_le_left (powerOfTwo_floorLogTwo_le (abs_pos.mpr nonzero))
      · rw [exponent_def, least]
        exact le_max_right _ _
    have halfUnit : 1 / 2 * unit = powerOfTwo exponent * powerOfTwo (-p) := by
      have shares : exponent - ((p : Int) - 1) = exponent + -p + 1 := by ring
      rw [unit_def, shares, powerOfTwo_add, powerOfTwo_add, powerOfTwo_one]
      ring
    calc |roundNearest true (x / unit) * unit - x|
        = |roundNearest true (x / unit) - x / unit| * unit := by
          rw [← abs_of_pos unitPos, ← abs_mul, abs_of_pos unitPos, sub_mul, div_mul_cancel₀ x unitPos.ne']
      _ ≤ 1 / 2 * unit := by gcongr; exact abs_roundNearest_sub_le true _
      _ = powerOfTwo exponent * powerOfTwo (-p) := halfUnit
      _ ≤ max |x| (powerOfTwo low) * powerOfTwo (-p) := by
          gcongr
          exact (powerOfTwo_pos _).le

theorem powerOfTwo_le_powerOfTwo {m n : Int} (h : m ≤ n) : powerOfTwo m ≤ powerOfTwo n := by
  simpa only [powerOfTwo_eq_zpow] using zpow_le_zpow_right₀ one_le_two h

/-- A format with 24 or more digits holds every number up to 1 to a millionth, and no such number is past its range. -/
theorem abs_inRange_roundBinary_sub_le (f : Config.NumType) {p : Nat} {low top : Int} {x : Rat} (digits : 24 ≤ p)
    (least : low ≤ 0) (greatest : 1 ≤ top) (small : |x| ≤ 1) :
    |inRange f top x (roundBinary p low x) - x| ≤ 1 / 1000000 := by
  have step : powerOfTwo (-p) ≤ 1 / 1000000 :=
    (powerOfTwo_le_powerOfTwo (show -(p : Int) ≤ -24 by omega)).trans (by norm_num [powerOfTwo_eq_zpow])
  have moved : |roundBinary p low x - x| ≤ 1 / 1000000 :=
    calc |roundBinary p low x - x| ≤ max |x| (powerOfTwo low) * powerOfTwo (-p) := abs_roundBinary_sub_le p low x
      _ ≤ 1 * (1 / 1000000) := by
          gcongr
          · exact (powerOfTwo_pos _).le
          · exact max_le small (powerOfTwo_le_powerOfTwo least)
      _ = 1 / 1000000 := one_mul _
  have finite : |roundBinary p low x| < powerOfTwo top :=
    calc |roundBinary p low x| ≤ |roundBinary p low x - x| + |x| := by
          simpa using abs_add_le (roundBinary p low x - x) x
      _ < powerOfTwo 1 := by rw [powerOfTwo_one]; linarith
      _ ≤ powerOfTwo top := powerOfTwo_le_powerOfTwo greatest
  rwa [inRange, if_pos finite]

/-! ## The amplitude (R233) -/

theorem realValue_rootHalf_eq_one_div : realValue rootHalf = 1 / Real.sqrt 2 :=
  realValue_rootHalf.trans Real.sqrt_div_self'

/-- All that is known of the amplitude of a numeric type other than the reals (log entry 4). -/
theorem ampIn_valueNear {f : Config.NumType} (h : f ≠ .exact) : ValueNear f (1 / Real.sqrt 2) (ampIn f) := by
  have stored (f : Config.NumType) : ValueNear f (1 / Real.sqrt 2) (storedAmp f) :=
    realValue_rootHalf_eq_one_div ▸ (@answer Num (ValueNear f (realValue rootHalf)) (ampNear_exists f)).2
  cases f with
  | exact => exact absurd rfl h
  | binary32 => exact stored .binary32
  | binary64 => exact stored .binary64
  | other k => exact stored (.other k)

theorem cast_storedPrecision : (storedPrecision : ℝ) = 1 / 1000000 := by norm_num [storedPrecision]

/-- A number as near `1/√2` as the amplitude's lies within the unit interval. -/
theorem abs_le_one_of_near {q : Rat} (near : |(q : ℝ) - 1 / Real.sqrt 2| ≤ storedPrecision) : |q| ≤ 1 := by
  have half : 1 / Real.sqrt 2 ≤ 3 / 4 := by
    rw [← Real.sqrt_div_self', div_le_iff₀ two_pos]
    exact Real.sqrt_le_iff.mpr (by norm_num)
  have pos : 0 < 1 / Real.sqrt 2 := by positivity
  rw [cast_storedPrecision, abs_le] at near
  have real : |(q : ℝ)| ≤ 1 := abs_le.mpr ⟨by linarith, by linarith⟩
  exact_mod_cast real

/-- Where a type rounds every rational number up to 1 to a millionth, its amplitude is within twice that of `1/√2`. -/
theorem ampIn_near {f : Config.NumType} {r : Rat → Rat} (inexact : f ≠ .exact)
    (round : ∀ q, NumType.round f (.rat q) = .rat (r q)) (moved : ∀ q, |q| ≤ 1 → |r q - q| ≤ 1 / 1000000) :
    |realValue (ampIn f) - 1 / Real.sqrt 2| ≤ 2 / 10 ^ 6 := by
  obtain ⟨q, near, amp⟩ := ampIn_valueNear inexact
  have rounded : |(r q : ℝ) - q| ≤ 1 / 1000000 := by
    simpa using (Rat.cast_le (K := ℝ)).mpr (moved q (abs_le_one_of_near near))
  rw [cast_storedPrecision] at near
  rw [amp, round, realValue_rat]
  calc |(r q : ℝ) - 1 / Real.sqrt 2| ≤ |(r q : ℝ) - q| + |q - 1 / Real.sqrt 2| := abs_sub_le _ _ _
    _ ≤ 1 / 1000000 + 1 / 1000000 := add_le_add rounded near
    _ = 2 / 10 ^ 6 := by norm_num

/-- Settles O44: the stored amplitude is a rounded number within a millionth of `1/√2`, and binary32 and binary64 move
that number by less than another millionth. -/
theorem amplitudeIsNearOneOverRootTwo : Obligations.AmplitudeIsNearOneOverRootTwo := by
  refine ⟨realValue_rootHalf_eq_one_div, ?_, ?_, fun k => ?_⟩
  · exact ampIn_near (r := binary32Of) nofun (fun _ => rfl) fun q small =>
      abs_inRange_roundBinary_sub_le .binary32 (by norm_num) (by norm_num) (by norm_num) small
  · exact ampIn_near (r := binary64Of) nofun (fun _ => rfl) fun q small =>
      abs_inRange_roundBinary_sub_le .binary64 (by norm_num) (by norm_num) (by norm_num) small
  · obtain ⟨q, near, amp⟩ := ampIn_valueNear (f := .other k) nofun
    exact ⟨q, near.trans (by norm_num [cast_storedPrecision]), amp⟩

end Sys2Proof.Machine
end

section
/-! PROOFS. The pulse shaper (46_rrc_shaper): RRC_SYMBOL's polyphase sums over any arithmetic and over the reals (R244 to
R246), the closed form of the samples of RRC_SHAPE in any arithmetic, and what it says over the reals (R249, R251), of
an impulse (R248) and of the two lanes (R247). -/

namespace Sys2Proof.Machine

open Sys2Proof.Safety

/-! ## The operations (R240, R244) -/

section Exec

variable {s : State} (run : s.enc.mode = .run)
include run

theorem exec_rrcSymbol (x : Sample) : exec (.rrcSymbol x) s =
    completes s (rrcSymbol (NumType.arith s.num) s.enc x).2 (.samples (rrcSymbol (NumType.arith s.num) s.enc x).1) :=
  whenRun_run run

theorem exec_rrcShape (pt : List Sample) : exec (.rrcShape pt) s =
    completes s (rrcShape (NumType.arith s.num) s.enc pt).2 (.samples (rrcShape (NumType.arith s.num) s.enc pt).1) :=
  whenRun_run run

end Exec

theorem runs_rrcSymbol (f : Config.NumType) : RunsElement f Instr.rrcSymbol (rrcSymbol (NumType.arith f)) .samples :=
  ⟨fun _ _ run hn => hn ▸ whenRun_run run, fun _ _ => rfl⟩

/-- On a history of full length the push discards its oldest entry. -/
theorem pushSymbol_eq_dropLast {K : Type} {c : Cfg} {hist : List (SampleOf K)} (x : SampleOf K)
    (full : hist.length = histLength c.n c.u) : pushSymbol c hist x = x :: hist.dropLast := by
  rw [pushSymbol, List.dropLast_eq_take, full]

/-- As far as a history reaches, the push puts the symbol in front of it. -/
theorem take_pushSymbol {K : Type} (c : Cfg) (hist : List (SampleOf K)) (x : SampleOf K) :
    (pushSymbol c hist x).take (histLength c.n c.u) = (x :: hist).take (histLength c.n c.u) := by
  cases h : histLength c.n c.u <;> simp [pushSymbol, h]

/-- A history filled with one symbol stays so when that symbol is pushed. -/
theorem pushSymbol_replicate {K : Type} {c : Cfg} (pos : 1 ≤ histLength c.n c.u) (x : SampleOf K) :
    pushSymbol c (List.replicate (histLength c.n c.u) x) x = List.replicate (histLength c.n c.u) x := by
  rw [pushSymbol, List.take_replicate, Nat.min_eq_left (Nat.sub_le _ _), ← List.replicate_succ, Nat.sub_add_cancel pos]

/-- RRC_SHAPE pushes its points in order, and changes the history only. -/
theorem rrcShape_snd (A : Arith Num) (e : Encoder) (pt : List Sample) :
    (rrcShape A e pt).2 = { e with hist := pt.foldl (pushSymbol e.cfg) e.hist } := by
  change (thread (rrcSymbol A) e pt).2 = _
  induction pt generalizing e with
  | nil => rfl
  | cons x pt ih => rw [thread_cons, ih]; rfl

theorem rrcShape_append (A : Arith Num) (e : Encoder) (a b : List Sample) : rrcShape A e (a ++ b) =
    ((rrcShape A e a).1 ++ (rrcShape A (rrcShape A e a).2 b).1, (rrcShape A (rrcShape A e a).2 b).2) := by
  simp only [rrcShape, thread_append, List.flatten_append]

/-- Settles O46: RRC_SHAPE threads RRC_SYMBOL through its points, and a thread goes on where the one before it ended. -/
theorem rrcShapeIsRrcSymbolInOrder : Obligations.RrcShapeIsRrcSymbolInOrder := by
  intro xs ys s run
  obtain ⟨u, ops, core, running, -, num⟩ := (runs_rrcSymbol s.num).runOps_map xs s run rfl
  have after : u.enc = (rrcShape (NumType.arith s.num) s.enc xs).2 := core
  have both := rrcShape_append (NumType.arith s.num) s.enc xs ys
  rw [← after, ← num] at both
  refine ⟨_, _, u, _, _, ops, ?_, ?_, ?_, exec_rrcShape running ys, rfl, exec_rrcShape run (xs ++ ys), ?_, ?_⟩
  · rw [after]
    exact exec_rrcShape run xs
  · rw [after, rrcShape_snd]
  · rw [Nat.mul_comm]
    exact rrcShape_length s.enc (NumType.arith s.num) xs
  · rw [← num]
    exact congrArg (Result.samples ·.1) both
  · rw [← num]
    exact congrArg (·.2) both

/-! ## The sum of a phase in any arithmetic (R244 to R246) -/

@[simp] theorem arith_zero (f : Config.NumType) : (NumType.arith f).zero = .rat 0 := rfl

@[simp] theorem arith_add (f : Config.NumType) (a b : Num) :
    (NumType.arith f).add a b = NumType.round f (exactAdd a b) := rfl

@[simp] theorem arith_mul (f : Config.NumType) (a b : Num) :
    (NumType.arith f).mul a b = NumType.round f (exactMul a b) := rfl

@[simp] theorem round_exact (e : Num) : NumType.round .exact e = e := rfl

section LaneSum

variable {K : Type} (A : Arith K) (taps : List K) (n u : Nat)

@[simp] theorem laneSum_nil (idx : Nat) (acc : K) : laneSum A taps n u idx acc [] = acc := rfl

theorem laneSum_cons (idx : Nat) (acc h : K) (hs : List K) : laneSum A taps n u idx acc (h :: hs) =
    laneSum A taps n u (idx + u) (if idx < n then A.add acc (A.mul h (taps.getD idx A.zero)) else acc) hs := by
  simp [laneSum, tapInRange]

theorem laneSum_append (idx : Nat) (acc : K) (l l' : List K) : laneSum A taps n u idx acc (l ++ l') =
    laneSum A taps n u (idx + l.length * u) (laneSum A taps n u idx acc l) l' := by
  induction l generalizing idx acc with
  | nil => simp
  | cons h hs ih =>
    rw [List.cons_append, laneSum_cons, laneSum_cons, ih, List.length_cons, Nat.succ_mul, Nat.add_assoc,
      Nat.add_comm u]

/-- Entries whose tap index is past the last tap add nothing. -/
theorem laneSum_of_le {idx : Nat} (past : n ≤ idx) (acc : K) (l : List K) : laneSum A taps n u idx acc l = acc := by
  induction l generalizing idx with
  | nil => rfl
  | cons h hs ih => rw [laneSum_cons, if_neg (by omega), ih (by omega)]

/-- The entries that count are the first `H`, which reach the last tap. -/
theorem laneSum_take (acc : K) {len idx : Nat} (reach : n ≤ idx + len * u) (l : List K) :
    laneSum A taps n u idx acc (l.take len) = laneSum A taps n u idx acc l := by
  by_cases short : l.length ≤ len
  · rw [List.take_of_length_le short]
  · conv_rhs => rw [← List.take_append_drop len l]
    rw [laneSum_append, List.length_take, Nat.min_eq_left (by omega), laneSum_of_le A taps n u reach]

theorem laneSum_eq_foldl (idx : Nat) (acc : K) (lane : List K) : laneSum A taps n u idx acc lane =
    (List.range lane.length).foldl
      (fun acc k =>
        if k * u + idx < n then A.add acc (A.mul (lane.getD k A.zero) (taps.getD (k * u + idx) A.zero)) else acc)
      acc := by
  induction lane generalizing idx acc with
  | nil => rfl
  | cons h hs ih =>
    rw [laneSum_cons, ih, List.length_cons, List.range_succ_eq_map, List.foldl_cons, List.foldl_map]
    simp [Nat.succ_mul, Nat.add_assoc, Nat.add_comm u]

theorem laneSum_eq_phaseSumIn (j : Nat) (lane : List K) :
    laneSum A taps n u j A.zero lane = phaseSumIn A taps n u j lane := laneSum_eq_foldl A taps n u j A.zero lane

end LaneSum

/-- `H` symbols reach the last tap (R29). -/
theorem le_histLength_mul (n : Nat) {u : Nat} (pos : 0 < u) : n ≤ histLength n u * u := by
  have h := Nat.lt_div_mul_add (a := n + u - 1) pos
  rw [histLength]
  omega

/-- Histories that agree as far as a history reaches give the same sample. -/
theorem phaseSample_congr {K : Type} (A : Arith K) (taps : List K) {c : Cfg} (pos : 0 < c.u) {l l' : List (SampleOf K)}
    (same : l.take (histLength c.n c.u) = l'.take (histLength c.n c.u)) (j : Nat) :
    phaseSample A taps c l j = phaseSample A taps c l' j := by
  have reach : c.n ≤ j + histLength c.n c.u * c.u := (le_histLength_mul c.n pos).trans (Nat.le_add_left _ _)
  have lane (f : SampleOf K → K) :
      laneSum A taps c.n c.u j A.zero (l.map f) = laneSum A taps c.n c.u j A.zero (l'.map f) := by
    rw [← laneSum_take _ _ _ _ _ reach (l.map f), ← laneSum_take _ _ _ _ _ reach (l'.map f), ← List.map_take,
      ← List.map_take, same]
  exact congrArg₂ SampleOf.mk (lane SampleOf.i) (lane SampleOf.q)

/-! ## The closed form of the samples, in any arithmetic -/

/-- The history that symbol `m` of `xs` is filtered with, its end not cut off: the symbols so far, newest first, and the
history they came on. -/
def pastAt {α : Type} (hist xs : List α) (m : Nat) : List α := (xs.take (m + 1)).reverse ++ hist

theorem map_pastAt {α β : Type} (f : α → β) (hist xs : List α) (m : Nat) :
    (pastAt hist xs m).map f = pastAt (hist.map f) (xs.map f) m := by
  simp [pastAt, List.map_take]

/-- Symbols that follow a push see the symbol pushed. -/
theorem phaseSample_pastAt_push {K : Type} (A : Arith K) (taps : List K) {c : Cfg} (pos : 0 < c.u)
    (hist xs : List (SampleOf K)) (x : SampleOf K) (m j : Nat) :
    phaseSample A taps c (pastAt (pushSymbol c hist x) xs m) j =
      phaseSample A taps c (pastAt hist (x :: xs) (m + 1)) j := by
  refine phaseSample_congr A taps pos ?_ j
  have cut := congrArg (List.take (histLength c.n c.u - (xs.take (m + 1)).reverse.length)) (take_pushSymbol c hist x)
  rw [List.take_take, List.take_take, Nat.min_eq_left (Nat.sub_le _ _)] at cut
  simpa [pastAt, List.take_append] using cut

/-- What RRC_SYMBOL on each of `xs` emits. -/
theorem thread_rrcSymbol_fst (A : Arith Num) (e : Encoder) (xs : List Sample) : (thread (rrcSymbol A) e xs).1 =
    (List.range xs.length).map fun m =>
      (List.range e.cfg.u).map (phaseSample A e.taps e.cfg (pastAt e.hist xs m)) := by
  induction xs generalizing e with
  | nil => rfl
  | cons x xs ih =>
    rw [thread_cons, ih, List.length_cons, List.range_succ_eq_map, List.map_cons, List.map_map]
    refine congrArg₂ List.cons (List.map_congr_left fun j hj => ?_)
      (List.map_congr_left fun m _ => List.map_congr_left fun j hj => ?_)
    · exact phaseSample_congr A e.taps (Nat.zero_lt_of_lt (List.mem_range.mp hj)) (take_pushSymbol e.cfg e.hist x) j
    · exact phaseSample_pastAt_push A e.taps (Nat.zero_lt_of_lt (List.mem_range.mp hj)) e.hist xs x m j

/-- Blocks of `u` values are one list, whose value `n` is value `n mod u` of block `n / u`. -/
theorem flatten_range_blocks {α : Type} (f : Nat → Nat → α) (blocks u : Nat) :
    ((List.range blocks).map fun m => (List.range u).map (f m)).flatten =
      (List.range (blocks * u)).map fun n => f (n / u) (n % u) := by
  induction blocks with
  | zero => simp
  | succ m ih =>
    rw [List.range_succ, List.map_append, List.flatten_append, ih, Nat.succ_mul, List.range_add, List.map_append,
      List.map_map]
    congr 1
    simp only [List.map_cons, List.map_nil, List.flatten_cons, List.flatten_nil, List.append_nil]
    refine List.map_congr_left fun j hj => ?_
    have small : j < u := List.mem_range.mp hj
    simp [Nat.mul_comm m u, Nat.mul_add_div (Nat.zero_lt_of_lt small), Nat.div_eq_of_lt small, Nat.mod_eq_of_lt small]

/-- THE CLOSED FORM of RRC_SHAPE in any arithmetic: sample `n` is phase `n mod U` of symbol `n / U`. -/
theorem rrcShape_fst (A : Arith Num) (e : Encoder) (xs : List Sample) : (rrcShape A e xs).1 =
    (List.range (xs.length * e.cfg.u)).map fun n =>
      phaseSample A e.taps e.cfg (pastAt e.hist xs (n / e.cfg.u)) (n % e.cfg.u) := by
  rw [rrcShape, thread_rrcSymbol_fst]
  exact flatten_range_blocks _ _ _

theorem getD_rrcShape (A : Arith Num) (e : Encoder) (xs : List Sample) (d : Sample) {n : Nat}
    (h : n < xs.length * e.cfg.u) :
    (rrcShape A e xs).1.getD n d = phaseSample A e.taps e.cfg (pastAt e.hist xs (n / e.cfg.u)) (n % e.cfg.u) := by
  simp [rrcShape_fst, List.getD_eq_getElem?_getD, h]

/-! ## The lanes (R247) -/

/-- The samples of one lane, from that lane of the history and of the symbols. -/
def laneSamples {K : Type} (A : Arith K) (taps : List K) (c : Cfg) (hist xs : List K) : List K :=
  (List.range (xs.length * c.u)).map fun n => laneSum A taps c.n c.u (n % c.u) A.zero (pastAt hist xs (n / c.u))

/-- A lane that each phase filters by itself, RRC_SHAPE shapes by itself. -/
theorem map_rrcShape (A : Arith Num) (lane : Sample → Num)
    (alone : ∀ taps (c : Cfg) hist j,
      lane (phaseSample A taps c hist j) = laneSum A taps c.n c.u j A.zero (hist.map lane))
    (e : Encoder) (xs : List Sample) :
    (rrcShape A e xs).1.map lane = laneSamples A e.taps e.cfg (e.hist.map lane) (xs.map lane) := by
  rw [rrcShape_fst, laneSamples, List.map_map, List.length_map]
  refine List.map_congr_left fun n _ => ?_
  rw [Function.comp_apply, alone, map_pastAt]

/-- Settles O49: a lane of the samples is a function of that lane of the history and of the symbols. -/
theorem lanesAreIndependent : Obligations.LanesAreIndependent := by
  intro xs ys s t runS runT num cfg taps
  refine ⟨_, _, _, _, exec_rrcShape runS xs, rfl, exec_rrcShape runT ys, rfl, fun hist sym => ?_, fun hist sym => ?_⟩
  · rw [map_rrcShape _ SampleOf.i fun _ _ _ _ => rfl, map_rrcShape _ SampleOf.i fun _ _ _ _ => rfl, num, cfg, taps,
      hist, sym]
  · rw [map_rrcShape _ SampleOf.q fun _ _ _ _ => rfl, map_rrcShape _ SampleOf.q fun _ _ _ _ => rfl, num, cfg, taps,
      hist, sym]

/-! ## Over the reals (R246, log entry 1) -/

section Reals

variable (taps : List ℝ) (n u j : Nat)

theorem phaseSum_cons (x : ℝ) (lane : List ℝ) : phaseSum taps n u j (x :: lane) =
    (if j < n then x * taps.getD j 0 else 0) + phaseSum taps n u (j + u) lane := by
  rw [phaseSum, List.length_cons, Finset.sum_range_succ', add_comm]
  simp [phaseSum, Nat.succ_mul, Nat.add_assoc, Nat.add_comm u]

theorem laneSum_realArith (acc : ℝ) (lane : List ℝ) :
    laneSum realArith taps n u j acc lane = acc + phaseSum taps n u j lane := by
  induction lane generalizing j acc with
  | nil => simp [phaseSum]
  | cons x lane ih =>
    rw [laneSum_cons, ih, phaseSum_cons]
    split_ifs
    · exact add_assoc acc _ _
    · rw [zero_add]

/-- A history that is zero from some entry on ends there. -/
theorem phaseSum_append_zeros (lane : List ℝ) (k : Nat) :
    phaseSum taps n u j (lane ++ List.replicate k 0) = phaseSum taps n u j lane := by
  induction lane generalizing j with
  | nil => simp [phaseSum]
  | cons x lane ih => rw [List.cons_append, phaseSum_cons, phaseSum_cons, ih]

theorem phaseSum_replicate (len : Nat) (x : ℝ) :
    phaseSum taps n u j (List.replicate len x) = x * phaseSum taps n u j (List.replicate len 1) := by
  induction len generalizing j with
  | zero => simp [phaseSum]
  | succ len ih =>
    rw [List.replicate_succ, List.replicate_succ, phaseSum_cons, phaseSum_cons, ih]
    split_ifs <;> ring

end Reals

theorem getD_map_realValue (l : List Num) (k : Nat) : (l.map realValue).getD k 0 = realValue (l.getD k (.rat 0)) := by
  have zero : realValue (.rat 0) = 0 := Rat.cast_zero
  rw [← zero, List.getD_map]

/-- In the exact type the sum of a lane is that of the real numbers. -/
theorem realValue_laneSum (taps : List Num) (n u idx : Nat) (acc : Num) (lane : List Num) :
    realValue (laneSum (NumType.arith .exact) taps n u idx acc lane) =
      laneSum realArith (taps.map realValue) n u idx (realValue acc) (lane.map realValue) := by
  induction lane generalizing idx acc with
  | nil => rfl
  | cons h hs ih =>
    have tap : realValue (taps.getD idx (.rat 0)) = (taps.map realValue).getD idx 0 := (getD_map_realValue taps idx).symm
    rw [List.map_cons, laneSum_cons, laneSum_cons, ih, apply_ite realValue, arith_add, arith_mul, arith_zero, round_exact,
      round_exact, realValue_exactAdd, realValue_exactMul, tap]
    rfl

/-- The sum of a phase in the exact type is the sum over the reals. -/
theorem realValue_phase (taps : List Num) (n u j : Nat) (lane : List Num) :
    realValue (laneSum (NumType.arith .exact) taps n u j (.rat 0) lane) =
      phaseSum (taps.map realValue) n u j (lane.map realValue) := by
  rw [realValue_laneSum, laneSum_realArith, realValue_rat, Rat.cast_zero, zero_add]

theorem realSample_phaseSample (taps : List Num) (c : Cfg) (hist : List Sample) (j : Nat) :
    realSample (phaseSample (NumType.arith .exact) taps c hist j) =
      ⟨phaseSum (taps.map realValue) c.n c.u j (hist.map fun x => realValue x.i),
        phaseSum (taps.map realValue) c.n c.u j (hist.map fun x => realValue x.q)⟩ := by
  have lane (f : Sample → Num) := realValue_phase taps c.n c.u j (hist.map f)
  simp only [List.map_map] at lane
  exact congrArg₂ SampleOf.mk (lane SampleOf.i) (lane SampleOf.q)

theorem phaseSample_realArith (taps : List ℝ) (c : Cfg) (hist : List Sample) (j : Nat) :
    phaseSample realArith taps c (hist.map realSample) j =
      ⟨phaseSum taps c.n c.u j (hist.map fun x => realValue x.i),
        phaseSum taps c.n c.u j (hist.map fun x => realValue x.q)⟩ := by
  have lane (l : List ℝ) := (laneSum_realArith taps c.n c.u j 0 l).trans (zero_add _)
  rw [phaseSample, List.map_map, List.map_map]
  exact congrArg₂ SampleOf.mk (lane _) (lane _)

/-- Settles O45: the recursion of the model is the fold over `k`, and its real value the sum over the reals. -/
theorem rrcSymbolPushesThenSums : Obligations.RrcSymbolPushesThenSums := by
  intro x s run _ _ full
  refine ⟨?_, fun exactType j lane => ?_, fun exactType j => ?_⟩
  · simp only [exec_rrcSymbol run, rrcSymbol_fst, rrcSymbol_snd, pushSymbol_eq_dropLast x full,
      ← laneSum_eq_phaseSumIn]
    rfl
  · rw [exactType, ← laneSum_eq_phaseSumIn]
    exact realValue_phase s.enc.taps s.enc.cfg.n s.enc.cfg.u j lane
  · rw [exactType, realSample_phaseSample, phaseSample_realArith]

/-! ## The convolution (R249) -/

/-- The symbols up to symbol `n / U`, newest first, filtered by phase `n mod U`: the term of tap `k·U + n mod U` is that of
symbol `n / U − k`. -/
theorem phaseSum_eq_convolutionAt (taps : List ℝ) (len u n : Nat) (xs : List ℝ) (h : n < xs.length * u) :
    phaseSum taps len u (n % u) (xs.take (n / u + 1)).reverse = convolutionAt taps len u n xs := by
  have pos : 0 < u := Nat.pos_of_mul_pos_left (Nat.zero_lt_of_lt h)
  have last : n / u < xs.length := (Nat.div_lt_iff_lt_mul pos).mpr h
  have parts : n = n / u * u + n % u := (Nat.div_add_mod' n u).symm
  have later (m : Nat) (hm : m ∉ Finset.range (n / u + 1)) : ¬(m * u ≤ n ∧ n - m * u < len) := fun ⟨le, _⟩ =>
    hm (Finset.mem_range_succ_iff.mpr ((Nat.le_div_iff_mul_le pos).mpr le))
  rw [convolutionAt, ← Finset.sum_subset (Finset.range_subset_range.mpr last) fun m _ hm => if_neg (later m hm),
    ← Finset.sum_range_reflect, phaseSum, List.length_reverse, List.length_take, Nat.min_eq_left last]
  refine Finset.sum_congr rfl fun k hk => ?_
  have hk : k ≤ n / u := Finset.mem_range_succ_iff.mp hk
  have symbol : (xs.take (n / u + 1)).reverse.getD k 0 = xs.getD (n / u - k) 0 := by
    rw [List.getD_reverse k (by rw [List.length_take, Nat.min_eq_left last]; omega), List.length_take,
      Nat.min_eq_left last, Nat.succ_sub_one, List.getD_eq_getElem?_getD, List.getElem?_take_of_lt (by omega),
      List.getD_eq_getElem?_getD]
  have product : (n / u - k) * u + k * u = n / u * u := by rw [← Nat.add_mul, Nat.sub_add_cancel hk]
  have index : n - (n / u - k) * u = k * u + n % u := by omega
  have before : (n / u - k) * u ≤ n := by omega
  rw [Nat.succ_sub_one, index, symbol]
  simp only [before, true_and]

/-- Settles O47: the zero history adds nothing to the closed form, and what is left is the convolution. -/
theorem shaperIsAConvolution : Obligations.ShaperIsAConvolution := by
  intro xs s _ run exactType empty
  refine ⟨_, _, exec_rrcShape run xs, rfl, (rrcShape_length s.enc _ xs).trans (Nat.mul_comm _ _), fun n h => ?_⟩
  have lane (f : Sample → ℝ) (zero : f Sample.zero = 0) :
      phaseSum (s.enc.taps.map realValue) s.enc.cfg.n s.enc.cfg.u (n % s.enc.cfg.u)
          ((pastAt s.enc.hist xs (n / s.enc.cfg.u)).map f) =
        convolutionAt (s.enc.taps.map realValue) s.enc.cfg.n s.enc.cfg.u n (xs.map f) := by
    rw [map_pastAt, empty, List.map_replicate, zero, pastAt, phaseSum_append_zeros]
    exact phaseSum_eq_convolutionAt _ _ _ _ _ (by rwa [List.length_map])
  rw [getD_rrcShape _ _ _ _ h, exactType, realSample_phaseSample, lane _ Rat.cast_zero, lane _ Rat.cast_zero]

/-! ## A constant history (R251) -/

/-- The taps of phase 0 are those whose index is a multiple of `U` (R141). -/
theorem phaseSum_zero_ones (taps : List Num) {u : Nat} (pos : 0 < u) :
    phaseSum (taps.map realValue) taps.length u 0 (List.replicate (histLength taps.length u) 1) =
      phaseZeroTotal u taps := by
  have reach := le_histLength_mul taps.length pos
  rw [phaseSum, phaseZeroTotal, List.length_replicate, ← Finset.sum_filter, ← Finset.sum_filter]
  refine Finset.sum_nbij' (· * u) (· / u) ?_ ?_ ?_ ?_ ?_
  · intro k hk
    obtain ⟨-, inside⟩ : k < histLength taps.length u ∧ k * u < taps.length := by simpa using hk
    simpa using inside
  · intro m hm
    obtain ⟨inside, multiple⟩ : m < taps.length ∧ m % u = 0 := by simpa using hm
    have back : m / u * u = m := Nat.div_mul_cancel (Nat.dvd_of_mod_eq_zero multiple)
    have block : m / u < histLength taps.length u := (Nat.div_lt_iff_lt_mul pos).mpr (inside.trans_le reach)
    simpa [back, block] using inside
  · exact fun k _ => Nat.mul_div_cancel k pos
  · intro m hm
    exact Nat.div_mul_cancel (Nat.dvd_of_mod_eq_zero (Finset.mem_filter.mp hm).2)
  · intro k hk
    have inside : k < histLength taps.length u := Finset.mem_range.mp (Finset.mem_filter.mp hk).1
    rw [List.getD_replicate _ inside, one_mul, getD_map_realValue, Nat.add_zero]

/-- What phase `j` makes of a history of ones: its gain (R251). -/
noncomputable def phaseGain (taps : List Num) (c : Cfg) (j : Nat) : ℝ :=
  phaseSum (taps.map realValue) c.n c.u j (List.replicate (histLength c.n c.u) 1)

theorem realSample_phaseSample_replicate (taps : List Num) (c : Cfg) (x : Sample) (j : Nat) :
    realSample (phaseSample (NumType.arith .exact) taps c (List.replicate (histLength c.n c.u) x) j) =
      ⟨realValue x.i * phaseGain taps c j, realValue x.q * phaseGain taps c j⟩ := by
  have lane (v : ℝ) := phaseSum_replicate (taps.map realValue) c.n c.u j (histLength c.n c.u) v
  rw [realSample_phaseSample, List.map_replicate, List.map_replicate, lane (realValue x.i), lane (realValue x.q),
    phaseGain]

/-- The gain of phase 0 is the sum the taps are normalised by. -/
theorem phaseGain_zero {taps : List Num} {c : Cfg} (count : taps.length = c.n) (pos : 0 < c.u) :
    phaseGain taps c 0 = phaseZeroTotal c.u taps := by
  rw [phaseGain, ← count, phaseSum_zero_ones taps pos]

/-- Settles O50: the push leaves the history as it is, and the symbol is a common factor of each phase's sum. -/
theorem steadyStateGain : Obligations.SteadyStateGain := by
  intro x s ⟨sound, _⟩ run exactType constant
  obtain ⟨legal, -, -, -, count, normalised, -⟩ := sound run
  have pos : 0 < s.enc.cfg.u := legal.2.2.1
  have push : pushSymbol s.enc.cfg s.enc.hist x = s.enc.hist := by
    rw [constant, pushSymbol_replicate (histLength_pos legal)]
  have emitted {j : Nat} (h : j < s.enc.cfg.u) :
      realSample ((rrcSymbol (NumType.arith s.num) s.enc x).1.getD j Sample.zero) =
        ⟨realValue x.i * phaseGain s.enc.taps s.enc.cfg j, realValue x.q * phaseGain s.enc.taps s.enc.cfg j⟩ := by
    rw [← realSample_phaseSample_replicate, ← constant, ← exactType, rrcSymbol_fst, push]
    simp [List.getD_eq_getElem?_getD, h]
  refine ⟨phaseGain s.enc.taps s.enc.cfg, _, fun _ => rfl, (exec_rrcSymbol run x).trans ?_, by simp,
    fun j h => emitted h, fun nonzero => ?_⟩
  · rw [rrcSymbol_snd, push]
  · have unit : phaseGain s.enc.taps s.enc.cfg 0 = 1 :=
      (phaseGain_zero count pos).trans (normalised exactType nonzero)
    refine ⟨unit, (emitted pos).trans ?_⟩
    rw [unit, mul_one, mul_one, realSample]

/-! ## The impulse response (R248) -/

/-- Past the symbols `1, 0, 0, …` on a zero history lies a single 1. -/
theorem pastAt_impulse {α : Type} (one zero : α) {m k : Nat} (h : m ≤ k) (len : Nat) :
    pastAt (List.replicate len zero) (one :: List.replicate k zero) m =
      List.replicate m zero ++ one :: List.replicate len zero := by
  simp [pastAt, List.take_replicate, Nat.min_eq_left h]

@[simp] theorem exactAdd_zero (t : Num) : exactAdd t (.rat 0) = t := by
  cases t <;> simp [exactAdd, rational?]

@[simp] theorem zero_exactAdd (t : Num) : exactAdd (.rat 0) t = t := by
  cases t <;> simp [exactAdd, rational?]

@[simp] theorem zero_exactMul (t : Num) : exactMul (.rat 0) t = .rat 0 := by
  cases t <;> simp [exactMul, rational?]

@[simp] theorem one_exactMul (t : Num) : exactMul (.rat 1) t = t := by
  cases t <;> simp [exactMul, rational?]

section Impulse

variable {f : Config.NumType} (zero : NumType.round f (.rat 0) = .rat 0) (taps : List Num) (n u : Nat)
include zero

theorem laneSum_zeros {acc : Num} (value : NumType.round f acc = acc) (idx k : Nat) :
    laneSum (NumType.arith f) taps n u idx acc (List.replicate k (.rat 0)) = acc := by
  induction k generalizing idx with
  | zero => rfl
  | succ k ih =>
    rw [List.replicate_succ, laneSum_cons]
    simp [zero, value, ih]

/-- A single 1 among zeros picks its tap out of the table. -/
theorem laneSum_impulse (tapValue : ∀ t ∈ taps, NumType.round f t = t) (j m k : Nat) (count : taps.length = n) :
    laneSum (NumType.arith f) taps n u j (.rat 0) (List.replicate m (.rat 0) ++ .rat 1 :: List.replicate k (.rat 0)) =
      if m * u + j < n then taps.getD (m * u + j) (.rat 0) else .rat 0 := by
  rw [laneSum_append, laneSum_zeros zero taps n u zero, laneSum_cons, List.length_replicate, Nat.add_comm j]
  split_ifs with inside
  · have value : NumType.round f (taps.getD (m * u + j) (.rat 0)) = taps.getD (m * u + j) (.rat 0) :=
      tapValue _ (by
        rw [List.getD_eq_getElem _ _ (count ▸ inside)]
        exact List.getElem_mem _)
    rw [arith_add, arith_mul, arith_zero, one_exactMul, value, zero_exactAdd, value, laneSum_zeros zero taps n u value]
  · exact laneSum_zeros zero taps n u zero _ _

end Impulse

/-- Settles O48: the closed form at an impulse, lane by lane. -/
theorem impulseResponseIsTheTaps : Obligations.ImpulseResponseIsTheTaps := by
  intro k s ⟨sound, _⟩ run zero tapValue empty
  obtain ⟨-, -, -, -, count, -⟩ := sound run
  obtain ⟨u, ops, -⟩ :=
    (runs_rrcSymbol s.num).runOps_map (⟨.rat 1, .rat 0⟩ :: List.replicate k Sample.zero) s run rfl
  rw [List.map_cons, List.map_replicate, thread_rrcSymbol_fst, List.map_map, List.length_cons,
    List.length_replicate] at ops
  refine ⟨u, ops.trans (congrArg (fun rs => some (rs, u)) (List.map_congr_left fun m hm => ?_))⟩
  refine congrArg Result.samples (List.map_congr_left fun j _ => ?_)
  rw [empty, pastAt_impulse _ _ (Nat.lt_succ_iff.mp (List.mem_range.mp hm))]
  refine congrArg₂ SampleOf.mk ?_ ?_
  · have lane := laneSum_impulse zero s.enc.taps s.enc.cfg.n s.enc.cfg.u tapValue j m
      (histLength s.enc.cfg.n s.enc.cfg.u) count
    simpa [Sample.zero] using lane
  · have lane := laneSum_zeros zero s.enc.taps s.enc.cfg.n s.enc.cfg.u zero j
      (m + (1 + histLength s.enc.cfg.n s.enc.cfg.u))
    rw [List.replicate_add, List.replicate_add] at lane
    simpa [Sample.zero] using lane

end Sys2Proof.Machine
end

section
/-! PROOFS. One step of the machine (47_pipeline, section 1): the request decoded for the task whose turn it is, what
`settle` leaves after it, and which operations a mode admits (R265, R38). -/

namespace Sys2Proof.Machine

-- As in the tests: one proof after another, so that no further threads start, each of which reserves address space.
set_option Elab.async false

open Sys2Proof.Safety
open Host (Outcome)

/-! ## Admission (R38, R265) -/

section Admission

variable {i : Instr} {s : State}

theorem exec_not_run (h : s.enc.mode ≠ .run) (notInit : i.opId ≠ 0x00#8)
    (gated : i.opId.toNat < 0x30 ∨ 0x40 ≤ i.opId.toNat) : exec i s = .refused (.notAdmitted s.enc.mode) := by
  cases i with
  | init a => exact absurd rfl notInit
  | gfBuild => simp [Instr.opId] at gated
  | gfMul a b => simp [Instr.opId] at gated
  | rsgenBuild => simp [Instr.opId] at gated
  | prbsBuild src => simp [Instr.opId] at gated
  | rrcTapsBuild n m beta => simp [Instr.opId] at gated
  | _ => exact whenRun_not_run h

/-- INIT and the builders ask nothing of the mode. -/
theorem exec_ungated (free : i.opId = 0x00#8 ∨ 0x30 ≤ i.opId.toNat ∧ i.opId.toNat < 0x40) :
    ∃ u, exec i s = .next u := by
  cases i with
  | init a =>
    change ∃ u, execInit a s = .next u
    unfold execInit
    split <;> exact ⟨_, rfl⟩
  | gfBuild => exact ⟨_, rfl⟩
  | gfMul a b => exact ⟨_, rfl⟩
  | rsgenBuild => exact ⟨_, rfl⟩
  | prbsBuild src => exact ⟨_, rfl⟩
  | rrcTapsBuild n m beta =>
    change ∃ u, execRrcTapsBuild n m beta s = .next u
    unfold execRrcTapsBuild
    split <;> exact ⟨_, rfl⟩
  | _ => simp [Instr.opId] at free

end Admission

/-- Settles O14: each arm of `exec` is admitted in RUN only, or is INIT's or a builder's. -/
theorem admissionDependsOnTheMode : Obligations.AdmissionDependsOnTheMode := fun i _ =>
  ⟨exec_not_run, exec_of_run i, exec_ungated⟩

/-! ## The request that is served -/

section Serve

variable {s v : State} {t : Task} {i : Instr} {rest : List Byte} {r : Refusal}

/-- In the turn of a task that the token does not stop, a step is the service of its request. -/
theorem step_eq_serve (quiet : nextReport s = none) (turn : nextTask s = some t)
    (go : t = .consumer → s.bnd.token = false) : step s = serve t s := by
  unfold step
  rw [quiet]
  simp only [turn]
  cases t with
  | producer => rfl
  | consumer => simp [go rfl]

theorem serve_breach (fetched : fetch s t = .ok (i, rest)) (broken : breach s t i = some r) :
    serve t s = .refused r := by
  simp [serve, fetched, broken]

theorem serve_next (fetched : fetch s t = .ok (i, rest)) (kept : breach s t i = none) (run : exec i s = .next v) :
    serve t s = .next (settle t i rest v) := by
  simp [serve, fetched, kept, run]

theorem serve_refused (fetched : fetch s t = .ok (i, rest)) (kept : breach s t i = none) (run : exec i s = .refused r) :
    serve t s = .refused r := by
  simp [serve, fetched, kept, run]

end Serve

/-! ## The host's duties (R285; log entry 18) -/

section Duties

variable {u : State} {x : Sample}

theorem paysOwed_iff : paysOwed u x = true ↔ u.port.owed.head? = some x ∧
    (u.port.origins.head? = none ∨ u.port.origins.head? = some (.packet u.port.pushed)) := by
  unfold paysOwed
  split
  · rename_i k h
    simp only [h, Bool.and_eq_true, beq_iff_eq, reduceCtorEq, false_or, Option.some.injEq, Origin.packet.injEq]
    exact and_comm
  · rename_i h; simp [h]
  · rename_i h; simp [h]

theorem outOfTurn_iff : outOfTurn u x = true ↔
    ∃ k, u.port.origins.head? = some (.packet k) ∧ (k ≠ u.port.pushed ∨ u.port.owed.head? ≠ some x) := by
  unfold outOfTurn
  split
  · rename_i k h
    rw [Bool.not_eq_true', ← Bool.not_eq_true, paysOwed_iff, h]
    simp only [reduceCtorEq, false_or, Option.some.injEq, Origin.packet.injEq, exists_eq_left']
    tauto
  · rename_i h; simp [h]
  · rename_i h; simp [h]

theorem noteDuties_init (a : Config.InitArg) :
    noteDuties (.init a) u = { u with port := { u.port with dropped := [] } } := rfl

theorem noteDuties_pushPacket {ts : Packet 188} {l : List Sample} (h : u.port.result = .samples l) :
    noteDuties (.pushPacket ts) u = { u with port := { u.port with owed := u.port.owed ++ l } } := by
  simp [noteDuties, h]

/-- The first sample owed, pushed, is owed no more and counted. -/
theorem noteDuties_queuePush_pays (h : u.port.result = .none) (pays : paysOwed u x = true) :
    noteDuties (.queuePush x) u = { u with port := { u.port with
      origins := u.port.origins.tail, owed := u.port.owed.tail, pushed := u.port.pushed + 1 } } := by
  simp [noteDuties, h, pays]

theorem noteDuties_queuePush_other (h : u.port.result = .none) (other : paysOwed u x = false) :
    noteDuties (.queuePush x) u = { u with port := { u.port with origins := u.port.origins.tail } } := by
  simp [noteDuties, h, other]

/-- A push that has not happened changes no duty. -/
theorem noteDuties_queuePush_waits (h : u.port.result ≠ .none) : noteDuties (.queuePush x) u = u := by
  unfold noteDuties
  split <;> simp_all

theorem noteDuties_queuePop : noteDuties .queuePop u = u := rfl

theorem noteDuties_frameCheck {blk : Packet 188} {b : Byte} (h : u.port.outcome = .syncLoss b) :
    noteDuties (.frameCheck blk) u = { u with port := { u.port with dropped := blk :: u.port.dropped } } := by
  simp [noteDuties, h]

end Duties

/-! ## What `settle` leaves -/

section Settle

variable {t t' : Task} {i : Instr} {rest : List Byte} {u : State}

theorem State.setRequests_requests (s : State) (t : Task) : s.setRequests t (s.requests t) = s := by cases t <;> rfl

theorem State.requests_setRequests_other (s : State) (bs : List Byte) (h : t' ≠ t) :
    (s.setRequests t bs).requests t' = s.requests t' := by
  cases t <;> cases t' <;> first | rfl | exact absurd rfl h

theorem newRun_requests (i : Instr) (u : State) (t : Task) : (newRun i u).requests t = u.requests t := by
  cases t <;> simp [State.requests]

theorem noteDuties_requests (i : Instr) (u : State) (t : Task) : (noteDuties i u).requests t = u.requests t := by
  cases t <;> simp [State.requests]

/-- The requests task `t` has left after one that left the state `u`. -/
def requestsLeft (t : Task) (rest : List Byte) (u : State) : List Byte :=
  if t = .producer ∧ u.bnd.held = true then u.requests t else rest

/-- Both ways an operation can end, in one equation: only the requests left differ. -/
theorem settle_eq : settle t i rest u =
    turnTaken ((newRun i (noteDuties i u)).setRequests t (requestsLeft t rest u)) := by
  unfold settle requestsLeft
  split
  · rw [← noteDuties_requests i u t, ← newRun_requests i (noteDuties i u) t, State.setRequests_requests]
  · rfl

theorem turnTaken_requests (s : State) (t : Task) : (turnTaken s).requests t = s.requests t := by cases t <;> rfl

theorem settle_requests : (settle t i rest u).requests t = requestsLeft t rest u := by
  rw [settle_eq, turnTaken_requests, State.requests_setRequests]

theorem settle_requests_other (h : t' ≠ t) : (settle t i rest u).requests t' = u.requests t' := by
  rw [settle_eq, turnTaken_requests, State.requests_setRequests_other _ _ h, newRun_requests, noteDuties_requests]

theorem settle_owed : (settle t i rest u).port.owed = (newRun i (noteDuties i u)).port.owed := by simp [settle_eq]

theorem settle_pushed : (settle t i rest u).port.pushed = (newRun i (noteDuties i u)).port.pushed := by simp [settle_eq]

theorem settle_origins : (settle t i rest u).port.origins = (noteDuties i u).port.origins := by simp [settle_eq]

theorem settle_dropped : (settle t i rest u).port.dropped = (noteDuties i u).port.dropped := by simp [settle_eq]

/-- Only an INIT starts a new run. -/
theorem newRun_of_not_init (h : ∀ a, i ≠ .init a) : newRun i (noteDuties i u) = noteDuties i u :=
  newRun_eq_self _ _ (.inr (.inr h))

theorem settle_init_goes_on {a : Config.InitArg} (h : u.bnd.producerEnded = false ∨ u.port.outcome ≠ .none) :
    (settle t (.init a) rest u).port.owed = u.port.owed ∧
      (settle t (.init a) rest u).port.pushed = u.port.pushed := by
  rw [settle_owed, settle_pushed, newRun_eq_self _ _ (by simpa using h)]
  exact ⟨rfl, rfl⟩

theorem settle_init_starts {a : Config.InitArg} (ended : u.bnd.producerEnded = true) (ok : u.port.outcome = .none) :
    (settle t (.init a) rest u).bnd = { u.bnd with producerEnded := false } ∧
      (settle t (.init a) rest u).port.owed = [] ∧
      (settle t (.init a) rest u).port.pushed = u.port.pushed + u.port.owed.length := by
  rw [settle_eq, newRun_init a _ (by simpa using ended) (by simpa using ok)]
  simp [noteDuties_init]

theorem settle_queuePush_done {x : Sample} (done : u.port.result = .none) :
    (settle t (.queuePush x) rest u).port.origins = u.port.origins.tail ∧
      (paysOwed u x = true → (settle t (.queuePush x) rest u).port.owed = u.port.owed.tail ∧
        (settle t (.queuePush x) rest u).port.pushed = u.port.pushed + 1) ∧
      (paysOwed u x = false → (settle t (.queuePush x) rest u).port.owed = u.port.owed ∧
        (settle t (.queuePush x) rest u).port.pushed = u.port.pushed) := by
  rw [settle_origins, settle_owed, settle_pushed, newRun_of_not_init (by simp)]
  refine ⟨?_, fun pays => ?_, fun other => ?_⟩
  · cases h : paysOwed u x with
    | true => rw [noteDuties_queuePush_pays done h]
    | false => rw [noteDuties_queuePush_other done h]
  · rw [noteDuties_queuePush_pays done pays]; exact ⟨rfl, rfl⟩
  · rw [noteDuties_queuePush_other done other]; exact ⟨rfl, rfl⟩

theorem settle_queuePush_waits {x : Sample} (waits : u.port.result ≠ .none) :
    (settle t (.queuePush x) rest u).port.origins = u.port.origins ∧
      (settle t (.queuePush x) rest u).port.owed = u.port.owed ∧
      (settle t (.queuePush x) rest u).port.pushed = u.port.pushed := by
  rw [settle_origins, settle_owed, settle_pushed, newRun_of_not_init (by simp), noteDuties_queuePush_waits waits]
  exact ⟨rfl, rfl, rfl⟩

end Settle

/-- Settles O4: the request served, and what `settle` leaves of each field. -/
theorem stepRunsTheDecodedRequest : Obligations.StepRunsTheDecodedRequest := by
  refine ⟨fun s t i rest quiet turn go fetched => ?_, fun t i rest v => ?_⟩
  · rw [step_eq_serve quiet turn go]
    exact ⟨fun _ => serve_breach fetched,
      fun kept => ⟨fun _ => serve_next fetched kept, fun _ => serve_refused fetched kept⟩⟩
  · refine ⟨settle_enc t i rest v, settle_num t i rest v, settle_result t i rest v, settle_outcome t i rest v,
      settle_schedule t i rest v, settle_requests, fun t' other => settle_requests_other other, settle_bnd t i rest v,
      ?_, ?_, ?_, ?_, fun x => paysOwed_iff, ?_⟩
    · rintro a rfl
      exact ⟨settle_dropped, settle_origins, settle_init_goes_on, settle_init_starts⟩
    · rintro ts l rfl given
      rw [settle_owed, newRun_of_not_init (by simp), noteDuties_pushPacket given]
    · rintro x rfl done
      exact settle_queuePush_done done
    · rintro x rfl waits
      exact settle_queuePush_waits waits
    · rintro blk b rfl lost
      rw [settle_dropped, noteDuties_frameCheck lost]

/-! ## A request placed from outside (log entry 7) -/

section Placed

variable (s : State) (i : Instr)

theorem nextReport_withRequest : nextReport (s.withRequest i) = none := rfl

theorem nextTask_withRequest : nextTask (s.withRequest i) = some .producer := rfl

theorem fetch_withRequest : fetch (s.withRequest i) .producer = .ok (i, []) :=
  (congrArg decode (List.append_nil _).symm).trans (decodeUndoesEncode i [])

/-- The end of an operation placed from outside: no INIT finds the producer ended, so that no new run begins. -/
theorem settle_withRequest {v : State} (run : exec i (s.withRequest i) = .next v) :
    settle .producer i [] v = { v with port := { (noteDuties i v).port with
      producer := if v.bnd.held = true then encode i else [], schedule := [] } } := by
  have effect := exec_effect run
  have sameRun : newRun i (noteDuties i v) = noteDuties i v := by
    by_cases init : ∃ a, i = .init a
    · obtain ⟨a, rfl⟩ := init
      have bnd : v.bnd = (s.withRequest (.init a)).bnd := effect.boundary (by simp [Instr.opId])
      exact newRun_eq_self _ _ (.inl (by rw [noteDuties_bnd, bnd]; rfl))
    · exact newRun_of_not_init fun a h => init ⟨a, h⟩
  have left : requestsLeft .producer [] v = if v.bnd.held = true then encode i else [] := by
    simp only [requestsLeft, true_and, State.requests]
    rw [effect.port]
    rfl
  have turn : (noteDuties i v).port.schedule.tail = [] := by
    rw [noteDuties_schedule, effect.port]
    rfl
  rw [settle_eq, sameRun, left, turnTaken, State.setRequests]
  simp only [turn]
  rw [noteDuties_enc, noteDuties_bnd, noteDuties_num]

end Placed

/-- Settles O5: the step is the producer's, and serves the request placed. -/
theorem presentedOperationRuns : Obligations.PresentedOperationRuns := by
  intro s i
  rw [step_eq_serve (nextReport_withRequest s i) (nextTask_withRequest s i) nofun]
  refine ⟨fun v run => ?_, fun r => serve_refused (fetch_withRequest s i) (breach_withRequest s i)⟩
  rw [serve_next (fetch_withRequest s i) (breach_withRequest s i) run, settle_withRequest s i run]

end Sys2Proof.Machine
end

section
/-! PROOFS. The boundary operations (47_pipeline, section 5): FRAME_CHECK (R276), and the sample queue with its waiting
producer (R278, R280, R281, R297). -/

namespace Sys2Proof.Machine

-- As in the tests: one proof after another, so that no further threads start, each of which reserves address space.
set_option Elab.async false

open Sys2Proof.Safety
open Host (Outcome)

/-! ## FRAME_CHECK (R276) -/

/-- Settles O55: the sync byte decides. -/
theorem frameCheckCountsSyncLoss : Obligations.FrameCheckCountsSyncLoss := by
  refine fun blk s run => ⟨fun sync => ?_, fun lost => ?_⟩
  · have ok : syncOk blk[0] = true := beq_iff_eq.mpr sync
    exact (whenRun_run run).trans (by rw [if_pos ok]; rfl)
  · have bad : ¬ syncOk blk[0] = true := fun ok => lost (beq_iff_eq.mp ok)
    exact (whenRun_run run).trans (by rw [if_neg bad]; rfl)

/-! ## The queue's operations -/

section Queue

variable {s : State} (run : s.enc.mode = .run)
include run

theorem exec_queuePush_room (x : Sample) (room : s.bnd.queue.length < s.bnd.cap) : exec (.queuePush x) s =
    .next (s.completeBoundary { s.bnd with queue := s.bnd.queue ++ [x], held := false } .none) :=
  (whenRun_run run).trans (congrArg _ (if_neg (by simpa [Boundary.full] using room)))

theorem exec_queuePush_full (x : Sample) (full : s.bnd.cap ≤ s.bnd.queue.length) :
    exec (.queuePush x) s = .next (s.completeBoundary { s.bnd with held := true } .waiting) :=
  (whenRun_run run).trans (congrArg _ (if_pos (by simpa [Boundary.full] using full)))

theorem exec_queuePop_head {x : Sample} {rest : List Sample} (queue : s.bnd.queue = x :: rest) : exec .queuePop s =
    .next (s.completeBoundary { s.bnd with queue := rest, lastSample := x, held := false } (.sample x)) :=
  (whenRun_run run).trans (by rw [queue])

theorem exec_queuePop_end (empty : s.bnd.queue = []) (closed : s.bnd.closed = true) : exec .queuePop s =
    .next (s.completeBoundary { s.bnd with consumerStopped := true } .endOfStream) :=
  (whenRun_run run).trans (by rw [empty, closed]; rfl)

theorem exec_queuePop_underflow (empty : s.bnd.queue = []) (opened : s.bnd.closed = false) : exec .queuePop s =
    .next (s.raise .queueUnderflow s.enc { s.bnd with underflowCount := s.bnd.underflowCount + 1 }
      (.sample s.bnd.lastSample)) :=
  (whenRun_run run).trans (by rw [empty, opened]; rfl)

end Queue

/-- Settles O59: the three cases of a pop. -/
theorem queuePopNeverWaits : Obligations.QueuePopNeverWaits := fun _ run =>
  ⟨fun _ _ => exec_queuePop_head run, exec_queuePop_end run, exec_queuePop_underflow run⟩

/-- The boundary after a push: the sample at the tail, or the producer waiting (R278). -/
def Boundary.pushed (b : Boundary) (x : Sample) : Boundary :=
  if b.queue.length < b.cap then { b with queue := b.queue ++ [x], held := false } else { b with held := true }

theorem exec_queuePush {s : State} (run : s.enc.mode = .run) (x : Sample) :
    ∃ r, exec (.queuePush x) s = .next (s.completeBoundary (s.bnd.pushed x) r) := by
  unfold Boundary.pushed
  split
  · exact ⟨_, exec_queuePush_room run x ‹_›⟩
  · exact ⟨_, exec_queuePush_full run x (Nat.le_of_not_lt ‹_›)⟩

/-- The only "must not" of R285 about a push: it is out of turn. -/
theorem breach_queuePush (s : State) (x : Sample) :
    breach s .producer (.queuePush x) = if outOfTurn s x then some .sampleOutOfOrder else none := rfl

/-- Settles O58: a push runs unless the host's own word on the sample puts it out of turn. -/
theorem queuePushAppendsOrWaits : Obligations.QueuePushAppendsOrWaits := by
  refine fun x s => ⟨fun run => exec_queuePush_room run x, fun run => exec_queuePush_full run x,
    fun rest quiet turn fetched => ?_⟩
  rw [step_eq_serve quiet turn nofun]
  refine ⟨fun k word wrong => ?_, fun run word => ?_⟩
  · have late : outOfTurn s x = true := outOfTurn_iff.mpr ⟨k, word, wrong⟩
    exact serve_breach fetched (by rw [breach_queuePush, if_pos late])
  · have inTurn : ¬ outOfTurn s x = true := fun late => by
      obtain ⟨k, said, wrong⟩ := outOfTurn_iff.mp late
      obtain ⟨place, sample⟩ := word k said
      exact wrong.elim (absurd place) (absurd sample)
    obtain ⟨r, pushes⟩ := exec_queuePush run x
    exact ⟨_, serve_next fetched (by rw [breach_queuePush, if_neg inTurn]) pushes, settle_enc _ _ _ _,
      settle_bnd _ _ _ _ (.inr (.inr (by simp)))⟩

/-! ## A push that waits -/

/-- The state after a step that pushes on a full queue: the producer waits, its request is kept (R278). -/
def afterFullPush (s : State) : State := turnTaken (s.completeBoundary { s.bnd with held := true } .waiting)

/-- The state after a step that pops `q` before `qs`: no producer waits, and `rest` is what the consumer has still to
ask (R280). -/
def afterPop (s : State) (q : Sample) (qs : List Sample) (rest : List Byte) : State :=
  turnTaken ((s.completeBoundary { s.bnd with queue := qs, lastSample := q, held := false } (.sample q)).setRequests
    .consumer rest)

section Waiting

variable {s : State} {x : Sample} {rest : List Byte}

theorem step_push_waits (run : s.enc.mode = .run) (quiet : nextReport s = none) (turn : nextTask s = some .producer)
    (requests : s.port.producer = encode (.queuePush x) ++ rest) (silent : s.port.origins = [])
    (full : s.bnd.cap ≤ s.bnd.queue.length) :
    step s = .next (afterFullPush s) := by
  have fetched : fetch s .producer = .ok (.queuePush x, rest) :=
    (congrArg decode requests).trans (decodeUndoesEncode _ _)
  have inTurn : breach s .producer (.queuePush x) = none := by simp [breach_queuePush, outOfTurn, silent]
  rw [step_eq_serve quiet turn nofun, serve_next fetched inTurn (exec_queuePush_full run x full), settle_eq,
    newRun_of_not_init (by simp), noteDuties_queuePush_waits (by simp)]
  rfl

/-- A step that finds room for the first owed sample, of which the host says nothing. -/
theorem step_push_owed {later : List Sample} (run : s.enc.mode = .run) (quiet : nextReport s = none)
    (turn : nextTask s = some .producer) (requests : s.port.producer = encode (.queuePush x) ++ rest)
    (silent : s.port.origins = []) (owed : s.port.owed = x :: later) (room : s.bnd.queue.length < s.bnd.cap) :
    ∃ u : State, step s = .next u ∧ u.enc = s.enc ∧
      u.bnd = { s.bnd with queue := s.bnd.queue ++ [x], held := false } ∧
      u.port.owed = later ∧ u.port.producer = rest ∧ u.port.consumer = s.port.consumer := by
  have fetched : fetch s .producer = .ok (.queuePush x, rest) :=
    (congrArg decode requests).trans (decodeUndoesEncode _ _)
  have inTurn : breach s .producer (.queuePush x) = none := by simp [breach_queuePush, outOfTurn, silent]
  have done := exec_queuePush_room run x room
  refine ⟨_, (step_eq_serve quiet turn nofun).trans (serve_next fetched inTurn done), settle_enc _ _ _ _,
    settle_bnd _ _ _ _ (.inr (.inr (by simp))), ?_, (settle_requests (t := .producer)).trans (if_neg (by simp)),
    settle_requests_other (t' := .consumer) nofun⟩
  have pays :
      paysOwed (s.completeBoundary { s.bnd with queue := s.bnd.queue ++ [x], held := false } .none) x = true := by
    simp [paysOwed_iff, silent, owed]
  obtain ⟨-, paid, -⟩ :=
    settle_queuePush_done (t := .producer) (rest := rest) (State.completeBoundary_result s _ .none)
  rw [(paid pays).1, State.completeBoundary_owed, owed, List.tail_cons]

theorem step_pop_head {q : Sample} {qs : List Sample} (run : s.enc.mode = .run) (quiet : nextReport s = none)
    (turn : nextTask s = some .consumer) (go : s.bnd.token = false)
    (requests : s.port.consumer = encode .queuePop ++ rest) (queue : s.bnd.queue = q :: qs) :
    step s = .next (afterPop s q qs rest) := by
  have fetched : fetch s .consumer = .ok (.queuePop, rest) :=
    (congrArg decode requests).trans (decodeUndoesEncode _ _)
  rw [step_eq_serve quiet turn fun _ => go, serve_next fetched rfl (exec_queuePop_head run queue), settle_eq,
    newRun_of_not_init (by simp), noteDuties_queuePop]
  rfl

/-- A turn of a producer that waits passes. -/
theorem step_held {turns : List Turn} (schedule : s.port.schedule = .task .producer :: turns)
    (held : s.bnd.held = true) :
    step s = .next (turnTaken s) := by
  have quiet : nextReport s = none := by simp [nextReport, schedule]
  have none : nextTask s = .none := by simp [nextTask, schedule, runnable, held]
  simp only [step, quiet, none]

theorem nextReport_task {t : Task} {turns : List Turn} (schedule : s.port.schedule = .task t :: turns) :
    nextReport s = none := by
  simp [nextReport, schedule]

/-- A task that can move moves in its turn. -/
theorem nextTask_turn {t : Task} {turns : List Turn} (schedule : s.port.schedule = .task t :: turns)
    (ready : runnable s t = true) : nextTask s = some t := by
  simp [nextTask, schedule, ready]

theorem runnable_producer {i : Instr} (requests : s.port.producer = encode i ++ rest)
    (goesOn : s.bnd.producerEnded = false) (free : s.bnd.held = false) : runnable s .producer = true := by
  simp [runnable, requests, goesOn, free, encode]

theorem runnable_consumer {i : Instr} (requests : s.port.consumer = encode i ++ rest)
    (goesOn : s.bnd.consumerStopped = false) : runnable s .consumer = true := by
  simp [runnable, requests, goesOn, encode]

end Waiting

/-- Settles O6: the push waits, the producer's next turn passes, the pop makes room, the push goes in. -/
theorem waitingPushGoesInAfterAPop : Obligations.WaitingPushGoesInAfterAPop := by
  intro s x q qs later rest rest' run owed silent queue full free goesOn token stays requests pops schedule
  have ready := runnable_producer requests goesOn free
  have waits := step_push_waits run (nextReport_task schedule) (nextTask_turn schedule ready) requests silent full.ge
  have second : (afterFullPush s).port.schedule = [.task .producer, .task .consumer, .task .producer] :=
    congrArg List.tail schedule
  have passes := step_held second rfl
  have third : (turnTaken (afterFullPush s)).port.schedule = [.task .consumer, .task .producer] :=
    congrArg List.tail second
  have delivers := step_pop_head (s := turnTaken (afterFullPush s)) run (nextReport_task third)
    (nextTask_turn third (runnable_consumer pops stays)) token pops queue
  have fourth : (afterPop (turnTaken (afterFullPush s)) q qs rest').port.schedule = [.task .producer] :=
    congrArg List.tail third
  have room : qs.length < s.bnd.cap := by rw [← full, queue, List.length_cons]; exact Nat.lt_succ_self _
  obtain ⟨d, goesIn, enc, bnd, stillOwed, left, popsLeft⟩ :=
    step_push_owed (s := afterPop (turnTaken (afterFullPush s)) q qs rest') run (nextReport_task fourth)
      (nextTask_turn fourth (runnable_producer requests goesOn rfl)) requests silent owed room
  refine ⟨_, _, _, d, waits, passes, delivers, goesIn, rfl, rfl, rfl, rfl, rfl, rfl, rfl,
    congrArg Boundary.queue bnd, congrArg Boundary.held bnd, (congrArg Boundary.underflowCount bnd :), owed, stillOwed,
    left, popsLeft, enc⟩

/-! ## The queue in order (R278, R280, R281) -/

section InOrder

variable {s : State} (run : s.enc.mode = .run)
include run

/-- Pushes while there is room append their samples. -/
theorem runOps_queuePushes (xs : List Sample) (room : s.bnd.queue.length + xs.length ≤ s.bnd.cap) :
    ∃ (t : State) (held : Bool), runOps (xs.map .queuePush) s = some (List.replicate xs.length .none, t) ∧
      t.enc = s.enc ∧ t.bnd = { s.bnd with queue := s.bnd.queue ++ xs, held := held } := by
  induction xs generalizing s with
  | nil => exact ⟨s, s.bnd.held, rfl, rfl, by rw [List.append_nil]⟩
  | cons x xs ih =>
    rw [List.length_cons] at room
    have first := exec_queuePush_room run x (by omega)
    obtain ⟨t, held, others, enc, bnd⟩ :=
      ih (s := s.completeBoundary { s.bnd with queue := s.bnd.queue ++ [x], held := false } .none) run
        (by simp; omega)
    exact ⟨t, held, runOps_cons first others, enc, by simp [bnd]⟩

/-- As many pops as there are samples queued deliver them from the head. -/
theorem runOps_queuePops (xs : List Sample) (queue : s.bnd.queue = xs) :
    ∃ (t : State) (held : Bool), runOps (List.replicate xs.length .queuePop) s = some (xs.map .sample, t) ∧
      t.enc = s.enc ∧
      t.bnd = { s.bnd with queue := [], lastSample := xs.getLastD s.bnd.lastSample, held := held } := by
  induction xs generalizing s with
  | nil => exact ⟨s, s.bnd.held, rfl, rfl, by rw [List.getLastD_nil, ← queue]⟩
  | cons x xs ih =>
    have first := exec_queuePop_head run queue
    obtain ⟨t, held, others, enc, bnd⟩ :=
      ih (s := s.completeBoundary { s.bnd with queue := xs, lastSample := x, held := false } (.sample x)) run rfl
    exact ⟨t, held, runOps_cons first others, enc, by rw [bnd, List.getLastD_cons]; rfl⟩

/-- Pops of an empty queue that is still open hold the last sample and count. -/
theorem runOps_underflows (k : Nat) (empty : s.bnd.queue = []) (opened : s.bnd.closed = false) :
    ∃ t : State, runOps (List.replicate k .queuePop) s = some (List.replicate k (.sample s.bnd.lastSample), t) ∧
      t.bnd = { s.bnd with underflowCount := s.bnd.underflowCount + k } := by
  induction k generalizing s with
  | zero => exact ⟨s, rfl, rfl⟩
  | succ k ih =>
    have first := exec_queuePop_underflow run empty opened
    obtain ⟨t, others, bnd⟩ :=
      ih (s := s.raise .queueUnderflow s.enc { s.bnd with underflowCount := s.bnd.underflowCount + 1 }
        (.sample s.bnd.lastSample)) run empty opened
    exact ⟨t, runOps_cons first others, by rw [bnd, Nat.add_comm k 1, ← Nat.add_assoc]; rfl⟩

end InOrder

/-- Settles O60: the pushes, the pops of all samples, and then the empty queue. -/
theorem samplesLeaveInOrder : Obligations.SamplesLeaveInOrder := by
  intro xs k s run room
  obtain ⟨t, _, pushes, enc, filled⟩ := runOps_queuePushes run xs room
  have running : t.enc.mode = .run := by rw [enc, run]
  obtain ⟨u, _, pops, same, drained⟩ := runOps_queuePops running (s.bnd.queue ++ xs) (by rw [filled])
  have stillRunning : u.enc.mode = .run := by rw [same, running]
  rw [List.length_append] at pops
  rw [filled] at drained
  have empty : u.bnd.queue = [] := by rw [drained]
  have count : u.bnd.underflowCount = s.bnd.underflowCount := by rw [drained]
  have closing : u.bnd.closed = s.bnd.closed := by rw [drained]
  refine ⟨u, runOps_append pushes pops, empty, count, closing, by rw [drained], same.trans enc, fun closed => ?_,
    fun opened => ?_⟩
  · exact ⟨_, exec_queuePop_end stillRunning empty (closing.trans closed), rfl⟩
  · obtain ⟨v, holds, bnd⟩ := runOps_underflows stillRunning k empty (closing.trans opened)
    exact ⟨v, holds, by rw [bnd, count], by rw [bnd]⟩

end Sys2Proof.Machine
end

section
/-! PROOFS. PUSH_PACKET (47_pipeline R262, R263): the six stage operations in order, each on the whole output of the one
before. -/

namespace Sys2Proof.Machine

-- As in the tests: one proof after another, so that no further threads start, each of which reserves address space.
set_option Elab.async false

open Sys2Proof.Safety

/-! ## The outputs of the stages as operands (R95, R264) -/

/-- Code bits taken in pairs and written out again, as CONV_ENCODE gives them to QPSK_MAP. -/
theorem flattenPairs_dibits (bits : List Bool) (even : bits.length % 2 = 0) : flattenPairs (dibits bits) = bits := by
  induction bits using dibits.induct with
  | case1 b1 b0 rest ih =>
    rw [List.length_cons, List.length_cons] at even
    have tail : flattenPairs (dibits rest) = rest := ih (by omega)
    rw [flattenPairs] at tail ⊢
    rw [dibits, List.flatMap_cons, tail]
    rfl
  | case2 b => exact absurd even (by simp)
  | case3 => rfl

/-- The 204 bytes of the outer code, as the operand of INTERLEAVE. -/
def codeword (e : Encoder) (ts : Packet 188) : Packet 204 :=
  vectorOfList 204 (outerCode e ts.toList).1 (by simp [outerCode_length])

theorem codeword_toList (e : Encoder) (ts : Packet 188) : (codeword e ts).toList = (outerCode e ts.toList).1 := rfl

/-- The pairs of code bits of a packet, as the operand of QPSK_MAP. -/
def codePairs (e : Encoder) (ts : Packet 188) : List (Bool × Bool) := dibits (codePacket e ts.toList).1

theorem codePairs_length (e : Encoder) (ts : Packet 188) : (codePairs e ts).length = 1632 := by
  simp [codePairs, dibits_length, codePacket_length]

theorem flattenPairs_codePairs (e : Encoder) (ts : Packet 188) :
    flattenPairs (codePairs e ts) = (codePacket e ts.toList).1 :=
  flattenPairs_dibits _ (by simp [codePacket_length])

/-! ## The stage operations (R260 to R264) -/

section Stages

variable {s : State} (run : s.enc.mode = .run)
include run

theorem exec_scramble (ts : Packet 188) :
    exec (.scramble ts) s = completes s (scramble s.enc ts.toList).2 (.bytes (scramble s.enc ts.toList).1) :=
  whenRun_run run

theorem exec_rsEncode {d : List Byte} (h : d.length = 188) :
    exec (.rsEncode d) s = completes s (rsEncode s.enc d).2 (.bytes (rsEncode s.enc d).1) :=
  (whenRun_run run).trans (congrArg _ (if_pos h))

theorem exec_interleave (rs : Packet 204) :
    exec (.interleave rs) s = completes s (interleave s.enc rs.toList).2 (.bytes (interleave s.enc rs.toList).1) :=
  whenRun_run run

theorem exec_qpskMap (cb : List (Bool × Bool)) :
    exec (.qpskMap cb) s = completes s s.enc (.points (qpskMap (NumType.arith s.num) cb)) := whenRun_run run

end Stages

/-- The bytes that leave the interleaver (R262). -/
def interleaved (e : Encoder) (ts : Packet 188) : List Byte × Encoder :=
  interleave (outerCode e ts.toList).2 (codeword e ts).toList

theorem interleaved_length (e : Encoder) (ts : Packet 188) : (interleaved e ts).1.length = 204 :=
  (interleave_length _ _).trans Vector.length_toList

theorem codePacket_eq (e : Encoder) (ts : Packet 188) :
    codePacket e ts.toList = convEncode (interleaved e ts).2 (interleaved e ts).1 := rfl

/-- The stages in order, each in RUN on the CORE that the one before has left. -/
theorem runOps_stages {s : State} (run : s.enc.mode = .run) (ts : Packet 188) : ∃ u : State,
    runOps [.scramble ts, .rsEncode (scramble s.enc ts.toList).1, .interleave (codeword s.enc ts),
        .convEncode (interleaved s.enc ts).1, .qpskMap (codePairs s.enc ts),
        .rrcShape (qpskMap (NumType.arith s.num) (codePairs s.enc ts))] s =
      some ([.bytes (scramble s.enc ts.toList).1, .bytes (codeword s.enc ts).toList, .bytes (interleaved s.enc ts).1,
        .codeBits (flattenPairs (codePairs s.enc ts)), .points (qpskMap (NumType.arith s.num) (codePairs s.enc ts)),
        .samples (pushPacket s.num s.enc ts.toList).1], u) ∧
      u.enc = (pushPacket s.num s.enc ts.toList).2 := by
  have scrambled : (scramble s.enc ts.toList).2.mode = .run :=
    (scramble_changesOnly (w := [.pktIdx, .prbsPos]) s.enc (by simp) (by simp) _).mode.trans run
  have encoded : (outerCode s.enc ts.toList).2.mode = .run :=
    (outerCode_changesOnly (w := [.pktIdx, .prbsPos, .rem]) s.enc _ (by simp) (by simp) (by simp)).mode.trans run
  have spread : (interleaved s.enc ts).2.mode = .run :=
    (interleave_changesOnly (w := [.fifo]) _ (by simp) _).mode.trans encoded
  have coded : (codePacket s.enc ts.toList).2.mode = .run :=
    (codePacket_eq s.enc ts ▸ convEncode_changesOnly (w := [.ccState]) _ (by simp) _).mode.trans spread
  rw [flattenPairs_codePairs, codeword_toList]
  exact ⟨_, runOps_cons (exec_scramble run ts) (runOps_cons (exec_rsEncode scrambled (by simp [scramble_length]))
    (runOps_cons (exec_interleave encoded (codeword s.enc ts)) (runOps_cons (exec_convEncode spread _)
    (runOps_cons (exec_qpskMap coded _) (runOps_cons (exec_rrcShape coded _) rfl))))), rfl⟩

/-- Settles O53: the stages thread through the CORE what PUSH_PACKET threads through it. -/
theorem pushPacketIsTheSixStages : Obligations.PushPacketIsTheSixStages := by
  intro ts s run
  obtain ⟨u, stages, core⟩ := runOps_stages run ts
  exact ⟨_, _, _, _, _, _, u, stages, core ▸ exec_pushPacket s ts run, by simp [scramble_length],
    interleaved_length s.enc ts, codePairs_length s.enc ts, by simp [qpskMap, codePairs_length],
    pushPacket_length s.enc s.num ts⟩

end Sys2Proof.Machine
end

section
/-! PROOFS. QUANTISE (47_pipeline R279): the cast of a rational number, and, since a cast is constant between two
neighbouring multiples of 1/2, the cast of every real number (log entries 5 and 15). -/

namespace Sys2Proof.Machine

-- As in the tests: one proof after another, so that no further threads start, each of which reserves address space.
set_option Elab.async false

open Sys2Proof.Safety

/-! ## Saturation (R104) -/

theorem saturate_eq (v : Rat) : saturate v = max (-128) (min 127 v) := by
  unfold saturate
  split_ifs with high low
  · rw [min_eq_left high.le]; norm_num
  · rw [min_eq_right (by linarith), max_eq_left low.le]
  · rw [min_eq_right (not_lt.mp high), max_eq_right (not_lt.mp low)]

theorem saturate_mono : Monotone saturate := fun v w h => by
  rw [saturate_eq, saturate_eq]
  exact max_le_max le_rfl (min_le_min le_rfl h)

theorem saturate_bounds (v : Rat) : -128 ≤ saturate v ∧ saturate v ≤ 127 := by
  rw [saturate_eq]
  exact ⟨le_max_left _ _, max_le (by norm_num) (min_le_left _ _)⟩

theorem saturate_inside {v : Rat} (lo : -128 ≤ v) (hi : v ≤ 127) : saturate v = v := by
  rw [saturate_eq, min_eq_right hi, max_eq_right lo]

/-- The real number `v` saturated (R104). -/
noncomputable def saturated (v : ℝ) : ℝ := max (-128) (min 127 v)

theorem cast_saturate (v : Rat) : ((saturate v : Rat) : ℝ) = saturated v := by
  rw [saturate_eq, saturated]
  push_cast
  rfl

theorem saturated_mono : Monotone saturated := fun _ _ h => max_le_max le_rfl (min_le_min le_rfl h)

theorem saturated_high {v : ℝ} (h : 127 ≤ v) : saturated v = 127 := by
  rw [saturated, min_eq_left h]; norm_num

theorem saturated_low {v : ℝ} (h : v ≤ -128) : saturated v = -128 := by
  rw [saturated, min_eq_right (by linarith), max_eq_left h]

/-! ## Rounding a rational number -/

theorem quantRound_up (v : Rat) : quantRound .up v = ⌈v⌉ := Rat.ceil_eq_neg_floor_neg v

theorem quantRound_towardZero_of_nonneg {v : Rat} (h : 0 ≤ v) : quantRound .towardZero v = ⌊v⌋ := if_pos h

theorem quantRound_towardZero_of_neg {v : Rat} (h : v < 0) : quantRound .towardZero v = ⌈v⌉ :=
  (if_neg (not_le.mpr h)).trans (Rat.ceil_eq_neg_floor_neg v)

theorem abs_floor_sub_lt (v : Rat) : |(⌊v⌋ : Rat) - v| < 1 :=
  abs_lt.mpr ⟨by linarith [Int.lt_floor_add_one v], by linarith [Int.floor_le v]⟩

theorem abs_ceil_sub_lt (v : Rat) : |(⌈v⌉ : Rat) - v| < 1 :=
  abs_lt.mpr ⟨by linarith [Int.le_ceil v], by linarith [Int.ceil_lt_add_one v]⟩

/-- Every rounding of the list is less than 1 away (log entry 15). -/
theorem abs_quantRound_sub_lt (r : Config.Rounding) (v : Rat) : |(quantRound r v : Rat) - v| < 1 := by
  have nearest (even : Bool) : |(roundNearest even v : Rat) - v| < 1 :=
    (abs_roundNearest_sub_le even v).trans_lt (by norm_num)
  cases r with
  | nearestEven => exact nearest true
  | nearestAway => exact nearest false
  | down => exact abs_floor_sub_lt v
  | up => exact quantRound_up v ▸ abs_ceil_sub_lt v
  | towardZero =>
    rcases le_or_gt 0 v with pos | neg
    · exact quantRound_towardZero_of_nonneg pos ▸ abs_floor_sub_lt v
    · exact quantRound_towardZero_of_neg neg ▸ abs_ceil_sub_lt v

theorem roundNearest_mono (even : Bool) : Monotone (roundNearest even) := by
  intro v w h
  rcases h.eq_or_lt with rfl | lt
  · exact le_rfl
  · by_contra falls
    have gap : (roundNearest even w : Rat) + 1 ≤ roundNearest even v := mod_cast not_le.mp falls
    obtain ⟨-, below⟩ := abs_le.mp (abs_roundNearest_sub_le even v)
    obtain ⟨above, -⟩ := abs_le.mp (abs_roundNearest_sub_le even w)
    linarith

theorem quantRound_towardZero_mono : Monotone (quantRound .towardZero) := by
  intro v w h
  rcases le_or_gt 0 v with pos | neg
  · rw [quantRound_towardZero_of_nonneg pos, quantRound_towardZero_of_nonneg (pos.trans h)]
    exact Int.floor_mono h
  · rw [quantRound_towardZero_of_neg neg]
    rcases le_or_gt 0 w with pos' | neg'
    · rw [quantRound_towardZero_of_nonneg pos']
      exact (Int.ceil_nonpos.mpr neg.le).trans (Int.floor_nonneg.mpr pos')
    · rw [quantRound_towardZero_of_neg neg']
      exact Int.ceil_mono h

theorem quantRound_mono (r : Config.Rounding) : Monotone (quantRound r) := by
  cases r with
  | towardZero => exact quantRound_towardZero_mono
  | nearestEven => exact roundNearest_mono true
  | nearestAway => exact roundNearest_mono false
  | down => exact Int.floor_mono
  | up => intro v w h; rw [quantRound_up, quantRound_up]; exact Int.ceil_mono h

/-! ### Between two neighbouring multiples of 1/2 -/

section Between

variable {m : Int} {v : Rat} (lo : (m : Rat) < 2 * v) (hi : 2 * v < m + 1)
include lo hi

theorem floor_between : ⌊v⌋ = m / 2 := by
  obtain ⟨k, rfl | rfl⟩ := Int.even_or_odd' m <;> push_cast at lo hi
  · rw [Int.mul_ediv_cancel_left k two_ne_zero, Int.floor_eq_iff]
    constructor <;> linarith
  · rw [show (2 * k + 1) / 2 = k by omega, Int.floor_eq_iff]
    constructor <;> linarith

theorem ceil_between : ⌈v⌉ = m / 2 + 1 := by
  obtain ⟨k, rfl | rfl⟩ := Int.even_or_odd' m <;> push_cast at lo hi
  · rw [Int.mul_ediv_cancel_left k two_ne_zero, Int.ceil_eq_iff]
    push_cast
    constructor <;> linarith
  · rw [show (2 * k + 1) / 2 = k by omega, Int.ceil_eq_iff]
    push_cast
    constructor <;> linarith

theorem roundNearest_between (even : Bool) : roundNearest even v = (m + 1) / 2 := by
  have floor : v.floor = m / 2 := floor_between lo hi
  obtain ⟨k, rfl | rfl⟩ := Int.even_or_odd' m <;> push_cast at lo hi <;> simp only [roundNearest, floor]
  · rw [Int.mul_ediv_cancel_left k two_ne_zero, if_pos (by linarith)]
    omega
  · rw [show (2 * k + 1) / 2 = k by omega, if_neg (by linarith), if_pos (by linarith)]
    omega

theorem nonneg_between : 0 ≤ v ↔ 0 ≤ m := by
  constructor
  · intro h
    have : (-1 : Rat) < m := by linarith
    have : -1 < m := mod_cast this
    omega
  · intro h
    have : (0 : Rat) ≤ m := mod_cast h
    linarith

end Between

/-- No rounding of the list has a step but at a multiple of 1/2. -/
theorem quantRound_between (r : Config.Rounding) {m : Int} {v w : Rat} (lo : (m : Rat) < 2 * v) (hi : 2 * v < m + 1)
    (lo' : (m : Rat) < 2 * w) (hi' : 2 * w < m + 1) : quantRound r v = quantRound r w := by
  have floors : ⌊v⌋ = ⌊w⌋ := (floor_between lo hi).trans (floor_between lo' hi').symm
  have ceils : ⌈v⌉ = ⌈w⌉ := (ceil_between lo hi).trans (ceil_between lo' hi').symm
  have nearest (even : Bool) : roundNearest even v = roundNearest even w :=
    (roundNearest_between lo hi even).trans (roundNearest_between lo' hi' even).symm
  have signs : 0 ≤ v ↔ 0 ≤ w := (nonneg_between lo hi).trans (nonneg_between lo' hi').symm
  cases r with
  | nearestEven => exact nearest true
  | nearestAway => exact nearest false
  | down => exact floors
  | up => rw [quantRound_up, quantRound_up, ceils]
  | towardZero =>
    rcases le_or_gt 0 v with pos | neg
    · rw [quantRound_towardZero_of_nonneg pos, quantRound_towardZero_of_nonneg (signs.mp pos), floors]
    · rw [quantRound_towardZero_of_neg neg,
        quantRound_towardZero_of_neg (not_le.mp fun pos => not_le.mpr neg (signs.mpr pos)), ceils]

/-! ## The cast of a rational number -/

theorem castRat_mono (r : Config.Rounding) : Monotone (castRat r) := (quantRound_mono r).comp saturate_mono

theorem castRat_convex (r : Config.Rounding) : Convex (castRat r) := fun _ _ _ hp hq same =>
  le_antisymm ((castRat_mono r hq).trans same.ge) (castRat_mono r hp)

theorem castRat_inside (r : Config.Rounding) {v : Rat} (lo : -128 ≤ v) (hi : v ≤ 127) :
    castRat r v = quantRound r v := by
  rw [castRat, saturate_inside lo hi]

theorem castRat_high (r : Config.Rounding) {v : Rat} (h : 127 ≤ v) : castRat r v = quantRound r 127 := by
  rw [castRat, saturate_eq, min_eq_left h, max_eq_right (by norm_num)]

theorem castRat_low (r : Config.Rounding) {v : Rat} (h : v ≤ -128) : castRat r v = quantRound r (-128) := by
  rw [castRat, saturate_eq, min_eq_right (by linarith), max_eq_left h]

/-- A cast is constant between two neighbouring multiples of 1/2. -/
theorem castRat_between (r : Config.Rounding) {m : Int} {v w : Rat} (lo : (m : Rat) < 2 * v) (hi : 2 * v < m + 1)
    (lo' : (m : Rat) < 2 * w) (hi' : 2 * w < m + 1) : castRat r v = castRat r w := by
  rcases lt_or_ge m 254 with below | high
  · rcases lt_or_ge m (-256) with low | above
    · have past : (m : Rat) + 1 ≤ -256 := mod_cast low
      rw [castRat_low r (by linarith), castRat_low r (by linarith)]
    · have le : (m : Rat) + 1 ≤ 254 := mod_cast below
      have ge : (-256 : Rat) ≤ m := mod_cast above
      rw [castRat_inside r (by linarith) (by linarith), castRat_inside r (by linarith) (by linarith)]
      exact quantRound_between r lo hi lo' hi'
  · have past : (254 : Rat) ≤ m := mod_cast high
    rw [castRat_high r (by linarith), castRat_high r (by linarith)]

/-- A cast fits a signed byte. -/
theorem castRat_bounds (r : Config.Rounding) (v : Rat) : -128 ≤ castRat r v ∧ castRat r v ≤ 127 := by
  obtain ⟨lo, hi⟩ := saturate_bounds v
  obtain ⟨below, above⟩ := abs_lt.mp (abs_quantRound_sub_lt r (saturate v))
  have lower : (-129 : Rat) < castRat r v := by unfold castRat; linarith
  have upper : (castRat r v : Rat) < 128 := by unfold castRat; linarith
  have lower' : -129 < castRat r v := mod_cast lower
  have upper' : castRat r v < 128 := mod_cast upper
  omega

/-- A signed byte less than 1 away from an integer is that integer. -/
theorem eq_of_near {z k : Int} (near : |(z : ℝ) - k| < 1) : z = k := by
  have close : |z - k| < 1 := mod_cast near
  exact sub_eq_zero.mp (Int.abs_lt_one_iff.mp close)

/-- A byte near the saturated number is the end of the range where the number is past it. -/
theorem truncatedByte_of_near {v : ℝ} {b : Byte} (near : |(b.toInt : ℝ) - saturated v| < 1)
    (pos : 0 ≤ v → v < 127 → (b.toInt : ℝ) ≤ v ∧ v < b.toInt + 1)
    (neg : -128 < v → v < 0 → v ≤ b.toInt ∧ (b.toInt : ℝ) - 1 < v) : TruncatedByte v b :=
  ⟨fun high => eq_of_near (by rw [saturated_high high] at near; exact_mod_cast near),
    fun low => eq_of_near (by rw [saturated_low low] at near; exact_mod_cast near),
    fun _ high nonneg => pos nonneg high, fun low _ => neg low⟩

theorem castOf_iff {r : Config.Rounding} {e : Num} {b : Byte} : CastOf r e b ↔
    |(b.toInt : ℝ) - saturated (realValue e)| < 1 ∧ (r = .towardZero → TruncatedByte (realValue e) b) := Iff.rfl

theorem toInt_castRat (r : Config.Rounding) (v : Rat) : (BitVec.ofInt 8 (castRat r v)).toInt = castRat r v := by
  obtain ⟨lo, hi⟩ := castRat_bounds r v
  exact BitVec.toInt_ofInt_eq_self (by decide) lo (Int.lt_add_one_of_le hi)

theorem castRat_near (r : Config.Rounding) (v : Rat) :
    |((BitVec.ofInt 8 (castRat r v)).toInt : ℝ) - saturated v| < 1 := by
  rw [toInt_castRat, ← cast_saturate]
  exact_mod_cast abs_quantRound_sub_lt r (saturate v)

theorem truncatedByte_castRat (v : Rat) : TruncatedByte v (BitVec.ofInt 8 (castRat .towardZero v)) := by
  refine truncatedByte_of_near (castRat_near .towardZero v) (fun pos high => ?_) (fun low neg => ?_) <;>
    rw [toInt_castRat]
  · have pos' : 0 ≤ v := mod_cast pos
    have high' : v < 127 := mod_cast high
    rw [castRat_inside _ (by linarith) high'.le, quantRound_towardZero_of_nonneg pos', ← Rat.floor_cast (α := ℝ)]
    exact ⟨Int.floor_le _, Int.lt_floor_add_one _⟩
  · have low' : -128 < v := mod_cast low
    have neg' : v < 0 := mod_cast neg
    rw [castRat_inside _ low'.le (by linarith), quantRound_towardZero_of_neg neg', ← Rat.ceil_cast (α := ℝ)]
    exact ⟨Int.le_ceil _, by linarith [Int.ceil_lt_add_one (v : ℝ)]⟩

theorem castOf_rat (r : Config.Rounding) (v : Rat) : CastOf r (.rat v) (BitVec.ofInt 8 (castRat r v)) :=
  castOf_iff.mpr ⟨castRat_near r v, fun truncates => truncates ▸ truncatedByte_castRat v⟩

/-! ## The cast of a real number (log entry 5) -/

/-- Two numbers truncated to one byte have no number between them that is truncated to another. -/
theorem truncatedByte_between {p q v : ℝ} {b : Byte} (lo : p ≤ v) (hi : v ≤ q) (hp : TruncatedByte p b)
    (hq : TruncatedByte q b) (near : |(b.toInt : ℝ) - saturated v| < 1) : TruncatedByte v b := by
  obtain ⟨-, lowP, posP, negP⟩ := hp
  obtain ⟨highQ, -, posQ, negQ⟩ := hq
  have lowP' (h : p ≤ -128) : (b.toInt : ℝ) = -128 := mod_cast lowP h
  have highQ' (h : 127 ≤ q) : (b.toInt : ℝ) = 127 := mod_cast highQ h
  refine truncatedByte_of_near near (fun pos high => ⟨?_, ?_⟩) (fun low neg => ⟨?_, ?_⟩)
  · rcases le_or_gt 0 p with posp | negp
    · exact (posP (by linarith) (by linarith) posp).1.trans lo
    · rcases le_or_gt p (-128) with lowp | insidep
      · linarith [lowP' lowp]
      · have below : (b.toInt : ℝ) < 1 := by linarith [(negP insidep (by linarith) negp).2]
        have below : b.toInt ≤ 0 := Int.lt_add_one_iff.mp (mod_cast below)
        exact (Int.cast_nonpos.mpr below).trans pos
  · rcases le_or_gt 127 q with highq | insideq
    · linarith [highQ' highq]
    · exact hi.trans_lt (posQ (by linarith) insideq (pos.trans hi)).2
  · rcases le_or_gt 0 q with posq | negq
    · rcases le_or_gt 127 q with highq | insideq
      · linarith [highQ' highq]
      · have above : (-1 : ℝ) < b.toInt := by linarith [(posQ (by linarith) insideq posq).2]
        have above : -1 < b.toInt := mod_cast above
        exact neg.le.trans (Int.cast_nonneg (by omega))
    · exact hi.trans (negQ (by linarith) (by linarith) negq).1
  · rcases le_or_gt p (-128) with lowp | insidep
    · linarith [lowP' lowp]
    · exact (negP insidep (by linarith) (by linarith)).2.trans_le lo

/-- What two numbers are cast to, every number between them is cast to. -/
theorem castOf_between {r : Config.Rounding} {p q e : Num} {b : Byte} (hp : CastOf r p b) (hq : CastOf r q b)
    (lo : realValue p ≤ realValue e) (hi : realValue e ≤ realValue q) : CastOf r e b := by
  obtain ⟨nearP, truncP⟩ := castOf_iff.mp hp
  obtain ⟨nearQ, truncQ⟩ := castOf_iff.mp hq
  have above : -1 < (b.toInt : ℝ) - saturated (realValue e) := by
    linarith [(abs_lt.mp nearQ).1, saturated_mono hi]
  have below : (b.toInt : ℝ) - saturated (realValue e) < 1 := by
    linarith [(abs_lt.mp nearP).2, saturated_mono lo]
  have near := abs_lt.mpr ⟨above, below⟩
  exact castOf_iff.mpr ⟨near, fun mode => truncatedByte_between lo hi (truncP mode) (truncQ mode) near⟩

/-- A cast has an answer at every real number. -/
theorem castRat_atReal (r : Config.Rounding) (x : ℝ) : ∃ z, AtReal (castRat r) x z := by
  by_cases rational : ∃ q : Rat, (q : ℝ) = x
  · obtain ⟨q, h⟩ := rational
    exact ⟨castRat r q, .inl ⟨q, h, rfl⟩⟩
  · have below : ((⌊2 * x⌋ : ℤ) : ℝ) / 2 < x := by
      refine lt_of_le_of_ne (by linarith [Int.floor_le (2 * x)]) fun h => rational ⟨(⌊2 * x⌋ : Rat) / 2, ?_⟩
      push_cast
      exact h
    have above : x < ((⌊2 * x⌋ : ℤ) + 1 : ℝ) / 2 := by linarith [Int.lt_floor_add_one (2 * x)]
    obtain ⟨p, lo, lt⟩ := exists_rat_btwn below
    obtain ⟨q, gt, hi⟩ := exists_rat_btwn above
    have loP : ((⌊2 * x⌋ : ℤ) : ℝ) < 2 * p := by linarith
    have hiP : 2 * (p : ℝ) < (⌊2 * x⌋ : ℤ) + 1 := by linarith
    have loQ : ((⌊2 * x⌋ : ℤ) : ℝ) < 2 * q := by linarith
    have hiQ : 2 * (q : ℝ) < (⌊2 * x⌋ : ℤ) + 1 := by linarith
    exact ⟨_, atReal_between (castRat_convex r) lt.le gt.le
      (castRat_between r (mod_cast loP) (mod_cast hiP) (mod_cast loQ) (mod_cast hiQ))⟩

/-- QUANTISE's byte is a cast of the scaled component, whatever real number it is. -/
theorem castOf_castNum (r : Config.Rounding) (e : Num) : CastOf r e (BitVec.ofInt 8 (castNum r e)) := by
  have answered : AtReal (castRat r) (realValue e) (castNum r e) :=
    ask_spec (castRat_convex r) (enclosure_holds e) (castRat_atReal r _)
  rcases answered with ⟨q, value, same⟩ | ⟨-, d, pos, near⟩
  · exact same ▸ castOf_between (castOf_rat r q) (castOf_rat r q) value.le value.ge
  · obtain ⟨p, lo, lt⟩ := exists_rat_btwn (sub_lt_self (realValue e) pos)
    obtain ⟨q, gt, hi⟩ := exists_rat_btwn (lt_add_of_pos_right (realValue e) pos)
    have castP : castRat r p = castNum r e := near p (abs_lt.mpr ⟨by linarith, by linarith⟩)
    have castQ : castRat r q = castNum r e := near q (abs_lt.mpr ⟨by linarith, by linarith⟩)
    exact castOf_between (p := .rat p) (q := .rat q) (castP ▸ castOf_rat r p) (castQ ▸ castOf_rat r q) lt.le gt.le

/-- Settles O57: each byte is the cast of the component scaled in the numeric type. -/
theorem quantiseSaturatesThenTruncates : Obligations.QuantiseSaturatesThenTruncates := by
  intro x s run
  refine ⟨_, _, whenRun_run run, castOf_castNum _ _, castOf_castNum _ _, fun reals => ?_⟩
  rw [reals]
  exact ⟨realValue_exactMul _ _, realValue_exactMul _ _⟩

end Sys2Proof.Machine
end

section
/-! PROOFS. The exceptions (60_exceptions): the first condition of R292 that INIT reports, the length that RS_ENCODE
refuses (R293), the reports of the collaborators (R294 to R296), and a producer that has ended (R281). -/

namespace Sys2Proof.Machine

-- As in the tests: one proof after another, so that no further threads start, each of which reserves address space.
set_option Elab.async false

open Sys2Proof.Safety
open Host (Outcome)

/-! ## ConfigError (R292) -/

section ConfigError

variable {a : Config.InitArg}

/-- The sub-code of R292: the number of its first condition that holds of the real numbers, 0 where none does. -/
noncomputable def firstFailing (a : Config.InitArg) : Nat :=
  if a.symbolRate ≤ 0 ∨ a.sampleRate ≤ 0 then 1
  else if a.sampleRate % a.symbolRate ≠ 0 then 2
  else if a.taps < 1 ∨ a.taps % 2 = 0 then 3
  else if realValue a.beta < 0 ∨ 1 < realValue a.beta then 4
  else if realValue (tapSum (upsampling a) a.taps.toNat a.beta) = 0 then 5
  else 0

/-- Each value of a chain of five tests is its own test, after the tests before it have failed. -/
theorem firstOfFive_iff {p1 p2 p3 p4 p5 : Prop} [Decidable p1] [Decidable p2] [Decidable p3] [Decidable p4]
    [Decidable p5] {c : Nat}
    (h : c = if p1 then 1 else if p2 then 2 else if p3 then 3 else if p4 then 4 else if p5 then 5 else 0) :
    (c = 1 ↔ p1) ∧ (c = 2 ↔ ¬p1 ∧ p2) ∧ (c = 3 ↔ ¬p1 ∧ ¬p2 ∧ p3) ∧ (c = 4 ↔ ¬p1 ∧ ¬p2 ∧ ¬p3 ∧ p4) ∧
      (c = 5 ↔ ¬p1 ∧ ¬p2 ∧ ¬p3 ∧ ¬p4 ∧ p5) ∧ c ≤ 5 := by
  subst h
  split_ifs <;> simp_all

/-- With legal rates the checks that are left are the filter's. -/
theorem cfgCheck_of_rates (positive : ¬(a.symbolRate ≤ 0 ∨ a.sampleRate ≤ 0))
    (whole : ¬a.sampleRate % a.symbolRate ≠ 0) : cfgCheck a = filterCheck a.taps a.beta :=
  (if_neg positive).trans (if_neg whole)

theorem initEncoder_badConfig {f : Config.NumType} {c : Nat} (h : cfgCheck a = some c) : initEncoder f a = .error c := by
  rw [initEncoder, h]

theorem initEncoder_zeroSum {f : Config.NumType} (h : cfgCheck a = none)
    (zero : realValue (tapSum (upsampling a) a.taps.toNat a.beta) = 0) : initEncoder f a = .error 5 := by
  have build : buildTaps f (cfgOf a).u (cfgOf a).n (cfgOf a).beta = .error 5 := if_pos ((isZero_iff _).mpr zero)
  simp only [initEncoder, h, build]

/-- INIT's checks are those of R292 on the real numbers, in order. -/
theorem initEncoder_eq_firstFailing (f : Config.NumType) (a : Config.InitArg) : initEncoder f a =
    if firstFailing a = 0 then .ok (Encoder.initial f (cfgOf a)) else .error (firstFailing a) := by
  generalize code : firstFailing a = c
  unfold firstFailing at code
  split_ifs at code with rates ratio taps beta sum <;> subst code
  · exact initEncoder_badConfig (if_pos rates)
  · exact initEncoder_badConfig ((if_neg rates).trans (if_pos ratio))
  · exact initEncoder_badConfig ((cfgCheck_of_rates rates ratio).trans (filterCheck_badTaps taps))
  · exact initEncoder_badConfig
      ((cfgCheck_of_rates rates ratio).trans (filterCheck_badBeta (by omega) (by omega) beta))
  all_goals
    have inside : 0 ≤ realValue a.beta ∧ realValue a.beta ≤ 1 := by simpa using beta
    have legal : cfgCheck a = none :=
      (cfgCheck_of_rates rates ratio).trans (filterCheck_legal (by omega) (by omega) inside.1 inside.2)
  · exact initEncoder_zeroSum legal sum
  · exact initEncoder_ok f a legal ((normalisable_iff _ _ _).mpr sum)

theorem exec_init_ok (s : State) (h : firstFailing a = 0) :
    exec (.init a) s = .next (s.complete (Encoder.initial s.num (cfgOf a)) .none) := by
  change execInit a s = _
  rw [execInit, initEncoder_eq_firstFailing, if_pos h]

theorem exec_init_error (s : State) (h : firstFailing a ≠ 0) :
    exec (.init a) s = .next (failStart (firstFailing a) s) := by
  change execInit a s = _
  rw [execInit, initEncoder_eq_firstFailing, if_neg h]

/-- What INIT leaves, whichever condition holds (R260, R292). -/
theorem exec_init_reports (a : Config.InitArg) (s : State) : ∃ u, exec (.init a) s = .next u ∧ u.bnd = s.bnd ∧
    u.port.result = .none ∧ u.port.outcome = (if firstFailing a = 0 then .none else .configError (firstFailing a)) ∧
    (firstFailing a ≠ 0 → u.enc.mode = .failed) ∧ (firstFailing a = 0 → u.enc.mode = .run) := by
  by_cases h : firstFailing a = 0
  · exact ⟨_, exec_init_ok s h, rfl, rfl, (if_pos h).symm, absurd h, fun _ => rfl⟩
  · exact ⟨_, exec_init_error s h, rfl, rfl, (if_neg h).symm, fun _ => rfl, fun z => absurd z h⟩

end ConfigError

/-- Settles O52: the sub-code is that of the first condition that holds, and each condition before it has failed. -/
theorem initReportsTheFirstFailingCondition : Obligations.InitReportsTheFirstFailingCondition := by
  intro a s
  obtain ⟨u, next, bnd, result, outcome, failed, run⟩ := exec_init_reports a s
  obtain ⟨c1, c2, c3, c4, c5, last⟩ := firstOfFive_iff (c := firstFailing a) rfl
  have positive : ¬(a.symbolRate ≤ 0 ∨ a.sampleRate ≤ 0) ↔ 0 < a.symbolRate ∧ 0 < a.sampleRate := by omega
  have odd : ¬(a.taps < 1 ∨ a.taps % 2 = 0) ↔ 1 ≤ a.taps ∧ a.taps % 2 = 1 := by omega
  have inside : ¬(realValue a.beta < 0 ∨ 1 < realValue a.beta) ↔ 0 ≤ realValue a.beta ∧ realValue a.beta ≤ 1 := by
    simp
  simp only [positive, odd, inside, ne_eq, not_not, and_assoc] at c2 c3 c4 c5
  exact ⟨firstFailing a, u, next, bnd, result, outcome, c1, c2, c3, c4, c5, last, failed, run⟩

/-! ## RsLengthError (R293) -/

theorem exec_rsEncode_otherLength {s : State} (run : s.enc.mode = .run) {d : List Byte} (other : d.length ≠ 188) :
    exec (.rsEncode d) s = raisesOnly s (.rsLengthError d.length) :=
  (whenRun_run run).trans (congrArg _ (if_neg other))

/-- Settles O25: the length is looked at first, and PUSH_PACKET raises nothing. -/
theorem rsEncodeOfAnotherLengthRaises : Obligations.RsEncodeOfAnotherLengthRaises := by
  refine fun s run => ⟨fun d other => exec_rsEncode_otherLength run other, fun ts u n h => ?_⟩
  obtain ⟨-, rfl⟩ := whenRun_eq_next.mp h
  nofun

/-! ## Reports (R294, R295, R296, R283) -/

section Report

variable {s : State} {ev : HostEvent} {turns : List Turn}

theorem nextReport_report (schedule : s.port.schedule = .report ev :: turns) : nextReport s = some ev := by
  simp [nextReport, schedule]

theorem betweenPackets_iff : betweenPackets s = true ↔ s.bnd.held = false ∧ s.port.owed = [] := by
  simp [betweenPackets]

theorem endInput_between (x : Exc) (free : s.bnd.held = false) (nothing : s.port.owed = []) :
    endInput x s = s.raise x s.enc { s.bnd with producerEnded := true, closed := true } .none :=
  if_pos (betweenPackets_iff.mpr ⟨free, nothing⟩)

theorem endInput_busy (x : Exc) (busy : s.bnd.held = true ∨ s.port.owed ≠ []) : endInput x s = s :=
  if_neg fun between => by
    obtain ⟨free, nothing⟩ := betweenPackets_iff.mp between
    simp [free, nothing] at busy

/-- A report asks nothing for the producer, takes no turn and starts no new run. -/
theorem takeEvent_frame (ev : HostEvent) (s : State) : (takeEvent ev s).port.producer = s.port.producer ∧
    (takeEvent ev s).port.schedule = s.port.schedule ∧
    (s.bnd.producerEnded = true → (takeEvent ev s).bnd.producerEnded = true) := by
  cases ev with
  | inputEOF => rcases endInput_cases .inputEOF s with ⟨-, h⟩ | ⟨-, h⟩ <;> simp [takeEvent, h]
  | inputReadError => rcases endInput_cases .inputReadError s with ⟨-, h⟩ | ⟨-, h⟩ <;> simp [takeEvent, h]
  | deviceError => exact ⟨rfl, rfl, id⟩
  | shutdown => exact ⟨rfl, rfl, id⟩

/-- In the turn of a report the step takes it. -/
theorem step_report (schedule : s.port.schedule = .report ev :: turns) :
    step s = .next { takeEvent ev s with port := { (takeEvent ev s).port with schedule := turns } } := by
  obtain ⟨-, same, -⟩ := takeEvent_frame ev s
  simp only [step, nextReport_report schedule, turnTaken, same, schedule, List.tail_cons]

end Report

/-! ## What the consumer asks (R345) -/

section Consumer

variable {s u : State} {i : Instr} {t : Task}

theorem breach_consumer (kept : breach s .consumer i = none) : i = .queuePop ∨ ∃ x, i = .quantise x := by
  cases i with
  | queuePop => exact .inl rfl
  | quantise x => exact .inr ⟨x, rfl⟩
  | _ => cases kept

/-- A pop never lets the producer end or go on (R280). -/
theorem exec_queuePop_producerEnded (h : exec .queuePop s = .next u) : u.bnd.producerEnded = s.bnd.producerEnded := by
  obtain ⟨run, -⟩ := whenRun_eq_next.mp h
  cases queue : s.bnd.queue with
  | cons x rest =>
    obtain rfl := Outcome.next.inj ((exec_queuePop_head run queue).symm.trans h)
    rfl
  | nil =>
    cases closed : s.bnd.closed with
    | true =>
      obtain rfl := Outcome.next.inj ((exec_queuePop_end run queue closed).symm.trans h)
      rfl
    | false =>
      obtain rfl := Outcome.next.inj ((exec_queuePop_underflow run queue closed).symm.trans h)
      rfl

/-- What the consumer may ask touches neither the CORE nor the producer. -/
theorem exec_consumer_frame (kept : breach s .consumer i = none) (h : exec i s = .next u) :
    u.enc = s.enc ∧ u.port.producer = s.port.producer ∧ u.bnd.producerEnded = s.bnd.producerEnded := by
  have effect := exec_effect h
  have producer : u.port.producer = s.port.producer := by rw [effect.port]
  obtain rfl | ⟨x, rfl⟩ := breach_consumer kept
  · exact ⟨(effect.core (by simp)).eq_of_nil, producer, exec_queuePop_producerEnded h⟩
  · exact ⟨(effect.core (by simp)).eq_of_nil, producer, by rw [effect.boundary (by simp [Instr.opId])]⟩

/-- The end of an operation of the consumer leaves the CORE and the producer alone. -/
theorem settle_consumer_frame {rest : List Byte} {v : State} (kept : breach s .consumer i = none)
    (h : exec i s = .next v) :
    (settle .consumer i rest v).enc = s.enc ∧ (settle .consumer i rest v).port.producer = s.port.producer ∧
      (settle .consumer i rest v).bnd.producerEnded = s.bnd.producerEnded := by
  obtain ⟨enc, producer, ended⟩ := exec_consumer_frame kept h
  have notInit : ∀ a, i ≠ .init a := by
    obtain rfl | ⟨x, rfl⟩ := breach_consumer kept <;> nofun
  refine ⟨(settle_enc _ _ _ _).trans enc, ?_, ?_⟩
  · exact (settle_requests_other (t := .consumer) (t' := .producer) nofun).trans producer
  · rw [settle_bnd _ _ _ _ (.inr (.inr notInit)), ended]

theorem nextTask_runnable (h : nextTask s = some t) : runnable s t = true := by
  unfold nextTask at h
  split at h
  · split at h
    · cases h; assumption
    · cases h
  · cases h
  · split at h
    · cases h; assumption
    · split at h
      · cases h; assumption
      · cases h

end Consumer

/-! ## A producer that has ended (R281; log entry 27) -/

section Ended

variable {s u : State}

/-- A producer that has ended and does not ask for INIT does not move. -/
theorem not_runnable_ended (ended : s.bnd.producerEnded = true) (quiet : initRequested s = false) :
    runnable s .producer = false := by
  simp [runnable, ended, quiet]

/-- The end of the transfer takes no request of a producer that does not wait. -/
theorem stopTransfer_producer (free : s.bnd.held = false) : (stopTransfer s).port.producer = s.port.producer := by
  obtain ⟨-, -, -, same⟩ := abandonPush_frame s
  rw [stopTransfer, State.completeBoundary_producer, same free]

/-- Whatever step is made, a producer that has ended stays ended, and only the consumer's requests are served. -/
theorem step_ended (ended : s.bnd.producerEnded = true) (free : s.bnd.held = false) (quiet : initRequested s = false)
    (h : step s = .next u) :
    u.enc = s.enc ∧ u.port.producer = s.port.producer ∧ u.bnd.producerEnded = true := by
  obtain ⟨ev, -, rfl⟩ | ⟨-, -, rfl⟩ | ⟨-, -, -, rfl⟩ | ⟨-, t, i, rest, v, turn, -, kept, run, rfl⟩ := step_eq_next h
  · obtain ⟨enc, -⟩ := takeEvent_enc ev s
    obtain ⟨producer, -, stays⟩ := takeEvent_frame ev s
    exact ⟨enc, producer, stays ended⟩
  · exact ⟨rfl, rfl, ended⟩
  · obtain ⟨enc, -, bnd⟩ := stopTransfer_frame s
    exact ⟨enc, stopTransfer_producer free, by rw [turnTaken_bnd, bnd]⟩
  · cases t with
    | producer =>
      have moves := nextTask_runnable turn
      rw [not_runnable_ended ended quiet] at moves
      cases moves
    | consumer =>
      obtain ⟨enc, producer, same⟩ := settle_consumer_frame (rest := rest) kept run
      exact ⟨enc, producer, same.trans ended⟩

end Ended

/-! ## The id a request carries (R100) -/

section Yields

variable {α β : Type} {P : β → Prop}

/-- Whatever `p` reads satisfies `P`. -/
def Yields (p : Reader β) (P : β → Prop) : Prop := ∀ bs x rest, p bs = .ok (x, rest) → P x

theorem yields_done {x : β} (h : P x) : Yields (Reader.done x) P := fun _ _ _ read => by
  obtain ⟨rfl, -⟩ := Prod.mk.inj (Except.ok.inj read)
  exact h

theorem yields_andThen {p : Reader α} {f : α → Reader β} (h : ∀ x, Yields (f x) P) : Yields (p.andThen f) P :=
  fun _ _ _ read => by
    obtain ⟨x, rest, -, second⟩ := Reader.andThen_eq_ok.mp read
    exact h x rest _ _ second

theorem yields_apply {p : Reader α} {f : α → β} (h : ∀ x, P (f x)) : Yields (Reader.apply f p) P :=
  yields_andThen fun x => yields_done (h x)

end Yields

/-- Each line of the decoder reads the operation of its own id. -/
theorem decodeOperands_yields (op : Byte) : Yields (decodeOperands op) fun i => i.opId.toNat = op.toNat := by
  unfold decodeOperands
  split
  case h_28 => exact fun _ _ _ read => nomatch read
  all_goals rename_i id; rw [id]
  case h_11 | h_12 | h_19 | h_21 | h_27 => exact yields_done rfl
  case h_14 | h_17 | h_20 => exact yields_andThen fun _ => yields_apply fun _ => rfl
  case h_23 => exact yields_andThen fun _ => yields_andThen fun _ => yields_apply fun _ => rfl
  all_goals exact yields_apply fun _ => rfl

/-- A request's first byte is its operation's id. -/
theorem head_of_fetch {s : State} {t : Task} {i : Instr} {rest : List Byte} (fetched : fetch s t = .ok (i, rest)) :
    (s.requests t).head? = some i.opId := by
  unfold fetch at fetched
  cases requests : s.requests t with
  | nil =>
    rw [requests] at fetched
    cases fetched
  | cons op bs =>
    rw [requests] at fetched
    exact congrArg some (BitVec.eq_of_toNat_eq (decodeOperands_yields op _ _ _ fetched).symm)

/-! ## INIT after the end (log entry 27) -/

section InitAfterEnd

variable {s : State} {a : Config.InitArg} {rest : List Byte}

theorem initRequested_of_fetch (fetched : fetch s .producer = .ok (.init a, rest)) : initRequested s = true :=
  beq_iff_eq.mpr (head_of_fetch fetched)

/-- INIT can be served also when the producer has ended. -/
theorem runnable_of_init (fetched : fetch s .producer = .ok (.init a, rest)) (free : s.bnd.held = false) :
    runnable s .producer = true := by
  have requests : s.port.producer ≠ [] := fun empty => by
    have head : s.port.producer.head? = some (Instr.init a).opId := head_of_fetch fetched
    simp [empty] at head
  simp [runnable, initRequested_of_fetch fetched, free, requests]

/-- The INIT of a producer that has ended, in its turn: a success lets the producer go on with nothing owed, a
ConfigError leaves it ended. -/
theorem step_init_ended {turns : List Turn} (ended : s.bnd.producerEnded = true) (free : s.bnd.held = false)
    (schedule : s.port.schedule = .task .producer :: turns) (fetched : fetch s .producer = .ok (.init a, rest)) :
    ∃ v u : State, exec (.init a) s = .next v ∧ step s = .next u ∧ u.enc = v.enc ∧
      u.port.outcome = v.port.outcome ∧ u.port.producer = rest ∧ u.port.schedule = turns ∧
      (v.port.outcome = .none → u.bnd = { s.bnd with producerEnded := false } ∧ u.port.owed = []) ∧
      (v.port.outcome ≠ .none → u.bnd = s.bnd ∧ u.port.owed = s.port.owed) := by
  obtain ⟨v, run, bnd, -⟩ := exec_init_reports a s
  have turn := nextTask_turn schedule (runnable_of_init fetched free)
  have port := (exec_effect run).port
  refine ⟨v, _, run, (step_eq_serve (nextReport_task schedule) turn nofun).trans (serve_next fetched rfl run),
    settle_enc _ _ _ _, settle_outcome _ _ _ _, ?_, ?_, fun ok => ?_, fun failed => ⟨?_, ?_⟩⟩
  · exact (settle_requests (t := .producer)).trans (if_neg (by simp [bnd, free]))
  · rw [settle_schedule, port, schedule, List.tail_cons]
  · obtain ⟨after, owed, -⟩ := settle_init_starts (t := .producer) (rest := rest) (a := a) (bnd ▸ ended) ok
    exact ⟨by rw [after, bnd], owed⟩
  · rw [settle_bnd _ _ _ _ (.inr (.inl failed)), bnd]
  · obtain ⟨owed, -⟩ := settle_init_goes_on (t := .producer) (rest := rest) (a := a) (.inr failed)
    rw [owed, port]

end InitAfterEnd

/-- A step with no report in which no task can move only takes the turn (R315). -/
theorem step_idle {s : State} (quiet : nextReport s = none) (idle : nextTask s = none) :
    step s = .next (turnTaken s) := by
  simp only [step, quiet, idle]

/-- Settles O7: the turn of each report, of a producer that has ended, of its INIT, and of no one. -/
theorem reportsLeaveTheCoreAlone : Obligations.ReportsLeaveTheCoreAlone := by
  refine ⟨fun s turns => ⟨fun eof free nothing => ?_, fun lost free nothing => ?_, fun ends busy => ?_, step_report,
    step_report⟩, fun _ _ => step_ended, fun _ _ _ _ => step_init_ended, fun _ => step_idle⟩
  · rw [step_report eof, takeEvent, endInput_between _ free nothing]
    rfl
  · rw [step_report lost, takeEvent, endInput_between _ free nothing]
    rfl
  · rcases ends with eof | lost
    · rw [step_report eof, takeEvent, endInput_busy _ busy]
    · rw [step_report lost, takeEvent, endInput_busy _ busy]

end Sys2Proof.Machine
end

section
/-! PROOFS. The hazards between the two tasks and the superframe (70_reset_and_hazards R344, R345): what the consumer
may do in its turn (47_pipeline R285, R281), and FEED around a dropped block (R267, R276). -/

namespace Sys2Proof.Machine

-- As in the tests: one proof after another, so that no further threads start, each of which reserves address space.
set_option Elab.async false

open Sys2Proof.Safety
open Host (Outcome)

/-! ## A push given up (R281; log entry 26) -/

section Abandon

variable {s : State}

/-- Everything that giving up a waiting push changes; where none waits, the two fields of the port keep their value. -/
theorem abandonPush_eq (s : State) : abandonPush s =
    { s with
      bnd := { s.bnd with held := false }
      port := { s.port with
        producer := (abandonPush s).port.producer
        origins := if s.bnd.held = true then s.port.origins.tail else s.port.origins } } := by
  cases held : s.bnd.held with
  | true => simp only [abandonPush, held, if_true]
  | false =>
    obtain ⟨-, -, bnd, same⟩ := abandonPush_frame s
    rw [same held] at bnd ⊢
    rw [← bnd]
    rfl

theorem abandonPush_producer_free (free : s.bnd.held = false) :
    (abandonPush s).port.producer = s.port.producer := by
  obtain ⟨-, -, -, same⟩ := abandonPush_frame s
  rw [same free]

theorem abandonPush_producer_held {i : Instr} {rest : List Byte} (held : s.bnd.held = true)
    (fetched : fetch s .producer = .ok (i, rest)) : (abandonPush s).port.producer = rest := by
  simp only [abandonPush, held, if_true, fetched]

/-- The whole state after the token is observed. -/
theorem turnTaken_stopTransfer (s : State) : turnTaken (stopTransfer s) =
    { s with
      bnd := { s.bnd with held := false, consumerStopped := true, producerEnded := true }
      port := { s.port with
        producer := (abandonPush s).port.producer, schedule := s.port.schedule.tail, result := .sentinel
        outcome := .none
        origins := if s.bnd.held = true then s.port.origins.tail else s.port.origins } } := by
  rw [stopTransfer, abandonPush_eq]
  rfl

end Abandon

/-! ## The consumer's turn (R345, R285) -/

section ConsumerTurn

variable {s : State} {i : Instr}

/-- The consumer's turn where the token is set serves no request (R281). -/
theorem step_token (quiet : nextReport s = none) (turn : nextTask s = some .consumer) (token : s.bnd.token = true) :
    step s = .next (turnTaken (stopTransfer s)) := by
  simp only [step, quiet, turn, token, if_true]

theorem breach_consumer_none (asks : i = .queuePop ∨ ∃ x, i = .quantise x) : breach s .consumer i = none := by
  obtain rfl | ⟨x, rfl⟩ := asks <;> rfl

/-- The callback must not call into the CORE. -/
theorem breach_consumer_other (notPop : i ≠ .queuePop) (notQuantise : ∀ x, i ≠ .quantise x) :
    breach s .consumer i = some .notForConsumer := by
  cases i with
  | queuePop => exact absurd rfl notPop
  | quantise x => exact absurd rfl (notQuantise x)
  | _ => rfl

/-- Whether the token stops it or its request is served, the consumer leaves the CORE alone. -/
theorem step_consumer_enc {u : State} (quiet : nextReport s = none) (turn : nextTask s = some .consumer)
    (h : step s = .next u) : u.enc = s.enc := by
  cases token : s.bnd.token with
  | true =>
    obtain rfl := Outcome.next.inj ((step_token quiet turn token).symm.trans h)
    obtain ⟨enc, -⟩ := stopTransfer_frame s
    exact enc
  | false =>
    rw [step_eq_serve quiet turn fun _ => token] at h
    obtain ⟨i, rest, v, -, kept, run, rfl⟩ := serve_eq_next h
    obtain ⟨enc, -⟩ := settle_consumer_frame (rest := rest) kept run
    exact enc

end ConsumerTurn

/-- Settles O8: the token, or else the consumer's own request, decides its turn. -/
theorem consumerOnlyPopsAndQuantises : Obligations.ConsumerOnlyPopsAndQuantises := by
  refine fun s quiet turn => ⟨fun u => step_consumer_enc quiet turn, fun i rest go fetched => ?_, fun token => ?_⟩
  · rw [step_eq_serve quiet turn fun _ => go]
    refine ⟨fun run asks => ?_, fun notPop notQuantise => ?_⟩
    · obtain ⟨v, completes⟩ := exec_of_run i run
      exact ⟨_, serve_next fetched (breach_consumer_none asks) completes⟩
    · exact serve_breach fetched (breach_consumer_other notPop notQuantise)
  · exact ⟨(abandonPush s).port.producer, abandonPush_producer_free, fun _ _ => abandonPush_producer_held,
      (step_token quiet turn token).trans (congrArg _ (turnTaken_stopTransfer s))⟩

/-! ## FEED (R267) -/

section Feed

variable {s : State} {blk : Packet 188} (run : s.enc.mode = .run)
include run

theorem feed_dropped (lost : blk[0] ≠ 0x47#8) : feed blk s =
    .next (s.raise (.syncLoss blk[0]) (s.enc.withCount (s.enc.syncLossCount + 1)) s.bnd .none) := by
  obtain ⟨-, drops⟩ := frameCheckCountsSyncLoss blk s run
  have check : execFrameCheck blk s = _ := drops lost
  simp only [feed, check]
  rfl

theorem feed_accepted (sync : blk[0] = 0x47#8) : feed blk s =
    .next (s.complete (pushPacket s.num s.enc blk.toList).2 (.samples (pushPacket s.num s.enc blk.toList).1)) := by
  obtain ⟨accepts, -⟩ := frameCheckCountsSyncLoss blk s run
  have check : execFrameCheck blk s = .next (s.complete s.enc .accept) := accepts sync
  simp only [feed, check, State.complete_result, if_true]
  exact exec_pushPacket (s.complete s.enc .accept) blk run

end Feed

/-- Only FRAME_CHECK and INIT write the count of dropped blocks (10_state R21). -/
theorem pushPacket_syncLossCount (f : Config.NumType) (e : Encoder) (ts : Packet 188) :
    (pushPacket f e ts.toList).2.syncLossCount = e.syncLossCount :=
  (pushPacket_changesOnly f e ts ts.toList).syncLossCount (by simp [writes])

/-- The only "must not" of R285 about PUSH_PACKET: its block was dropped. -/
theorem breach_pushPacket (s : State) (ts : Packet 188) :
    breach s .producer (.pushPacket ts) = if s.port.dropped.contains ts then some .droppedBlock else none := rfl

/-- Settles O56: the dropped block changes only the count, which PUSH_PACKET neither reads nor writes. -/
theorem droppedBlocksDoNotAdvance : Obligations.DroppedBlocksDoNotAdvance := by
  refine fun bad good s => ⟨fun run lost sync => ?_, fun rest quiet turn fetched known => ?_⟩
  · refine ⟨_, _, _, feed_dropped run lost, rfl, rfl, feed_accepted run sync, feed_accepted run sync, ?_, ?_, rfl⟩
    · simp only [State.complete_result, State.raise_enc, State.raise_num, pushPacket_withCount]
    · simp only [State.complete_enc, State.raise_enc, State.raise_num, pushPacket_withCount, pushPacket_syncLossCount]
      rfl
  · rw [step_eq_serve quiet turn nofun]
    exact serve_breach fetched (by rw [breach_pushPacket, if_pos (List.contains_iff_mem.mpr known)])

end Sys2Proof.Machine
end

section
/-! PROOFS. The Reed-Solomon encoder (42_rs_encoder R170 to R177): each RS_STEP writes one register from the old one and
a multiple of `g`, so that the codeword keeps the roots of `g` and the parity is linear in the data. -/

namespace Sys2Proof.Machine

-- As in the tests: one proof after another, so that no further threads start, each of which reserves address space.
set_option Elab.async false

open Sys2Proof.Safety
open Host (Outcome)

/-! ## The register (R171, R173) -/

/-- The register RS_STEP leaves, for a product `mul` (R173 without the test of the feedback, R174). -/
def remStep (mul : Byte → Byte → Byte) (g : Vector Byte 17) (r : Vector Byte 16) (d : Byte) : Vector Byte 16 :=
  Vector.ofFn fun k : Fin 16 => (if h : k.val < 15 then r[k.val + 1] else 0x00#8) ^^^ mul g[k.val + 1] (d ^^^ r[0])

/-- The register after RS_CLEAR and one RS_STEP for each byte. -/
def remainderOf (mul : Byte → Byte → Byte) (g : Vector Byte 17) (ds : List Byte) : Vector Byte 16 :=
  ds.foldl (remStep mul g) (Vector.replicate 16 0x00#8)

theorem getElem_remStep {mul : Byte → Byte → Byte} {g : Vector Byte 17} {r : Vector Byte 16} {d : Byte} {k : Nat}
    (h : k < 16) :
    (remStep mul g r d)[k] = (if h : k < 15 then r[k + 1] else 0x00#8) ^^^ mul g[k + 1] (d ^^^ r[0]) :=
  Vector.getElem_ofFn h

theorem getElem_remShift {r : Vector Byte 16} {k : Nat} (h : k < 16) :
    (remShift r)[k] = if h : k < 15 then r[k + 1] else 0x00#8 := by
  simp only [remShift, getElem_vectorOfList, List.getElem_append, List.length_tail, Vector.length_toList]
  split
  · simp
  · simp

theorem getElem_remAdd (mul : Byte → Byte) (g : Vector Byte 17) (r : Vector Byte 16) (k : Nat) (h : k < 16) :
    (remAdd mul g r)[k] = r[k] ^^^ mul g[k + 1] := by
  simp [remAdd]

section Step

variable (e : Encoder) (d : Byte)

/-- A zero feedback adds nothing, so the test of it may be dropped (R174). -/
theorem rsStep_eq_remStep : rsStep e d = { e with rem := remStep e.gfMul e.g e.rem d } := by
  rw [rsStep_eq]
  congr 1
  apply Vector.ext
  intro k h
  rw [getElem_remStep h, ← getElem_remShift h]
  cases nonzero : feedbackNonzero (d ^^^ e.rem[0]) with
  | true => simp only [rsStep, nonzero, if_true, getElem_remAdd]
  | false =>
    have zero : d ^^^ e.rem[0] = 0x00#8 := by simpa [feedbackNonzero] using nonzero
    have product : e.gfMul e.g[k + 1] 0x00#8 = 0x00#8 := gfMulWith_zero (.inr rfl)
    rw [zero, product, BitVec.xor_zero]
    simp only [rsStep, nonzero, Bool.false_eq_true, if_false]

theorem foldl_rsStep (ds : List Byte) :
    ds.foldl rsStep e = { e with rem := ds.foldl (remStep e.gfMul e.g) e.rem } := by
  induction ds generalizing e with
  | nil => rfl
  | cons d ds ih =>
    rw [List.foldl_cons, ih, rsStep_eq_remStep]
    rfl

theorem foldl_rsStep_rsClear (ds : List Byte) :
    ds.foldl rsStep (rsClear e) = { e with rem := remainderOf e.gfMul e.g ds } :=
  foldl_rsStep (rsClear e) ds

theorem rsEncode_eq (ds : List Byte) :
    rsEncode e ds =
      (ds ++ (remainderOf e.gfMul e.g ds).toList, { e with rem := remainderOf e.gfMul e.g ds }) := by
  simp only [rsEncode, foldl_rsStep_rsClear]

end Step

/-- RS_ENCODE of 188 bytes (R170). -/
theorem exec_rsEncode_remainderOf {s : State} {d : List Byte} (run : s.enc.mode = .run) (h : d.length = 188) :
    exec (.rsEncode d) s = completes s { s.enc with rem := remainderOf s.enc.gfMul s.enc.g d }
      (.bytes (d ++ (remainderOf s.enc.gfMul s.enc.g d).toList)) := by
  rw [exec_rsEncode run h, rsEncode_eq]

theorem exec_rsClear {s : State} (run : s.enc.mode = .run) : exec .rsClear s = completes s (rsClear s.enc) .none :=
  whenRun_run run

theorem exec_rsStep {s : State} (run : s.enc.mode = .run) (d : Byte) :
    exec (.rsStep d) s = completes s (rsStep s.enc d) .none := whenRun_run run

/-- Settles O21: RS_CLEAR by definition, RS_STEP because a zero feedback adds nothing. -/
theorem rsElementsUpdateTheRemainder : Obligations.RsElementsUpdateTheRemainder := fun d s run =>
  ⟨exec_rsClear run, (exec_rsStep run d).trans (by rw [rsStep_eq_remStep]; rfl)⟩

/-! ## RS_ENCODE and its elements (R170, R175) -/

/-- Elements that return nothing only move the state on. -/
theorem thread_silent {σ α : Type} (f : σ → α → σ) (s : σ) (xs : List α) :
    (thread (fun s x => ((), f s x)) s xs).2 = xs.foldl f s := by
  induction xs generalizing s with
  | nil => rfl
  | cons x xs ih => simp only [thread_cons, List.foldl_cons, ih]

theorem runs_rsStep (n : Config.NumType) :
    RunsElement n Instr.rsStep (fun e d => ((), rsStep e d)) (fun _ => .none) :=
  ⟨fun _ d run _ => exec_rsStep run d, fun e d => (rsStep_changesOnly (w := [.rem]) e (by simp) d).mode⟩

/-- RS_CLEAR and one RS_STEP for each byte. -/
theorem runOps_rsClear_rsSteps {s : State} (run : s.enc.mode = .run) (d : List Byte) : ∃ (rs : List Result) (u : State),
    runOps (.rsClear :: d.map Instr.rsStep) s = some (rs, u) ∧
      u.enc = { s.enc with rem := remainderOf s.enc.gfMul s.enc.g d } := by
  obtain ⟨u, steps, core, -⟩ := (runs_rsStep s.num).runOps_map d (s.complete (rsClear s.enc) .none) run rfl
  refine ⟨_, u, runOps_cons (exec_rsClear run) steps, core.trans ?_⟩
  rw [thread_silent]
  exact foldl_rsStep_rsClear s.enc d

/-- Settles O22: both ways divide the same bytes with the same register. -/
theorem rsEncodeIsSystematic : Obligations.RsEncodeIsSystematic := by
  intro d s run h
  obtain ⟨rs, u, steps, core⟩ := runOps_rsClear_rsSteps run d
  exact ⟨_, u, exec_rsEncode_remainderOf run h, ⟨rs, steps⟩, core⟩

/-! ## The roots of the codeword (R176) -/

/-- In a sound state of RUN the product is the field's and `g` is RSGEN_BUILD's polynomial (R30 to R32). -/
theorem field_of_sound {s : State} (sound : Sound s) (run : s.enc.mode = .run) :
    s.enc.gfMul = clmulMod ∧ s.enc.g = genTable gfExpTable gfLogTable := by
  obtain ⟨-, ⟨exp, log, g, -⟩, -⟩ := sound.1 run
  refine ⟨?_, g⟩
  funext a b
  rw [Encoder.gfMul, exp, log, gfMulWith_tables]

/-- What O29 says of the polynomial RSGEN_BUILD returns, for the table of the CORE. -/
theorem genTable_monic_roots : (genTable gfExpTable gfLogTable)[0] = 0x01#8 ∧
    ∀ i, i < 16 → hornerAt (genTable gfExpTable gfLogTable).toList (alphaPow i) = 0x00#8 := by
  obtain ⟨g, build, monic, roots⟩ := generatorHasTheSixteenRoots State.reset
  have returned : Result.generator (genTable gfExpTable gfLogTable) = Result.generator g :=
    congrArg (·.port.result) (Outcome.next.inj build)
  obtain rfl := Result.generator.inj returned
  exact ⟨monic, roots⟩

theorem hornerAt_replicate_zero (n : Nat) (x : Byte) : hornerAt (List.replicate n 0x00#8) x = 0x00#8 := by
  induction n with
  | zero => rfl
  | succ n ih =>
    rw [List.replicate_succ, hornerAt_eq_foldl, List.foldl_cons, hornerStep, zero_clmulMod]
    exact ih

/-- The long division: the byte and the new register are the old register times `x`, and the feedback times `g`. -/
theorem cons_remStep {g : Vector Byte 17} (monic : g[0] = 0x01#8) (r : Vector Byte 16) (d : Byte) :
    d :: (remStep clmulMod g r d).toList =
      List.zipWith (· ^^^ ·) (r.toList ++ [0x00#8]) (g.toList.map fun c => clmulMod c (d ^^^ r[0])) := by
  apply List.ext_getElem
  · simp
  · intro i hi _
    cases i with
    | zero => simp [monic, BitVec.xor_comm d]
    | succ k =>
      have hk : k < 16 := by simpa using Nat.lt_of_succ_lt_succ hi
      rcases Nat.lt_or_eq_of_le (Nat.le_of_lt_succ hk) with inside | rfl
      · simp [getElem_remStep hk, List.getElem_append, inside]
      · simp [getElem_remStep]

/-- What is divided so far, with the register behind it, is zero at every root of `g`. -/
theorem hornerAt_append_remainderOf {g : Vector Byte 17} (monic : g[0] = 0x01#8) {x : Byte}
    (root : hornerAt g.toList x = 0x00#8) (ds : List Byte) :
    hornerAt (ds ++ (remainderOf clmulMod g ds).toList) x = 0x00#8 := by
  induction ds using List.reverseRecOn with
  | nil => exact hornerAt_replicate_zero 16 x
  | append_singleton ds d ih =>
    have step : remainderOf clmulMod g (ds ++ [d]) = remStep clmulMod g (remainderOf clmulMod g ds) d := by
      simp [remainderOf]
    rw [step, List.append_assoc, List.singleton_append, cons_remStep monic, hornerAt_append,
      ← BitVec.xor_zero (x := hornerAt ds x), foldl_horner_xor _ _ _ _ _ (by simp), ← hornerAt_append,
      ← hornerAt_eq_foldl, hornerAt_map_clmulMod, root, ← List.append_assoc, hornerAt_append, ih]
    simp [hornerStep]

/-- Settles O23: the codeword is the data with the remainder behind it, and `g` has the sixteen roots. -/
theorem codewordVanishesAtTheRoots : Obligations.CodewordVanishesAtTheRoots := by
  intro d s sound run h
  obtain ⟨product, poly⟩ := field_of_sound sound run
  obtain ⟨monic, roots⟩ := genTable_monic_roots
  refine ⟨_, _, exec_rsEncode_remainderOf run h, rfl, by simp [h], fun i hi => ?_⟩
  rw [product, poly]
  exact hornerAt_append_remainderOf monic (roots i hi) d

/-! ## Linearity (R177) -/

section Linear

variable (g : Vector Byte 17)

theorem remStep_xor (r r' : Vector Byte 16) (d d' : Byte) :
    remStep clmulMod g (Vector.zipWith (· ^^^ ·) r r') (d ^^^ d') =
      Vector.zipWith (· ^^^ ·) (remStep clmulMod g r d) (remStep clmulMod g r' d') := by
  apply Vector.ext
  intro k h
  have feedback : (d ^^^ d') ^^^ (r[0] ^^^ r'[0]) = (d ^^^ r[0]) ^^^ (d' ^^^ r'[0]) := by ac_rfl
  simp only [getElem_remStep h, Vector.getElem_zipWith, feedback, clmulMod_xor]
  split
  · ac_rfl
  · simp

theorem remStep_scale (v : Byte) (r : Vector Byte 16) (d : Byte) :
    remStep clmulMod g (r.map (clmulMod v)) (clmulMod v d) = (remStep clmulMod g r d).map (clmulMod v) := by
  apply Vector.ext
  intro k h
  have product : ∀ c f, clmulMod c (clmulMod v f) = clmulMod v (clmulMod c f) := fun c f => by
    rw [← clmulMod_assoc, clmulMod_comm c v, clmulMod_assoc]
  simp only [getElem_remStep h, Vector.getElem_map, ← clmulMod_xor v d, product]
  split
  · rw [clmulMod_xor v]
  · simp

/-- The cleared register is its own XOR and its own multiple. -/
theorem clear_xor : Vector.zipWith (· ^^^ ·) (Vector.replicate 16 0x00#8) (Vector.replicate 16 0x00#8) =
    (Vector.replicate 16 0x00#8 : Vector Byte 16) := by
  simp

theorem clear_scale (v : Byte) :
    (Vector.replicate 16 0x00#8).map (clmulMod v) = (Vector.replicate 16 0x00#8 : Vector Byte 16) := by
  rw [Vector.map_replicate, clmulMod_zero]

theorem foldl_remStep_xor (a b : List Byte) (r r' : Vector Byte 16) (h : a.length = b.length) :
    (xorBytes a b).foldl (remStep clmulMod g) (Vector.zipWith (· ^^^ ·) r r') =
      Vector.zipWith (· ^^^ ·) (a.foldl (remStep clmulMod g) r) (b.foldl (remStep clmulMod g) r') := by
  induction a generalizing b r r' with
  | nil =>
    obtain rfl := List.length_eq_zero_iff.mp h.symm
    rfl
  | cons x a ih =>
    cases b with
    | nil => cases h
    | cons y b =>
      rw [List.foldl_cons, List.foldl_cons, ← ih b _ _ (Nat.succ.inj h), ← remStep_xor]
      rfl

theorem remainderOf_xor {a b : List Byte} (h : a.length = b.length) :
    remainderOf clmulMod g (xorBytes a b) =
      Vector.zipWith (· ^^^ ·) (remainderOf clmulMod g a) (remainderOf clmulMod g b) := by
  rw [remainderOf, ← clear_xor, foldl_remStep_xor g a b _ _ h]
  rfl

theorem remainderOf_scale (v : Byte) (a : List Byte) :
    remainderOf clmulMod g (a.map (clmulMod v)) = (remainderOf clmulMod g a).map (clmulMod v) := by
  rw [remainderOf, List.foldl_map, ← clear_scale v]
  exact List.foldl_hom (Vector.map (clmulMod v)) fun r d => remStep_scale g v r d

end Linear

theorem parityOf_eq {s : State} {d : List Byte} (run : s.enc.mode = .run) (h : d.length = 188) :
    parityOf s d = some (remainderOf s.enc.gfMul s.enc.g d).toList := by
  simp only [parityOf, exec_rsEncode_remainderOf run h, completes]
  rw [← h, List.drop_left]

theorem map_zero_clmulMod (l : List Byte) : l.map (clmulMod 0x00#8) = List.replicate l.length 0x00#8 := by
  rw [funext zero_clmulMod, List.map_const']

/-- Settles O24: the division is linear in the data, and zero bytes are zero times any bytes. -/
theorem parityIsLinear : Obligations.ParityIsLinear := by
  intro a b s sound run ha hb
  obtain ⟨product, poly⟩ := field_of_sound sound run
  have parity : ∀ {d : List Byte}, d.length = 188 → parityOf s d = some (remainderOf clmulMod s.enc.g d).toList :=
    fun h => product ▸ parityOf_eq run h
  have scaled : ∀ v, parityOf s (a.map (clmulMod v)) =
      some ((remainderOf clmulMod s.enc.g a).toList.map (clmulMod v)) := fun v => by
    rw [parity (by simpa using ha), remainderOf_scale, Vector.toList_map]
  refine ⟨_, _, parity ha, parity hb, ?_, scaled, ?_⟩
  · rw [parity (by simp [xorBytes, ha, hb]), remainderOf_xor _ (ha.trans hb.symm), Vector.toList_zipWith]
    rfl
  · simpa only [map_zero_clmulMod, Vector.length_toList, ha] using scaled 0x00#8

end Sys2Proof.Machine
end
